-- ==== Sys2Proof/Word.lean ====
section
/-! DEFINITION. The bit-vector types of the block: bytes, 32-bit register words and 64-bit double words
(00_scope R7). Bit 0 is the least significant bit. -/

namespace Sys2Proof

/-- One byte of CBUF, of FBUF or of an immediate. -/
abbrev Byte := BitVec 8

/-- One 32-bit register of the host port, and one command word (00_scope R6). -/
abbrev Word := BitVec 32

/-- One 64-bit register: VAL, RES, FRES or a KTAB entry. -/
abbrev DWord := BitVec 64

end Sys2Proof
end

