-- ==== Sys2Proof/Syntax.lean ====
section
/-! DEFINITION. The 19 commands of CORE-1, one constructor per row of spec/opcode_table.json
(30_encoding R64). An argument is the IMM8 field of the command word, a zero-extended 8-bit number
(30_encoding R62). -/

namespace Sys2Proof

/-- A command of the block. -/
inductive Instr where
  /-- NOP (43_nav_validator R131). -/
  | nop
  /-- RDU w: read an unsigned field (40_bitfield_codec R73). -/
  | rdu (w : Byte)
  /-- WRU w: write an unsigned field (40_bitfield_codec R74). -/
  | wru (w : Byte)
  /-- RDSM w: read a sign-magnitude field (40_bitfield_codec R75). -/
  | rdsm (w : Byte)
  /-- RDX38: read the 38-bit extended value (40_bitfield_codec R76). -/
  | rdx38
  /-- SCALEU k: scale an unsigned integer (40_bitfield_codec R78). -/
  | scaleu (k : Byte)
  /-- SCALES k: scale a signed integer (40_bitfield_codec R79). -/
  | scales (k : Byte)
  /-- SCALEF k: scale a floating-point value (40_bitfield_codec R80). -/
  | scalef (k : Byte)
  /-- XOR8: XOR checksum over a byte range (41_checksum_engine R87). -/
  | xor8
  /-- SUM2: running-sum pair over a byte range (41_checksum_engine R89). -/
  | sum2
  /-- CRC32: reflected CRC-32 over a byte range (41_checksum_engine R91). -/
  | crc32
  /-- CRC24Q: CRC-24Q over a byte range (41_checksum_engine R93). -/
  | crc24q
  /-- CRC24QB: CRC-24Q over a bit range (41_checksum_engine R94). -/
  | crc24qb
  /-- PUSH b: push one byte into the synchronizer (42_frame_synchronizer R120). -/
  | push (b : Byte)
  /-- PUSHN: push a chunk of CBUF (42_frame_synchronizer R121). -/
  | pushn
  /-- SRESET: reset the synchronizer (42_frame_synchronizer R122). -/
  | sreset
  /-- NAVSF e: validate a 30-byte subframe (43_nav_validator R127). -/
  | navsf (e : Byte)
  /-- NAVWD e: validate an 11-byte word (43_nav_validator R128). -/
  | navwd (e : Byte)
  /-- NAVPAR u: check a unit's parity (43_nav_validator R130). -/
  | navpar (u : Byte)
  deriving DecidableEq, Repr

end Sys2Proof
end

