-- ==== Sys2Proof/WellFormed.lean ====
section
/-! DEFINITION. Which instruction terms an encoding admits: the IMM8 ranges of 30_encoding R64 and
R65 (d) to (g). -/

namespace Sys2Proof

/-- A field width of RDU and WRU: 1 to 32 (30_encoding R65 (d)). -/
def fieldWidthOk (w : Byte) : Bool := 1 ≤ w.toNat && w.toNat ≤ 32

/-- A field width of RDSM: 2 to 32 (30_encoding R65 (e)). -/
def signMagWidthOk (w : Byte) : Bool := 2 ≤ w.toNat && w.toNat ≤ 32

/-- A scale-constant index: 0 to 15 (30_encoding R65 (f)). -/
def scaleIndexOk (k : Byte) : Bool := k.toNat ≤ 15

/-- A unit kind: 0 or 1 (30_encoding R65 (g)). -/
def unitKindOk (u : Byte) : Bool := u.toNat ≤ 1

/-- An instruction term is well formed when its immediate is one the opcode map admits. -/
def Instr.wf : Instr → Bool
  | .nop => true
  | .rdu w => fieldWidthOk w
  | .wru w => fieldWidthOk w
  | .rdsm w => signMagWidthOk w
  | .rdx38 => true
  | .scaleu k => scaleIndexOk k
  | .scales k => scaleIndexOk k
  | .scalef k => scaleIndexOk k
  | .xor8 => true
  | .sum2 => true
  | .crc32 => true
  | .crc24q => true
  | .crc24qb => true
  | .push _ => true
  | .pushn => true
  | .sreset => true
  | .navsf _ => true
  | .navwd _ => true
  | .navpar u => unitKindOk u

end Sys2Proof
end

