-- ==== Sys2Proof/Decode.lean ====
section
/-! DEFINITION. The decoder of a command word, total and rejecting by name, and the encoder, both
from 30_encoding R60 to R66. A command is one 32-bit word {OP, IMM8, RSV} and RSV must be 0. -/

namespace Sys2Proof

/-- Why a command word is illegal, by the clauses of 30_encoding R65. -/
inductive DecodeReject where
  /-- (a): RSV is not 0. -/
  | reservedBits
  /-- (b): the opcode is not in the opcode map. -/
  | reservedOpcode
  /-- (c): an unused IMM8 is not 0. -/
  | unusedImmediate
  /-- (d): the width of RDU or WRU is not in 1 to 32. -/
  | fieldWidth
  /-- (e): the width of RDSM is not in 2 to 32. -/
  | signMagWidth
  /-- (f): a scale-constant index is above 15. -/
  | scaleIndex
  /-- (g): a unit kind is above 1. -/
  | unitKind
  deriving DecidableEq, Repr

/-- The OP field, bits 31:24 (30_encoding R61). -/
def opField (w : Word) : Byte := w.extractLsb' 24 8

/-- The IMM8 field, bits 23:16 (30_encoding R61). -/
def immField (w : Word) : Byte := w.extractLsb' 16 8

/-- The RSV field, bits 15:0 (30_encoding R61). -/
def rsvField (w : Word) : BitVec 16 := w.extractLsb' 0 16

/-- One row of the opcode map (30_encoding R64): the opcode, the admitted IMM8 values, and the
instruction. -/
structure OpRow where
  op : Byte
  /-- Which IMM8 values the row admits. -/
  admits : Byte → Bool
  /-- The clause of R65 that another IMM8 value falls under. -/
  reject : DecodeReject
  build : Byte → Instr

/-- A row whose IMM8 is unused and must be 0. -/
def OpRow.plain (op : Byte) (i : Instr) : OpRow :=
  { op := op, admits := fun imm => imm == 0#8, reject := .unusedImmediate, build := fun _ => i }

/-- The opcode map of 30_encoding R64, in its order. -/
def opRows : List OpRow :=
  [ .plain 0x00#8 .nop,
    { op := 0x10#8, admits := fieldWidthOk, reject := .fieldWidth, build := .rdu },
    { op := 0x11#8, admits := fieldWidthOk, reject := .fieldWidth, build := .wru },
    { op := 0x12#8, admits := signMagWidthOk, reject := .signMagWidth, build := .rdsm },
    .plain 0x13#8 .rdx38,
    { op := 0x14#8, admits := scaleIndexOk, reject := .scaleIndex, build := .scaleu },
    { op := 0x15#8, admits := scaleIndexOk, reject := .scaleIndex, build := .scales },
    { op := 0x16#8, admits := scaleIndexOk, reject := .scaleIndex, build := .scalef },
    .plain 0x20#8 .xor8,
    .plain 0x21#8 .sum2,
    .plain 0x22#8 .crc32,
    .plain 0x23#8 .crc24q,
    .plain 0x24#8 .crc24qb,
    { op := 0x30#8, admits := fun _ => true, reject := .unusedImmediate, build := .push },
    .plain 0x31#8 .pushn,
    .plain 0x32#8 .sreset,
    { op := 0x40#8, admits := fun _ => true, reject := .unusedImmediate, build := .navsf },
    { op := 0x41#8, admits := fun _ => true, reject := .unusedImmediate, build := .navwd },
    { op := 0x42#8, admits := unitKindOk, reject := .unitKind, build := .navpar } ]

/-- Decode a command word: the instruction, or the clause of 30_encoding R65 that makes it illegal. -/
def decode (w : Word) : Except DecodeReject Instr :=
  if rsvField w ≠ 0#16 then .error .reservedBits
  else
    match opRows.find? (fun r => r.op == opField w) with
    | none => .error .reservedOpcode
    | some r =>
      if r.admits (immField w) then .ok (r.build (immField w))
      else .error r.reject

/-- The opcode of an instruction (30_encoding R64). -/
def Instr.opcode : Instr → Byte
  | .nop => 0x00#8
  | .rdu _ => 0x10#8
  | .wru _ => 0x11#8
  | .rdsm _ => 0x12#8
  | .rdx38 => 0x13#8
  | .scaleu _ => 0x14#8
  | .scales _ => 0x15#8
  | .scalef _ => 0x16#8
  | .xor8 => 0x20#8
  | .sum2 => 0x21#8
  | .crc32 => 0x22#8
  | .crc24q => 0x23#8
  | .crc24qb => 0x24#8
  | .push _ => 0x30#8
  | .pushn => 0x31#8
  | .sreset => 0x32#8
  | .navsf _ => 0x40#8
  | .navwd _ => 0x41#8
  | .navpar _ => 0x42#8

/-- The IMM8 field of an instruction: its argument, or 0 where IMM8 is unused (30_encoding R62). -/
def Instr.imm8 : Instr → Byte
  | .nop => 0#8
  | .rdu w => w
  | .wru w => w
  | .rdsm w => w
  | .rdx38 => 0#8
  | .scaleu k => k
  | .scales k => k
  | .scalef k => k
  | .xor8 => 0#8
  | .sum2 => 0#8
  | .crc32 => 0#8
  | .crc24q => 0#8
  | .crc24qb => 0#8
  | .push b => b
  | .pushn => 0#8
  | .sreset => 0#8
  | .navsf e => e
  | .navwd e => e
  | .navpar u => u

/-- The command word {OP, IMM8, 0x0000} of an instruction (30_encoding R61, R69). -/
def encode (i : Instr) : Word := i.opcode ++ i.imm8 ++ 0#16

/-- The instruction the decoder reads from the low `nbits` bits of `w`, every higher bit 0. A command
is one 32-bit word (30_encoding R60), so a longer encoding is no command. -/
def decodeTableWord (nbits w : Nat) : Option Instr :=
  if nbits ≤ 32 then
    match decode (BitVec.ofNat 32 (w % 2 ^ nbits)) with
    | .ok i => some i
    | .error _ => none
  else none

end Sys2Proof
end

