-- ==== Sys2Proof/Machine/Checksums.lean ====
section
/-! DEFINITION. The four checksum functions, each a pure function over a byte or bit sequence
(41_checksum_engine R86, R88, R90, R92). The checksum commands and the synchronizer share them. -/

namespace Sys2Proof.Machine

/-- Xor8 of 41_checksum_engine R86. -/
def xor8 (bytes : List Byte) : Byte := bytes.foldl (fun c d => c ^^^ d) 0#8

/-- Hex of 41_checksum_engine R86: one uppercase hexadecimal digit. -/
def hexDigit (v : BitVec 4) : Byte :=
  if v.toNat < 10 then 0x30#8 + v.setWidth 8 else 0x41#8 + (v.setWidth 8 - 10#8)

/-- One byte of Sum2: a += byte, then b += a, both mod 256 (41_checksum_engine R88). -/
def sum2Byte (ab : Byte × Byte) (d : Byte) : Byte × Byte := (ab.1 + d, ab.2 + (ab.1 + d))

/-- Sum2 of 41_checksum_engine R88, the pair (a, b). -/
def sum2 (bytes : List Byte) : Byte × Byte := bytes.foldl sum2Byte (0#8, 0#8)

/-- One bit step of the reflected CRC-32 (41_checksum_engine R90). -/
def crc32Bit (c : Word) : Word :=
  if c.getLsbD 0 then (c >>> 1) ^^^ 0xEDB88320#32 else c >>> 1

/-- One byte of the reflected CRC-32: eight bit steps (41_checksum_engine R90). -/
def crc32Byte (c : Word) (d : Byte) : Word :=
  crc32Bit (crc32Bit (crc32Bit (crc32Bit (crc32Bit (crc32Bit (crc32Bit (crc32Bit
    (c ^^^ d.setWidth 32))))))))

/-- Crc32 of 41_checksum_engine R90, its preset being also the final XOR. -/
def crc32 (preset : Word) (bytes : List Byte) : Word := bytes.foldl crc32Byte preset ^^^ preset

/-- One bit of CRC-24Q (41_checksum_engine R92). -/
def crc24qBit (c : BitVec 24) (t : Bool) : BitVec 24 :=
  if c.getLsbD 23 ^^ t then (c <<< 1) ^^^ 0x864CFB#24 else c <<< 1

/-- Crc24q of 41_checksum_engine R92 over a bit sequence. -/
def crc24q (bits : List Bool) : BitVec 24 := bits.foldl crc24qBit 0#24

/-- The bits of a byte, most significant first (00_scope R8). -/
def byteBits (d : Byte) : List Bool :=
  [d.getLsbD 7, d.getLsbD 6, d.getLsbD 5, d.getLsbD 4, d.getLsbD 3, d.getLsbD 2, d.getLsbD 1,
   d.getLsbD 0]

/-- The bits of a byte sequence in bitstream order. -/
def bytesBits (bytes : List Byte) : List Bool := bytes.flatMap byteBits

/-- Crc24q of a byte sequence, fed MSB first (41_checksum_engine R92, R93). -/
def crc24qBytes (bytes : List Byte) : BitVec 24 := crc24q (bytesBits bytes)

end Sys2Proof.Machine
end

