-- ==== Sys2Proof/Config.lean ====
section
/-! DEFINITION. What an implementation or a platform fixes (00_scope R6), and the two values the spec
leaves OPEN: the parity predicate of NAVPAR (43_nav_validator R129) and the block's base address
(20_memory R52). -/

namespace Sys2Proof.Config

/-- The two kinds of navigation unit: an 11-byte word and a 30-byte subframe (43_nav_validator R125). -/
inductive UnitKind where
  | word
  | subframe
  deriving DecidableEq, Repr

/-- The two admitted values of CRC32_PRESET (00_scope R6, 41_checksum_engine R90). -/
inductive Crc32Preset where
  /-- 0x00000000, the default. -/
  | zeros
  /-- 0xFFFFFFFF. -/
  | ones
  deriving DecidableEq, Repr

/-- What stands for NAV_PARITY (43_nav_validator R129): the open predicate, or a constant one. -/
inductive ParityParam where
  /-- The predicate is left OPEN: `navParity` below, about which nothing can be proved. -/
  | openPredicate
  /-- The predicate is this constant. The rule admits the constant true for a model that must run. -/
  | const (b : Bool)
  deriving DecidableEq, Repr

/-- NAV_PARITY(u, U), a total function from the unit kind and the unit's bytes (43_nav_validator R129).
It has no body: the spec leaves it OPEN. DESIGN CHOICE (log 4), safe: a claim holds whatever it is. -/
opaque navParity : UnitKind → List Byte → Bool

/-- What stands for BLOCK_BASE (20_memory R52): the open address, or one a platform has chosen. -/
inductive BaseParam where
  /-- The address is left OPEN: `blockBase` below, about which nothing can be proved. -/
  | openBase
  /-- The platform has placed the block at this address. -/
  | placed (address : Nat)
  deriving DecidableEq, Repr

/-- BLOCK_BASE, the address a platform gives the block (20_memory R52). It has no body: the spec leaves
it OPEN. DESIGN CHOICE (log 15), safe: a claim holds whatever it is. -/
opaque blockBase : Nat

/-- The implementation parameters of 00_scope R6 and 20_memory R52, as plain data. -/
structure Impl where
  /-- CBUF_CAP, the codec buffer's capacity in bytes. -/
  cbufCap : Nat
  /-- FBUF_CAP, the frame buffer's capacity in bytes. -/
  fbufCap : Nat
  /-- CRC32_PRESET, the CRC-32 initial register value and final XOR value. -/
  crc32Preset : Crc32Preset
  /-- NAV_PARITY. -/
  navParity : ParityParam
  /-- BLOCK_BASE, the platform's parameter. -/
  base : BaseParam
  deriving DecidableEq, Repr

/-- The default parameters (00_scope R6, 20_memory R52, decisions D2, D4, D5, D16, D30). -/
def defaultImpl : Impl :=
  { cbufCap := 65536, fbufCap := 65794, crc32Preset := .zeros, navParity := .openPredicate,
    base := .openBase }

end Sys2Proof.Config
end

