-- ==== Sys2Proof/Machine/State.lean ====
section
/-! DEFINITION. The state of the block as plain data: every register, table, memory and internal
element of 10_state R13, the implementation parameters it is built with, and the two sides of the
host port. -/

namespace Sys2Proof.Machine

open Sys2Proof.Config

/-- The outcome codes of STATUS.LAST_ERR (60_exceptions R135). Codes 7 to 15 are never written
(10_state R25), so they have no constructor (log 18). -/
inductive ErrCode where
  /-- 0: no fault. -/
  | none
  /-- 1: OutOfRange. -/
  | outOfRange
  /-- 2: TruncatedInput. -/
  | truncatedInput
  /-- 3: StructureMismatch. -/
  | structureMismatch
  /-- 4: IllegalCommand. -/
  | illegalCommand
  /-- 5: ConfigError. -/
  | configError
  /-- 6: BadAccess. -/
  | badAccess
  deriving DecidableEq, Repr

/-- The binary grammars (42_frame_synchronizer R95, R96). -/
inductive BinGrammar where
  /-- Length-prefixed binary, number 1. -/
  | lenpfx
  /-- Bit-packed binary, number 2. -/
  | bitpack
  /-- Header+CRC32 binary, number 3. -/
  | hdr32
  deriving DecidableEq, Repr

/-- The four grammars of the synchronizer (00_scope R3, 42_frame_synchronizer R95). -/
inductive Grammar where
  /-- ASCII sentence, number 0. -/
  | ascii
  | binary (g : BinGrammar)
  deriving DecidableEq, Repr

/-- The source's ParserState (00_scope R12, 10_state R27, 42_frame_synchronizer R102). -/
inductive ParserState where
  | idle
  | seekingSync
  | accumulatingLength
  | accumulatingBody
  | awaitingChecksum
  deriving DecidableEq, Repr

/-- A message identifier, reported exactly as received (42_frame_synchronizer R98). -/
inductive MsgId where
  /-- ASCII(talker, formatter). -/
  | ascii (talker formatter : List Byte)
  /-- PAIR(class, subclass). -/
  | pair (cls subcls : Byte)
  /-- TYPE(n), an unsigned number of at most 32 bits. -/
  | typeCode (n : Word)
  /-- NONE. -/
  | none
  deriving DecidableEq, Repr

/-- The kinds of a DISCARD event (42_frame_synchronizer R99). -/
inductive DiscardKind where
  | framingError
  | checksumMismatch
  deriving DecidableEq, Repr

/-- A FRAME event record (42_frame_synchronizer R97). -/
structure Frame where
  /-- The grammar that produced it. -/
  proto : Grammar
  id : MsgId
  /-- The payload's byte offset within `bytes`. -/
  poff : Nat
  /-- The payload's byte length. -/
  plen : Nat
  /-- The source's is_valid. -/
  valid : Bool
  /-- A copy of the whole frame. -/
  bytes : List Byte
  deriving DecidableEq, Repr

/-- A record of the event output stream (42_frame_synchronizer R97, R99). -/
inductive Event where
  | frame (f : Frame)
  | discard (kind : DiscardKind) (count : Word)
  deriving DecidableEq, Repr

/-- The synchronizer's internal state (10_state R39). -/
structure Sync where
  sstate : ParserState
  /-- The candidate frame. -/
  fbuf : List Byte
  /-- ASCII only: the index in FBUF of the `*` byte. -/
  star : Option Nat
  /-- Binary grammars only: the payload length decoded from the header. -/
  plen : Option Nat
  /-- The garbage counter. -/
  garb : Word
  deriving DecidableEq, Repr

/-- A byte memory as its listed cells. Canonical form: addresses strictly rising, no cell equal to
what an unlisted address reads as (see `Memory.wf`). -/
structure Memory where
  cells : List Host.Cell
  deriving DecidableEq, Repr

/-- One access of the host to the register port, at a byte offset from the block's base (10_state
R14, R35). The width is in bits. An 8-bit write moves the low 8 bits of its data. -/
inductive PortAccess where
  | read (bits : Nat) (offset : Nat)
  | write (bits : Nat) (offset : Nat) (data : Word)
  deriving DecidableEq, Repr

/-- One input of the block from outside. -/
inductive HostInput where
  /-- One access of the one host that drives the port, at an offset from the block's base. -/
  | access (a : PortAccess)
  /-- One access of that host at an address of the platform, a write if it has data: it reaches the
  block where the block's window holds the address (20_memory R52, log 15). -/
  | addressed (bits : Nat) (address : Nat) (data : Option Word)
  /-- The platform asserts the reset input (70_reset_and_hazards R150). -/
  | blockReset
  /-- Two agents present accesses at once: outside the spec (20_memory R55). -/
  | twoAgents (a b : PortAccess)
  deriving DecidableEq, Repr

/-- The reason a step stops with a fault of the MODEL. A fault of the BLOCK (60_exceptions R136) is no
such stop: it is a next state. -/
inductive Fault where
  /-- Raised by PUSH and PUSHN if the synchronizer's work loop passed the bound on its steps. The spec
  says that Feed always terminates (42_frame_synchronizer R108), so no state raises it (log 11). Safe:
  the model would stop where the block goes on. -/
  | feedBoundExceeded
  deriving DecidableEq, Repr

/-- The reason a step has no meaning. -/
inductive Refusal where
  /-- Raised by `exec` for an instruction without a meaning. No arm raises it. Safe. -/
  | notModelled (mnemonic : String)
  /-- Raised by the step when two agents drive the port at once: "the model has no rule for it and
  refuses such a configuration" (20_memory R55). Safe. -/
  | concurrentAccess
  deriving DecidableEq, Repr

/-- The state of one block. The config registers hold their whole 32-bit word. -/
structure State where
  /-- The implementation parameters (00_scope R6): the model's own field, which no step changes. -/
  impl : Impl
  /-- STATUS.LAST_ERR (10_state R25). -/
  lastErr : ErrCode
  /-- STATUS.ERR_STICKY (10_state R26). -/
  errSticky : Bool
  /-- 10_state R16. -/
  arg0 : Word
  /-- 10_state R16. -/
  arg1 : Word
  /-- 10_state R17. -/
  val : DWord
  /-- 10_state R18. -/
  bitpos : Word
  /-- 10_state R19. -/
  clen : Word
  /-- 10_state R20. -/
  res : DWord
  /-- 10_state R21. -/
  fres : DWord
  /-- 10_state R22. -/
  ckres : Word
  /-- 10_state R23. -/
  ckhex : Word
  /-- 10_state R28. -/
  navid : Word
  /-- 10_state R31. -/
  scfg : Word
  /-- 10_state R31. -/
  lpSync : Word
  /-- 10_state R31. -/
  lpLim : Word
  /-- 10_state R31. -/
  bpCfg : Word
  /-- 10_state R31. -/
  bpLim : Word
  /-- 10_state R31. -/
  h32Sync : Word
  /-- 10_state R31. -/
  h32Cfg : Word
  /-- 10_state R31. -/
  h32Lim : Word
  /-- 10_state R31. -/
  asciiCfg : Word
  /-- 10_state R31. -/
  lookahead : Word
  /-- 10_state R32. -/
  navCfg0 : Word
  /-- 10_state R32. -/
  navCfg1 : Word
  /-- 10_state R32. -/
  navSfset : Word
  /-- 10_state R32. -/
  navWdset : Word
  /-- The scale constants (10_state R33). -/
  ktab : Vector DWord 16
  /-- The codec buffer (10_state R34). -/
  cbuf : Memory
  /-- The synchronizer's internal state (10_state R39). -/
  sync : Sync
  /-- The event output stream, oldest record first (10_state R41). -/
  evout : List Event
  /-- The model's own field: the inputs still to come, oldest first (log 1). -/
  pending : List HostInput
  /-- The model's own field: the values the port returned to the host's reads, oldest first (log 2). -/
  readLog : List Word
  deriving DecidableEq, Repr

/-- The synchronizer's state after a reset (70_reset_and_hazards R150, 42_frame_synchronizer R107). -/
def syncResetState : Sync :=
  { sstate := .idle, fbuf := [], star := none, plen := none, garb := 0#32 }

/-- The state right after block reset (70_reset_and_hazards R150), with the default parameters. -/
def State.reset : State :=
  { impl := defaultImpl
    lastErr := .none
    errSticky := false
    arg0 := 0#32
    arg1 := 0#32
    val := 0#64
    bitpos := 0#32
    clen := 0#32
    res := 0#64
    fres := 0#64
    ckres := 0#32
    ckhex := 0x00003030#32
    navid := 0#32
    scfg := 0x00000000#32
    lpSync := 0x000062B5#32
    lpLim := 0xFFFF0003#32
    bpCfg := 0x000C00D3#32
    bpLim := 0x03FF0000#32
    h32Sync := 0x001244AA#32
    h32Cfg := 0x04081C03#32
    h32Lim := 0xFFFF0000#32
    asciiCfg := 0x00000400#32
    lookahead := 0x00000400#32
    navCfg0 := 0x00032B8B#32
    navCfg1 := 0x00000401#32
    navSfset := 0x0000003E#32
    navWdset := 0x0000FFFE#32
    ktab := #v[0x3F40000000000000#64, 0x3EB0000000000000#64, 0x3F1A36E2EB1C432D#64, 0#64,
               0#64, 0#64, 0#64, 0#64, 0#64, 0#64, 0#64, 0#64, 0#64, 0#64, 0#64, 0#64]
    cbuf := { cells := [] }
    sync := syncResetState
    evout := []
    pending := []
    readLog := [] }

end Sys2Proof.Machine
end

