-- ==== Sys2Proof/Machine/Ops.lean ====
section
/-! DEFINITION. The named operations over the state: taking a fault and completing a command
(60_exceptions R136, 10_state R25), the byte memory, and MSB-first bit fields (00_scope R8). -/

namespace Sys2Proof.Machine

open Sys2Proof.Config

/-- What one step or one command answers. -/
abbrev Result := Host.Outcome State Fault Refusal

/-! ## Faults -/

/-- Taking a fault, the one shared operation (60_exceptions R136): LAST_ERR holds the code, ERR_STICKY
is set, everything else is as before the access. A fault transfers no control and saves nothing
(60_exceptions R140), and there is no return from one (R141). -/
def raiseFault (code : ErrCode) (s : State) : State :=
  { s with lastErr := code, errSticky := true }

/-- A command ends in a fault of the block. -/
def raise (code : ErrCode) (s : State) : Result := .next (raiseFault code s)

/-- A command succeeds: LAST_ERR becomes 0 and ERR_STICKY stays (10_state R25, R26). -/
def complete (s : State) : Result := .next { s with lastErr := .none }

/-! ## The byte memory -/

/-- What a byte that nothing has written reads as: the reset value 0x00 (10_state R34). -/
def blankByte : Byte := 0#8

/-- The byte at an address in a list of cells. -/
def readCells : List Host.Cell → Nat → Byte
  | [], _ => blankByte
  | c :: cs, a => if c.1 = a then c.2 else readCells cs a

/-- Put a byte at an address in a list of cells, keeping the canonical form. -/
def writeCells : List Host.Cell → Nat → Byte → List Host.Cell
  | [], a, v => if v = blankByte then [] else [(a, v)]
  | c :: cs, a, v =>
    if a < c.1 then (if v = blankByte then c :: cs else (a, v) :: c :: cs)
    else if a = c.1 then (if v = blankByte then cs else (a, v) :: cs)
    else c :: writeCells cs a v

/-- The canonical form of a list of cells, all addresses being at least `lo`. -/
def cellsWf : Nat → List Host.Cell → Bool
  | _, [] => true
  | lo, c :: cs => decide (lo ≤ c.1) && !(c.2 == blankByte) && cellsWf (c.1 + 1) cs

/-- The byte at an address. -/
def Memory.read (m : Memory) (a : Nat) : Byte := readCells m.cells a

/-- The memory with one byte written. -/
def Memory.write (m : Memory) (a : Nat) (v : Byte) : Memory := { cells := writeCells m.cells a v }

/-- The canonical form: addresses strictly rising, no cell equal to what an unlisted one reads as. -/
def Memory.wf (m : Memory) : Bool := cellsWf 0 m.cells

/-- Every listed address is below `cap`. -/
def Memory.below (m : Memory) (cap : Nat) : Bool := m.cells.all (fun c => decide (c.1 < cap))

/-- The bytes at `start` to `start + n - 1`. -/
def Memory.readRange (m : Memory) (start : Nat) : Nat → List Byte
  | 0 => []
  | n + 1 => m.read start :: m.readRange (start + 1) n

/-! ## MSB-first bit fields -/

/-- The bit at bit offset `p` of a bitstream of bytes (00_scope R8): bit 7 - (p mod 8) of byte p div 8. -/
def streamBit (byteAt : Nat → Byte) (p : Nat) : Bool := (byteAt (p / 8)).getLsbD (7 - p % 8)

/-- Bits(B, p, w) of 00_scope R8: the field of `w` bits at bit offset `p`, most significant bit first. -/
def streamBits (byteAt : Nat → Byte) (p : Nat) : Nat → Nat
  | 0 => 0
  | w + 1 => 2 * streamBits byteAt p w + (streamBit byteAt (p + w)).toNat

/-- A byte with one of its bits set to a value. -/
def setByteBit (b : Byte) (k : Nat) (v : Bool) : Byte :=
  if v then b ||| (1#8 <<< k) else b &&& ~~~(1#8 <<< k)

/-- The memory with the bit at bit offset `p` set to a value, its byte's other bits kept. -/
def Memory.writeBit (m : Memory) (p : Nat) (v : Bool) : Memory :=
  m.write (p / 8) (setByteBit (m.read (p / 8)) (7 - p % 8) v)

/-- The memory with the low `w` bits of `v` written at bit offset `p`, most significant bit first. -/
def Memory.writeBits (m : Memory) (p : Nat) : Nat → Nat → Memory
  | 0, _ => m
  | w + 1, v => (m.writeBits p w (v / 2)).writeBit (p + w) (v % 2 == 1)

/-! ## CBUF -/

/-- CbufRead(i) of 00_scope R9. -/
def cbufRead (s : State) (i : Nat) : Byte := s.cbuf.read i

/-- CbufBits(p, w) of 00_scope R9. -/
def cbufBits (s : State) (p w : Nat) : Nat := streamBits s.cbuf.read p w

/-- CBUF[start .. start + n). -/
def cbufBytes (s : State) (start n : Nat) : List Byte := s.cbuf.readRange start n

/-- The bits at bit offsets p to p + m - 1 of CBUF, in bitstream order (41_checksum_engine R94). -/
def cbufBitList (s : State) (p : Nat) : Nat → List Bool
  | 0 => []
  | m + 1 => streamBit s.cbuf.read p :: cbufBitList s (p + 1) m

/-- The size of the view of CBUF in bits, 8 * CLEN, exact (10_state R18, R19). -/
def viewBits (s : State) : Nat := 8 * s.clen.toNat

/-- The bits of the cursor's field of `n` bits lie inside the view (40_bitfield_codec R71). -/
def cursorFits (s : State) (n : Nat) : Bool := decide (s.bitpos.toNat + n ≤ viewBits s)

/-- The bytes ARG0 .. ARG0 + ARG1 - 1 lie inside the view, exactly (41_checksum_engine R85). -/
def byteRangeFits (s : State) : Bool := decide (s.arg0.toNat + s.arg1.toNat ≤ s.clen.toNat)

/-- The bits ARG0 .. ARG0 + ARG1 - 1 lie inside the view, exactly (41_checksum_engine R85). -/
def bitRangeFits (s : State) : Bool := decide (s.arg0.toNat + s.arg1.toNat ≤ viewBits s)

/-- The bytes ARG0 .. ARG0 + ARG1 - 1 of CBUF. -/
def argBytes (s : State) : List Byte := cbufBytes s s.arg0.toNat s.arg1.toNat

/-- The cursor advanced by `n` bits (40_bitfield_codec R72). -/
def advanceCursor (s : State) (n : Nat) : State := { s with bitpos := s.bitpos + BitVec.ofNat 32 n }

/-! ## The synchronizer reset -/

/-- SyncReset() of 42_frame_synchronizer R107: it emits nothing and changes nothing else. -/
def syncReset (s : State) : State := { s with sync := syncResetState }

end Sys2Proof.Machine
end

