-- ==== Sys2Proof/Machine/Operands.lean ====
section
/-! DEFINITION. The operands a command takes from the configuration registers: every named field of
10_state R31 and R32, the grammar constants of 42_frame_synchronizer R96, and the legality checks of
42_frame_synchronizer R101 and 43_nav_validator R126. -/

namespace Sys2Proof.Machine

open Sys2Proof.Config

/-! ## Synchronizer configuration fields (10_state R31) -/

/-- SCFG.GRAMMAR, bits 1:0. -/
def grammar (s : State) : Grammar :=
  match (s.scfg.extractLsb' 0 2).toNat with
  | 0 => .ascii
  | 1 => .binary .lenpfx
  | 2 => .binary .bitpack
  | _ => .binary .hdr32

/-- SCFG.H32_TRL_BE, bit 8. -/
def h32TrailerBigEndian (s : State) : Bool := s.scfg.getLsbD 8

/-- LP_SYNC.LP_S0, bits 7:0. -/
def lpS0 (s : State) : Byte := s.lpSync.extractLsb' 0 8

/-- LP_SYNC.LP_S1, bits 15:8. -/
def lpS1 (s : State) : Byte := s.lpSync.extractLsb' 8 8

/-- LP_LIM.LP_MIN, bits 15:0. -/
def lpMin (s : State) : Nat := (s.lpLim.extractLsb' 0 16).toNat

/-- LP_LIM.LP_MAX, bits 31:16. -/
def lpMax (s : State) : Nat := (s.lpLim.extractLsb' 16 16).toNat

/-- BP_CFG.BP_PRE, bits 7:0. -/
def bpPre (s : State) : Byte := s.bpCfg.extractLsb' 0 8

/-- BP_CFG.BP_RSVD_CHK, bit 8. -/
def bpRsvdChk (s : State) : Bool := s.bpCfg.getLsbD 8

/-- BP_CFG.BP_TYPE_BITS, bits 21:16. -/
def bpTypeBits (s : State) : Nat := (s.bpCfg.extractLsb' 16 6).toNat

/-- BP_LIM.BP_MIN, bits 9:0. -/
def bpMin (s : State) : Nat := (s.bpLim.extractLsb' 0 10).toNat

/-- BP_LIM.BP_MAX, bits 25:16. -/
def bpMax (s : State) : Nat := (s.bpLim.extractLsb' 16 10).toNat

/-- H32_SYNC.H32_S0 to H32_S3, in stream order. -/
def h32SyncBytes (s : State) : List Byte :=
  [s.h32Sync.extractLsb' 0 8, s.h32Sync.extractLsb' 8 8, s.h32Sync.extractLsb' 16 8,
   s.h32Sync.extractLsb' 24 8]

/-- H32_CFG.H32_SYNC_LEN, bits 2:0. -/
def h32SyncLen (s : State) : Nat := (s.h32Cfg.extractLsb' 0 3).toNat

/-- H32_CFG.H32_HDR_LEN, bits 15:8. -/
def h32HdrLen (s : State) : Nat := (s.h32Cfg.extractLsb' 8 8).toNat

/-- H32_CFG.H32_LEN_OFF, bits 23:16. -/
def h32LenOff (s : State) : Nat := (s.h32Cfg.extractLsb' 16 8).toNat

/-- H32_CFG.H32_ID_OFF, bits 31:24. -/
def h32IdOff (s : State) : Nat := (s.h32Cfg.extractLsb' 24 8).toNat

/-- H32_LIM.H32_MIN, bits 15:0. -/
def h32Min (s : State) : Nat := (s.h32Lim.extractLsb' 0 16).toNat

/-- H32_LIM.H32_MAX, bits 31:16. -/
def h32Max (s : State) : Nat := (s.h32Lim.extractLsb' 16 16).toNat

/-- ASCII_CFG.ASCII_MAX_LEN, bits 15:0. -/
def asciiMaxLen (s : State) : Nat := (s.asciiCfg.extractLsb' 0 16).toNat

/-! ## Grammar constants (42_frame_synchronizer R96) -/

/-- The sync sequence S, in stream order. -/
def syncSeq (s : State) : BinGrammar → List Byte
  | .lenpfx => [lpS0 s, lpS1 s]
  | .bitpack => [bpPre s]
  | .hdr32 => (h32SyncBytes s).take (h32SyncLen s)

/-- The header length H, sync included. -/
def headerLen (s : State) : BinGrammar → Nat
  | .lenpfx => 6
  | .bitpack => 3
  | .hdr32 => h32HdrLen s

/-- The trailer length T. -/
def trailerLen : BinGrammar → Nat
  | .lenpfx => 2
  | .bitpack => 3
  | .hdr32 => 4

/-- The minimum payload length MIN (42_frame_synchronizer R117 to R119). -/
def payloadMin (s : State) : BinGrammar → Nat
  | .lenpfx => lpMin s
  | .bitpack => bpMin s
  | .hdr32 => h32Min s

/-- The maximum payload length MAX (42_frame_synchronizer R117 to R119). -/
def payloadMax (s : State) : BinGrammar → Nat
  | .lenpfx => lpMax s
  | .bitpack => bpMax s
  | .hdr32 => h32Max s

/-- ConfigLegal() for a binary grammar (42_frame_synchronizer R101). -/
def binConfigLegal (s : State) : BinGrammar → Bool
  | .lenpfx => decide (lpMin s ≤ lpMax s)
  | .bitpack => decide (bpMin s ≤ bpMax s) && decide (bpTypeBits s ≤ 32)
  | .hdr32 =>
    decide (1 ≤ h32SyncLen s) && decide (h32SyncLen s ≤ 4) && decide (h32SyncLen s ≤ h32HdrLen s) &&
    decide (h32LenOff s + 2 ≤ h32HdrLen s) && decide (h32IdOff s + 2 ≤ h32HdrLen s) &&
    decide (h32Min s ≤ h32Max s)

/-- ConfigLegal() of 42_frame_synchronizer R101: only the selected grammar's fields are checked. -/
def configLegal (s : State) : Bool :=
  match grammar s with
  | .ascii => decide (1 ≤ asciiMaxLen s)
  | .binary g => binConfigLegal s g

/-! ## Navigation configuration fields (10_state R32) -/

/-- NAV_CFG0.NAV_PRE, bits 7:0. -/
def navPre (s : State) : Byte := s.navCfg0.extractLsb' 0 8

/-- NAV_CFG0.SF_ID_OFF, bits 15:8. -/
def sfIdOff (s : State) : Nat := (s.navCfg0.extractLsb' 8 8).toNat

/-- NAV_CFG0.SF_ID_W, bits 18:16. -/
def sfIdW (s : State) : Nat := (s.navCfg0.extractLsb' 16 3).toNat

/-- NAV_CFG1.WD_ID_OFF, bits 7:0. -/
def wdIdOff (s : State) : Nat := (s.navCfg1.extractLsb' 0 8).toNat

/-- NAV_CFG1.WD_ID_W, bits 10:8. -/
def wdIdW (s : State) : Nat := (s.navCfg1.extractLsb' 8 3).toNat

/-- NavSfLegal() of 43_nav_validator R126. -/
def navSfLegal (s : State) : Bool :=
  decide (1 ≤ sfIdW s) && decide (sfIdW s ≤ 5) && decide (sfIdOff s + sfIdW s ≤ 240)

/-- NavWdLegal() of 43_nav_validator R126. -/
def navWdLegal (s : State) : Bool :=
  decide (1 ≤ wdIdW s) && decide (wdIdW s ≤ 5) && decide (wdIdOff s + wdIdW s ≤ 88)

/-- The length of a unit in bytes (43_nav_validator R125). -/
def unitLen : UnitKind → Nat
  | .word => 11
  | .subframe => 30

/-- The unit kind of NAVPAR's immediate: 1 is a subframe, 0 a word (43_nav_validator R130). -/
def unitKindOf (u : Byte) : UnitKind := if u = 1#8 then .subframe else .word

/-- A unit of `n` bytes at ARG0 fits in the view (43_nav_validator R125). -/
def unitFits (s : State) (n : Nat) : Bool := decide (s.arg0.toNat + n ≤ s.clen.toNat)

/-- The subframe id of the unit at ARG0 (43_nav_validator R127). -/
def subframeId (s : State) : Nat := cbufBits s (8 * s.arg0.toNat + sfIdOff s) (sfIdW s)

/-- The word id of the unit at ARG0 (43_nav_validator R128). -/
def wordId (s : State) : Nat := cbufBits s (8 * s.arg0.toNat + wdIdOff s) (wdIdW s)

/-- The id is in the valid-id set and is the expected one, 0 expecting any (43_nav_validator R127, R128). -/
def idAccepted (validSet : Word) (id : Nat) (e : Byte) : Bool :=
  validSet.getLsbD id && (e == 0#8 || id == e.toNat)

/-- NAV_PARITY of 43_nav_validator R129, as the implementation's parameter gives it. -/
def navParityHolds (s : State) (u : UnitKind) (bytes : List Byte) : Bool :=
  match s.impl.navParity with
  | .openPredicate => navParity u bytes
  | .const b => b

/-! ## The base address (20_memory R52) -/

/-- BLOCK_BASE, as the platform's parameter gives it. -/
def baseAddress (s : State) : Nat :=
  match s.impl.base with
  | .openBase => blockBase
  | .placed a => a

/-! ## The scale constants and the CRC-32 preset -/

/-- K[k], the scale constant of a 4-bit index (10_state R33). -/
def scaleConst (s : State) (k : Byte) : DWord := s.ktab.toList.getD k.toNat 0#64

/-- CRC32_PRESET as a register value (41_checksum_engine R90). -/
def presetWord : Crc32Preset → Word
  | .zeros => 0x00000000#32
  | .ones => 0xFFFFFFFF#32

/-- CRC32_PRESET of the implementation (00_scope R6). -/
def crc32Preset (s : State) : Word := presetWord s.impl.crc32Preset

end Sys2Proof.Machine
end

