-- ==== Sys2Proof/Machine/Checksum.lean ====
section
/-! DEFINITION. The checksum commands (41_checksum_engine R85 to R94). Each checks its range exactly,
then writes CKRES, the unused high bits 0 (10_state R22). -/

namespace Sys2Proof.Machine

/-- A checksum command over the bytes ARG0 .. ARG0 + ARG1 - 1: OutOfRange, or the new CKRES (R85). -/
def overArgBytes (f : List Byte → Word) (s : State) : Result :=
  if !byteRangeFits s then raise .outOfRange s
  else complete { s with ckres := f (argBytes s) }

/-- CKHEX of an XOR checksum: the high-nibble digit in bits 7:0, the low-nibble digit in bits 15:8
(R87, 10_state R23). -/
def hexPair (c : Byte) : Word :=
  0#16 ++ hexDigit (c.extractLsb' 0 4) ++ hexDigit (c.extractLsb' 4 4)

/-- XOR8 (R87). -/
def execXor8 (s : State) : Result :=
  if !byteRangeFits s then raise .outOfRange s
  else complete { s with ckres := (xor8 (argBytes s)).setWidth 32, ckhex := hexPair (xor8 (argBytes s)) }

/-- CKRES of a running-sum pair: {0x0000, b, a} (R89). -/
def sum2Word (bytes : List Byte) : Word := 0#16 ++ (sum2 bytes).2 ++ (sum2 bytes).1

/-- SUM2 (R89). -/
def execSum2 (s : State) : Result := overArgBytes sum2Word s

/-- CRC32 (R91). -/
def execCrc32 (s : State) : Result := overArgBytes (crc32 (crc32Preset s)) s

/-- CRC24Q (R93). -/
def execCrc24q (s : State) : Result := overArgBytes (fun bs => (crc24qBytes bs).setWidth 32) s

/-- CRC24QB, over the bits ARG0 .. ARG0 + ARG1 - 1 (R94). -/
def execCrc24qb (s : State) : Result :=
  if !bitRangeFits s then raise .outOfRange s
  else complete
    { s with ckres := (crc24q (cbufBitList s s.arg0.toNat s.arg1.toNat)).setWidth 32 }

end Sys2Proof.Machine
end

