-- ==== Sys2Proof/Machine/Binary64.lean ====
section
/-! DEFINITION. IEEE 754 binary64 arithmetic: the conversion `f64` of an integer and the product
`mulf`, round to nearest with ties to even, every NaN result canonical (40_bitfield_codec R81). Values
are computed exactly over the integers and rounded once. -/

namespace Sys2Proof.Machine

/-- The canonical quiet NaN (40_bitfield_codec R81). -/
def canonicalNaN : DWord := 0x7FF8000000000000#64

/-- A binary64 encoding from its sign and its 63 low bits. -/
def packSign (neg : Bool) (mag : Nat) : DWord := BitVec.ofBool neg ++ BitVec.ofNat 63 mag

/-- The encoding of an infinity without its sign: the exponent field all ones. -/
def infMag : Nat := 0x7FF0000000000000

/-- The quotient m / 2^d rounded to nearest, ties to even. -/
def roundShift (m d : Nat) : Nat :=
  let q := m / 2 ^ d
  let r := m % 2 ^ d
  if 2 * r < 2 ^ d then q
  else if 2 ^ d < 2 * r then q + 1
  else q + q % 2

/-- The exponent of the last kept bit of the value m * 2^e, relative to 2^-1074: 53 significant bits,
or fewer at the bottom of the range, where results are subnormal and never flushed. -/
def quantum (m : Nat) (e : Int) : Nat := (e + Nat.log2 m - 52 + 1074).toNat

/-- The value m * 2^e rounded to a whole number of units of its last kept bit. -/
def roundToQuantum (m : Nat) (e : Int) : Nat :=
  let d : Int := (quantum m e : Int) - (e + 1074)
  if 0 ≤ d then roundShift m d.toNat else m * 2 ^ (-d).toNat

/-- The encoding, sign apart, of m * 2^e rounded to nearest, ties to even. A significand that rounds
up to the next power of two carries into the exponent field. Overflow gives infinity. -/
def roundMag (m : Nat) (e : Int) : Nat :=
  if m = 0 then 0 else min infMag (quantum m e * 2 ^ 52 + roundToQuantum m e)

/-- bits64(f64(n)) of 00_scope R9 and 40_bitfield_codec R81. The integer 0 gives +0.0. -/
def f64 (n : Int) : DWord := packSign (decide (n < 0)) (roundMag n.natAbs 0)

/-- The sign bit. -/
def f64Sign (x : DWord) : Bool := x.getLsbD 63

/-- The exponent field. -/
def f64Exp (x : DWord) : Nat := (x.extractLsb' 52 11).toNat

/-- The fraction field. -/
def f64Frac (x : DWord) : Nat := (x.extractLsb' 0 52).toNat

/-- A NaN. -/
def f64IsNaN (x : DWord) : Bool := f64Exp x == 2047 && f64Frac x != 0

/-- An infinity. -/
def f64IsInf (x : DWord) : Bool := f64Exp x == 2047 && f64Frac x == 0

/-- A zero. -/
def f64IsZero (x : DWord) : Bool := f64Exp x == 0 && f64Frac x == 0

/-- The significand of a finite value, as an integer. -/
def f64Signif (x : DWord) : Nat := if f64Exp x = 0 then f64Frac x else 2 ^ 52 + f64Frac x

/-- The exponent of the significand's last bit: the value is its significand times 2 to this power. -/
def f64Scale (x : DWord) : Int := if f64Exp x = 0 then -1074 else (f64Exp x : Int) - 1075

/-- mulf(a, b), the IEEE 754 product (40_bitfield_codec R81). -/
def mulf (a b : DWord) : DWord :=
  let neg := f64Sign a ^^ f64Sign b
  if f64IsNaN a || f64IsNaN b then canonicalNaN
  else if (f64IsInf a && f64IsZero b) || (f64IsZero a && f64IsInf b) then canonicalNaN
  else if f64IsInf a || f64IsInf b then packSign neg infMag
  else packSign neg (roundMag (f64Signif a * f64Signif b) (f64Scale a + f64Scale b))

end Sys2Proof.Machine
end

