-- ==== Sys2Proof/Machine/Codec.lean ====
section
/-! DEFINITION. The bit-field codec commands (40_bitfield_codec R70 to R81). Each first checks the
legality of its immediate (30_encoding R65), then its range (60_exceptions R138). -/

namespace Sys2Proof.Machine

/-- The field of `w` bits at the cursor, as a number. -/
def cursorField (s : State) (w : Nat) : Nat := cbufBits s s.bitpos.toNat w

/-- RDU w (R73). -/
def execRdu (w : Byte) (s : State) : Result :=
  if !fieldWidthOk w then raise .illegalCommand s
  else if !cursorFits s w.toNat then raise .outOfRange s
  else complete (advanceCursor { s with res := BitVec.ofNat 64 (cursorField s w.toNat) } w.toNat)

/-- WRU w: the low w bits of VAL, high bits silently dropped (R74). -/
def execWru (w : Byte) (s : State) : Result :=
  if !fieldWidthOk w then raise .illegalCommand s
  else if !cursorFits s w.toNat then raise .outOfRange s
  else complete (advanceCursor
    { s with cbuf := s.cbuf.writeBits s.bitpos.toNat w.toNat (s.val.toNat % 2 ^ w.toNat) } w.toNat)

/-- The binary64 value of a raw sign-magnitude field of `w` bits: the first bit is the sign bit of
the encoding, the others the magnitude (R75). -/
def signMagValue (raw w : Nat) : DWord :=
  packSign (raw.testBit (w - 1)) ((f64 (raw % 2 ^ (w - 1) : Nat)).extractLsb' 0 63).toNat

/-- RDSM w (R75). -/
def execRdsm (w : Byte) (s : State) : Result :=
  if !signMagWidthOk w then raise .illegalCommand s
  else if !cursorFits s w.toNat then raise .outOfRange s
  else complete (advanceCursor
    { s with res := BitVec.ofNat 64 (cursorField s w.toNat)
             fres := signMagValue (cursorField s w.toNat) w.toNat } w.toNat)

/-- A raw 38-bit two's-complement field sign-extended to 64 bits (R76). -/
def extended38 (raw : Nat) : DWord := (BitVec.ofNat 38 raw).signExtend 64

/-- RDX38 (R76). -/
def execRdx38 (s : State) : Result :=
  if !cursorFits s 38 then raise .outOfRange s
  else complete (advanceCursor
    { s with res := extended38 (cursorField s 38)
             fres := f64 (extended38 (cursorField s 38)).toInt } 38)

/-- SCALEU k: RES read as unsigned (R78). -/
def execScaleu (k : Byte) (s : State) : Result :=
  if !scaleIndexOk k then raise .illegalCommand s
  else complete { s with fres := mulf (f64 (s.res.toNat : Int)) (scaleConst s k) }

/-- SCALES k: RES read as two's complement (R79). -/
def execScales (k : Byte) (s : State) : Result :=
  if !scaleIndexOk k then raise .illegalCommand s
  else complete { s with fres := mulf (f64 s.res.toInt) (scaleConst s k) }

/-- SCALEF k: FRES read as binary64 (R80). -/
def execScalef (k : Byte) (s : State) : Result :=
  if !scaleIndexOk k then raise .illegalCommand s
  else complete { s with fres := mulf s.fres (scaleConst s k) }

end Sys2Proof.Machine
end

