-- ==== Sys2Proof/Machine/Navigation.lean ====
section
/-! DEFINITION. The navigation validator commands and NOP (43_nav_validator R125 to R131). -/

namespace Sys2Proof.Machine

/-- NAVSF e (R127): configuration, range, preamble, id set, expected id, in that order. -/
def execNavsf (e : Byte) (s : State) : Result :=
  if !navSfLegal s then raise .configError s
  else if !unitFits s (unitLen .subframe) then raise .truncatedInput s
  else if cbufRead s s.arg0.toNat ≠ navPre s then raise .structureMismatch s
  else if !idAccepted s.navSfset (subframeId s) e then raise .structureMismatch s
  else complete { s with navid := BitVec.ofNat 32 (subframeId s) }

/-- NAVWD e (R128): configuration, range, id set, expected id, in that order. -/
def execNavwd (e : Byte) (s : State) : Result :=
  if !navWdLegal s then raise .configError s
  else if !unitFits s (unitLen .word) then raise .truncatedInput s
  else if !idAccepted s.navWdset (wordId s) e then raise .structureMismatch s
  else complete { s with navid := BitVec.ofNat 32 (wordId s) }

/-- NAVPAR u (R130): no register but STATUS is written. -/
def execNavpar (u : Byte) (s : State) : Result :=
  if !unitKindOk u then raise .illegalCommand s
  else if !unitFits s (unitLen (unitKindOf u)) then raise .truncatedInput s
  else if !navParityHolds s (unitKindOf u)
      (cbufBytes s s.arg0.toNat (unitLen (unitKindOf u))) then raise .structureMismatch s
  else complete s

/-- NOP (R131): LAST_ERR becomes 0, nothing else happens. -/
def execNop (s : State) : Result := complete s

end Sys2Proof.Machine
end

