-- ==== Sys2Proof/Machine/Synchronizer.lean ====
section
/-! DEFINITION. The frame synchronizer (42_frame_synchronizer R95 to R122). A step examines one byte
over the internal state `Sync`; the state `s` it also takes gives the configuration, which no step
changes. -/

namespace Sys2Proof.Machine

/-- What one call of Step answers (R103): the new internal state, the bytes handed back for replay,
and the events appended. -/
structure StepResult where
  sync : Sync
  replay : List Byte
  events : List Event
  deriving DecidableEq, Repr

/-! ## The machine common to all grammars -/

/-- Garbage() of R105: the counter after one dropped byte, and the lookahead discard if its bound is
reached. -/
def garbage (s : State) (garb : Word) : Word × List Event :=
  if s.lookahead ≠ 0#32 ∧ s.lookahead.toNat ≤ (garb + 1#32).toNat then
    (0#32, [.discard .framingError (garb + 1#32)])
  else (garb + 1#32, [])

/-- A byte dropped with no candidate open: SeekingSync and Garbage() (R109, R114). -/
def dropByte (s : State) (y : Sync) : StepResult :=
  { sync := { y with sstate := .seekingSync, garb := (garbage s y.garb).1 }
    replay := []
    events := (garbage s y.garb).2 }

/-- A byte taken into the candidate: `y` with nothing to replay and no event. -/
def keepGoing (y : Sync) : StepResult := { sync := y, replay := [], events := [] }

/-- Reject(kind, C) for a kind that is an event (R104): C's length is reported, and every byte of C
after the first is replayed. -/
def rejectAs (kind : DiscardKind) (c : List Byte) : StepResult :=
  { sync := { syncResetState with sstate := .seekingSync }
    replay := c.drop 1
    events := [.discard kind (BitVec.ofNat 32 c.length)] }

/-- Reject(none, C), for a sync sequence that breaks partway (R104): its first byte is garbage. -/
def rejectSilently (s : State) (y : Sync) (c : List Byte) : StepResult :=
  { sync := { syncResetState with sstate := .seekingSync, garb := (garbage s y.garb).1 }
    replay := c.drop 1
    events := (garbage s y.garb).2 }

/-- Emit(F) of R106: the candidate ends, the state is Idle and GARB is 0. -/
def emitFrame (f : Frame) : StepResult :=
  { sync := syncResetState, replay := [], events := [.frame f] }

/-! ## ASCII sentences -/

/-- A start marker, `$` or `!` (R109). -/
def isMarker (b : Byte) : Bool := b == 0x24#8 || b == 0x21#8

/-- CR or LF (R110). -/
def isLineEnd (b : Byte) : Bool := b == 0x0D#8 || b == 0x0A#8

/-- HexVal of a hex digit in either case, none for another byte (part 3 of the file, R111). -/
def hexVal (b : Byte) : Option Nat :=
  if 0x30 ≤ b.toNat ∧ b.toNat ≤ 0x39 then some (b.toNat - 0x30)
  else if 0x41 ≤ b.toNat ∧ b.toNat ≤ 0x46 then some (b.toNat - 0x41 + 10)
  else if 0x61 ≤ b.toNat ∧ b.toNat ≤ 0x66 then some (b.toNat - 0x61 + 10)
  else none

/-- AsciiId(P) of R112. -/
def asciiId (p : List Byte) : MsgId :=
  let a := p.takeWhile (fun b => b != 0x2C#8)
  if a.head? = some 0x50#8 ∨ a.head? = some 0x70#8 then .ascii [] a
  else if 3 ≤ a.length then .ascii (a.take 2) (a.drop 2)
  else .ascii [] a

/-- The frame of a sentence whose payload is `bytes[1..fin)` (R110, R111). -/
def asciiFrame (bytes : List Byte) (fin : Nat) (valid : Bool) : Frame :=
  { proto := .ascii, id := asciiId ((bytes.take fin).drop 1), poff := 1, plen := fin - 1,
    valid := valid, bytes := bytes }

/-- The checksum test of R111: the two digits after `*` give the XOR of the bytes strictly between
the marker and `*`. -/
def asciiSumHolds (bytes : List Byte) (star : Nat) : Bool :=
  let hi := (hexVal (bytes.getD (star + 1) 0#8)).getD 0
  let lo := (hexVal (bytes.getD (star + 2) 0#8)).getD 0
  (xor8 ((bytes.take star).drop 1)).toNat == 16 * hi + lo

/-- StepAscii in Idle or SeekingSync (R109). -/
def asciiHunt (s : State) (y : Sync) (b : Byte) : StepResult :=
  if isMarker b then keepGoing { y with fbuf := [b], sstate := .accumulatingBody }
  else dropByte s y

/-- StepAscii in AccumulatingBody (R110). -/
def asciiBody (s : State) (y : Sync) (b : Byte) : StepResult :=
  if isLineEnd b then emitFrame (asciiFrame y.fbuf y.fbuf.length false)
  else if isMarker b then rejectAs .framingError (y.fbuf ++ [b])
  else if asciiMaxLen s < y.fbuf.length + 1 then rejectAs .framingError (y.fbuf ++ [b])
  else if b = 0x2A#8 then
    keepGoing { y with fbuf := y.fbuf ++ [b], star := some y.fbuf.length, sstate := .awaitingChecksum }
  else keepGoing { y with fbuf := y.fbuf ++ [b] }

/-- The end of StepAscii in AwaitingChecksum, the digit appended: on the second digit the sentence is
emitted or rejected (R111). -/
def asciiDigit (y : Sync) (bytes : List Byte) : StepResult :=
  match y.star with
  | none => keepGoing { y with fbuf := bytes }
  | some star =>
    if bytes.length = star + 3 then
      if asciiSumHolds bytes star then emitFrame (asciiFrame bytes star true)
      else rejectAs .checksumMismatch bytes
    else keepGoing { y with fbuf := bytes }

/-- StepAscii in AwaitingChecksum (R111). -/
def asciiChecksum (s : State) (y : Sync) (b : Byte) : StepResult :=
  if (hexVal b).isNone then rejectAs .framingError (y.fbuf ++ [b])
  else if asciiMaxLen s < y.fbuf.length + 1 then rejectAs .framingError (y.fbuf ++ [b])
  else asciiDigit y (y.fbuf ++ [b])

/-- StepAscii(b). The ASCII grammar is never in AccumulatingLength (R102): that arm is unreachable and
hunts for a marker (DESIGN CHOICE, log 12). -/
def stepAscii (s : State) (y : Sync) (b : Byte) : StepResult :=
  match y.sstate with
  | .idle => asciiHunt s y b
  | .seekingSync => asciiHunt s y b
  | .accumulatingLength => asciiHunt s y b
  | .accumulatingBody => asciiBody s y b
  | .awaitingChecksum => asciiChecksum s y b

/-! ## Binary grammars -/

/-- The byte at an index of the candidate. -/
def frameByte (bytes : List Byte) (i : Nat) : Byte := bytes.getD i 0#8

/-- The u16 little-endian number at a byte offset of the candidate (20_memory R44). -/
def frameU16 (bytes : List Byte) (i : Nat) : Nat :=
  (frameByte bytes i).toNat + 256 * (frameByte bytes (i + 1)).toNat

/-- Bits(FBUF, p, w) of 00_scope R8. -/
def frameBits (bytes : List Byte) (p w : Nat) : Nat := streamBits (frameByte bytes) p w

/-- The payload length L of a complete header (R117, R118, R119). -/
def headerPayloadLen (s : State) (g : BinGrammar) (bytes : List Byte) : Nat :=
  match g with
  | .lenpfx => frameU16 bytes 4
  | .bitpack => frameBits bytes 14 10
  | .hdr32 => frameU16 bytes (h32LenOff s)

/-- The `ok` of the header decode (R117, R118, R119). -/
def headerOk (s : State) (g : BinGrammar) (bytes : List Byte) : Bool :=
  match g with
  | .lenpfx => true
  | .bitpack => !(bpRsvdChk s && frameBits bytes 8 6 != 0)
  | .hdr32 => true

/-- A header the grammar accepts: ok, MIN <= L <= MAX and the whole frame fits in FBUF (R115). -/
def headerAccepted (s : State) (g : BinGrammar) (bytes : List Byte) : Bool :=
  let l := headerPayloadLen s g bytes
  headerOk s g bytes && decide (payloadMin s g ≤ l) && decide (l ≤ payloadMax s g) &&
    decide (headerLen s g + l + trailerLen g ≤ s.impl.fbufCap)

/-- A 32-bit CRC trailer of four bytes (R119). -/
def trailer32 (bigEndian : Bool) (t : List Byte) : Word :=
  if bigEndian then frameByte t 0 ++ frameByte t 1 ++ frameByte t 2 ++ frameByte t 3
  else frameByte t 3 ++ frameByte t 2 ++ frameByte t 1 ++ frameByte t 0

/-- The grammar's integrity check on a whole frame of payload length `l` (R117, R118, R119). -/
def integrityHolds (s : State) (g : BinGrammar) (l : Nat) (bytes : List Byte) : Bool :=
  match g with
  | .lenpfx =>
    let ab := sum2 ((bytes.take (6 + l)).drop 2)
    frameByte bytes (6 + l) == ab.1 && frameByte bytes (7 + l) == ab.2
  | .bitpack =>
    crc24qBytes (bytes.take (3 + l)) ==
      frameByte bytes (3 + l) ++ frameByte bytes (4 + l) ++ frameByte bytes (5 + l)
  | .hdr32 =>
    crc32 (crc32Preset s) (bytes.take (h32HdrLen s + l)) ==
      trailer32 (h32TrailerBigEndian s) (bytes.drop (h32HdrLen s + l))

/-- The grammar's identifier of a frame of payload length `l` (R117, R118, R119). -/
def frameId (s : State) (g : BinGrammar) (l : Nat) (bytes : List Byte) : MsgId :=
  match g with
  | .lenpfx => .pair (frameByte bytes 2) (frameByte bytes 3)
  | .bitpack =>
    if bpTypeBits s ≠ 0 ∧ bpTypeBits s ≤ 8 * l then
      .typeCode (BitVec.ofNat 32 (frameBits bytes 24 (bpTypeBits s)))
    else .none
  | .hdr32 => .typeCode (BitVec.ofNat 32 (frameU16 bytes (h32IdOff s)))

/-- The frame of a binary grammar: its payload range is always (H, PLEN) (R116). -/
def binFrame (s : State) (g : BinGrammar) (l : Nat) (bytes : List Byte) : Frame :=
  { proto := .binary g, id := frameId s g l bytes, poff := headerLen s g, plen := l,
    valid := true, bytes := bytes }

/-- HeaderDone() of R115, the candidate being `bytes`. -/
def headerDone (s : State) (g : BinGrammar) (y : Sync) (bytes : List Byte) : StepResult :=
  if headerAccepted s g bytes then
    keepGoing { y with
      fbuf := bytes
      plen := some (headerPayloadLen s g bytes)
      sstate := if headerPayloadLen s g bytes = 0 then .awaitingChecksum else .accumulatingBody }
  else rejectAs .framingError bytes

/-- CheckDone() of R116, the candidate being `bytes`. -/
def checkDone (s : State) (g : BinGrammar) (l : Nat) (bytes : List Byte) : StepResult :=
  if integrityHolds s g l bytes then emitFrame (binFrame s g l bytes)
  else rejectAs .checksumMismatch bytes

/-- StepBin in Idle or SeekingSync: the sync hunt (R114). -/
def binHunt (s : State) (g : BinGrammar) (y : Sync) (b : Byte) : StepResult :=
  if y.fbuf = [] then
    if (syncSeq s g).head? = some b then
      keepGoing { y with
        fbuf := [b]
        sstate := if (syncSeq s g).length = 1 then .accumulatingLength else .seekingSync }
    else dropByte s y
  else if (syncSeq s g)[y.fbuf.length]? = some b then
    if y.fbuf.length + 1 = (syncSeq s g).length then
      if y.fbuf.length + 1 = headerLen s g then headerDone s g y (y.fbuf ++ [b])
      else keepGoing { y with fbuf := y.fbuf ++ [b], sstate := .accumulatingLength }
    else keepGoing { y with fbuf := y.fbuf ++ [b] }
  else rejectSilently s y (y.fbuf ++ [b])

/-- StepBin in AccumulatingLength (R115). -/
def binHeader (s : State) (g : BinGrammar) (y : Sync) (b : Byte) : StepResult :=
  if y.fbuf.length + 1 = headerLen s g then headerDone s g y (y.fbuf ++ [b])
  else keepGoing { y with fbuf := y.fbuf ++ [b] }

/-- StepBin in AccumulatingBody (R116). PLEN is set there (10_state R40); with none the byte is only
appended, in states no run reaches (log 12). -/
def binBody (s : State) (g : BinGrammar) (y : Sync) (b : Byte) : StepResult :=
  if y.plen.map (fun l => headerLen s g + l) = some (y.fbuf.length + 1) then
    keepGoing { y with fbuf := y.fbuf ++ [b], sstate := .awaitingChecksum }
  else keepGoing { y with fbuf := y.fbuf ++ [b] }

/-- StepBin in AwaitingChecksum (R116). -/
def binTrailer (s : State) (g : BinGrammar) (y : Sync) (b : Byte) : StepResult :=
  match y.plen with
  | none => keepGoing { y with fbuf := y.fbuf ++ [b] }
  | some l =>
    if y.fbuf.length + 1 = headerLen s g + l + trailerLen g then checkDone s g l (y.fbuf ++ [b])
    else keepGoing { y with fbuf := y.fbuf ++ [b] }

/-- StepBin(b) (R114, R115, R116). -/
def stepBin (s : State) (g : BinGrammar) (y : Sync) (b : Byte) : StepResult :=
  match y.sstate with
  | .idle => binHunt s g y b
  | .seekingSync => binHunt s g y b
  | .accumulatingLength => binHeader s g y b
  | .accumulatingBody => binBody s g y b
  | .awaitingChecksum => binTrailer s g y b

/-! ## Feed -/

/-- Step(c): the selected grammar's step function (R103). -/
def syncStep (s : State) (y : Sync) (b : Byte) : StepResult :=
  match grammar s with
  | .ascii => stepAscii s y b
  | .binary g => stepBin s g y b

/-- The work loop of Feed (R103) with a bound on its steps: none if the bound is passed. -/
def feedLoop (s : State) : Nat → List Byte → Sync → List Event → Option (Sync × List Event)
  | _, [], y, events => some (y, events)
  | 0, _ :: _, _, _ => none
  | n + 1, c :: queue, y, events =>
    feedLoop s n ((syncStep s y c).replay ++ queue) (syncStep s y c).sync
      (events ++ (syncStep s y c).events)

/-- A bound on the steps of one Feed, from the measure of R108: the pair (|FBUF| + |Q|, |Q|) falls. -/
def feedBound (y : Sync) : Nat := (y.fbuf.length + 2) * (y.fbuf.length + 2)

/-- Feed(b) of R103: the new internal state and the events appended. -/
def feed (s : State) (y : Sync) (b : Byte) : Option (Sync × List Event) :=
  feedLoop s (feedBound y) [b] y []

/-- Feed of each byte in turn (R121): the events in byte order (R100). -/
def feedAll (s : State) : List Byte → Sync → Option (Sync × List Event)
  | [], y => some (y, [])
  | b :: bs, y =>
    match feed s y b with
    | none => none
    | some r => (feedAll s bs r.1).map (fun t => (t.1, r.2 ++ t.2))

/-- The push of a byte sequence: ConfigLegal() first, then Feed of each byte, the events appended to
EVOUT (R120, R121). Passing the bound would stop the model; R108 says that no state does. -/
def pushBytes (bytes : List Byte) (s : State) : Result :=
  match feedAll s bytes s.sync with
  | none => .fault .feedBoundExceeded
  | some r => complete { s with sync := r.1, evout := s.evout ++ r.2 }

/-! ## Commands -/

/-- PUSH b (R120). -/
def execPush (b : Byte) (s : State) : Result :=
  if !configLegal s then raise .configError s else pushBytes [b] s

/-- PUSHN (R121). -/
def execPushn (s : State) : Result :=
  if !configLegal s then raise .configError s
  else if !byteRangeFits s then raise .outOfRange s
  else pushBytes (argBytes s) s

/-- SRESET (R122). It does not check the configuration. -/
def execSreset (s : State) : Result := complete (syncReset s)

end Sys2Proof.Machine
end

