-- ==== Sys2Proof/Machine/Dispatch.lean ====
section
/-! DEFINITION. The meaning of every command, one arm per row of the opcode map (30_encoding R64). -/

namespace Sys2Proof.Machine

def exec (i : Instr) (s : State) : Host.Outcome State Fault Refusal :=
  match i with
  | .nop => Sys2Proof.Machine.execNop s
  | .rdu w => Sys2Proof.Machine.execRdu w s
  | .wru w => Sys2Proof.Machine.execWru w s
  | .rdsm w => Sys2Proof.Machine.execRdsm w s
  | .rdx38 => Sys2Proof.Machine.execRdx38 s
  | .scaleu k => Sys2Proof.Machine.execScaleu k s
  | .scales k => Sys2Proof.Machine.execScales k s
  | .scalef k => Sys2Proof.Machine.execScalef k s
  | .xor8 => Sys2Proof.Machine.execXor8 s
  | .sum2 => Sys2Proof.Machine.execSum2 s
  | .crc32 => Sys2Proof.Machine.execCrc32 s
  | .crc24q => Sys2Proof.Machine.execCrc24q s
  | .crc24qb => Sys2Proof.Machine.execCrc24qb s
  | .push b => Sys2Proof.Machine.execPush b s
  | .pushn => Sys2Proof.Machine.execPushn s
  | .sreset => Sys2Proof.Machine.execSreset s
  | .navsf e => Sys2Proof.Machine.execNavsf e s
  | .navwd e => Sys2Proof.Machine.execNavwd e s
  | .navpar u => Sys2Proof.Machine.execNavpar u s

end Sys2Proof.Machine
end

