-- ==== Sys2Proof/Machine/Flags.lean ====
section
/-! DEFINITION. STATUS, the block's only flags (10_state R24 to R27, R38). -/

namespace Sys2Proof.Machine

/-- The code of an outcome (60_exceptions R135). -/
def errCodeBits : ErrCode → BitVec 4
  | .none => 0#4
  | .outOfRange => 1#4
  | .truncatedInput => 2#4
  | .structureMismatch => 3#4
  | .illegalCommand => 4#4
  | .configError => 5#4
  | .badAccess => 6#4

/-- STATUS.SYNC_STATE of a parser state (10_state R27). -/
def parserStateBits : ParserState → BitVec 3
  | .idle => 0#3
  | .seekingSync => 1#3
  | .accumulatingLength => 2#3
  | .accumulatingBody => 3#3
  | .awaitingChecksum => 4#3

/-- STATUS as the host reads it: LAST_ERR 3:0, ERR_STICKY 4, SYNC_STATE 10:8 (10_state R24). -/
def statusWord (s : State) : Word :=
  0#21 ++ parserStateBits s.sync.sstate ++ 0#3 ++ BitVec.ofBool s.errSticky ++ errCodeBits s.lastErr

/-- A host write to STATUS: bit 4 = 1 clears ERR_STICKY, every other bit is ignored (10_state R26). -/
def writeStatus (v : Word) (s : State) : State :=
  { s with errSticky := s.errSticky && !v.getLsbD 4 }

end Sys2Proof.Machine
end

