-- ==== Sys2Proof/Machine/Port.lean ====
section
/-! DEFINITION. The host register port: the register map, access widths, reads and writes (10_state
R14 to R35, 20_memory R45, R50). A write to CMD is the one access this file does not serve: it runs a
command (10_state R15). -/

namespace Sys2Proof.Machine

/-- The registers of the map of 10_state R14. -/
inductive Reg where
  | cmd | status | arg0 | arg1 | valLo | valHi | bitpos | clen
  | resLo | resHi | fresLo | fresHi | ckres | ckhex | navid | syncFlen
  | scfg | lpSync | lpLim | bpCfg | bpLim | h32Sync | h32Cfg | h32Lim | asciiCfg | lookahead
  | garbage
  | navCfg0 | navCfg1 | navSfset | navWdset
  | ktabLo (k : Fin 16) | ktabHi (k : Fin 16)
  deriving DecidableEq, Repr

/-- The byte offset of a register from the block's base (10_state R14). -/
def regOffset : Reg → Nat
  | .cmd => 0x000 | .status => 0x004 | .arg0 => 0x008 | .arg1 => 0x00C
  | .valLo => 0x010 | .valHi => 0x014 | .bitpos => 0x018 | .clen => 0x01C
  | .resLo => 0x020 | .resHi => 0x024 | .fresLo => 0x028 | .fresHi => 0x02C
  | .ckres => 0x030 | .ckhex => 0x034 | .navid => 0x038 | .syncFlen => 0x03C
  | .scfg => 0x040 | .lpSync => 0x044 | .lpLim => 0x048 | .bpCfg => 0x04C | .bpLim => 0x050
  | .h32Sync => 0x054 | .h32Cfg => 0x058 | .h32Lim => 0x05C | .asciiCfg => 0x060
  | .lookahead => 0x064 | .garbage => 0x068
  | .navCfg0 => 0x070 | .navCfg1 => 0x074 | .navSfset => 0x078 | .navWdset => 0x07C
  | .ktabLo k => 0x100 + 8 * k.val | .ktabHi k => 0x104 + 8 * k.val

/-- Every register of the map. -/
def allRegs : List Reg :=
  [.cmd, .status, .arg0, .arg1, .valLo, .valHi, .bitpos, .clen, .resLo, .resHi, .fresLo, .fresHi,
   .ckres, .ckhex, .navid, .syncFlen, .scfg, .lpSync, .lpLim, .bpCfg, .bpLim, .h32Sync, .h32Cfg,
   .h32Lim, .asciiCfg, .lookahead, .garbage, .navCfg0, .navCfg1, .navSfset, .navWdset] ++
  (List.finRange 16).flatMap (fun k => [.ktabLo k, .ktabHi k])

/-- The register whose four bytes hold an offset, if any (DEDUCED, log 8). -/
def regAt (offset : Nat) : Option Reg :=
  allRegs.find? (fun r => regOffset r == offset - offset % 4)

/-- The offset of the CBUF window (10_state R14). -/
def cbufBase : Nat := 0x10000

/-- What an access reaches (10_state R14, R35). -/
inductive PortTarget where
  /-- No register and no CBUF byte: reads 0, ignores writes, and is not bad. -/
  | unmapped
  /-- A wrong width or alignment on a mapped offset. -/
  | bad
  | reg (r : Reg)
  | cbufByte (i : Nat)
  | cbufWord (i : Nat)
  deriving DecidableEq, Repr

/-- What an access of `bits` bits at an offset reaches (10_state R35). -/
def portTarget (s : State) (bits offset : Nat) : PortTarget :=
  if offset < cbufBase then
    match regAt offset with
    | none => .unmapped
    | some r => if bits = 32 ∧ offset % 4 = 0 then .reg r else .bad
  else if offset - cbufBase < s.impl.cbufCap then
    if bits = 8 then .cbufByte (offset - cbufBase)
    else if bits = 32 ∧ offset % 4 = 0 then .cbufWord (offset - cbufBase)
    else .bad
  else .unmapped

/-! ## Addresses of the platform (20_memory R52) -/

/-- The number of bytes the block's window spans, from its base (R52). -/
def windowSpan (s : State) : Nat := cbufBase + s.impl.cbufCap

/-- The offset a platform address has in the block's window, none outside it (R52). -/
def offsetOf (s : State) (address : Nat) : Option Nat :=
  if baseAddress s ≤ address ∧ address < baseAddress s + windowSpan s then
    some (address - baseAddress s)
  else none

/-- The access at an offset: a write if it has data. -/
def accessAt (bits offset : Nat) : Option Word → PortAccess
  | none => .read bits offset
  | some v => .write bits offset v

/-- The access an input presents to the port, if it presents one. -/
def presented (s : State) : HostInput → Option PortAccess
  | .access a => some a
  | .addressed bits address data => (offsetOf s address).map (fun o => accessAt bits o data)
  | .blockReset => none
  | .twoAgents _ _ => none

/-! ## Reads -/

/-- The bits of a register that are named fields: every other bit reads 0 and ignores writes
(10_state R14, R31, R32). -/
def fieldMask : Reg → Word
  | .scfg => 0x00000103#32
  | .lpSync => 0x0000FFFF#32
  | .bpCfg => 0x003F01FF#32
  | .bpLim => 0x03FF03FF#32
  | .h32Cfg => 0xFFFFFF07#32
  | .asciiCfg => 0x0000FFFF#32
  | .navCfg0 => 0x0007FFFF#32
  | .navCfg1 => 0x000007FF#32
  | _ => 0xFFFFFFFF#32

/-- Bits 31:0 of a 64-bit register. -/
def lowWord (v : DWord) : Word := v.extractLsb' 0 32

/-- Bits 63:32 of a 64-bit register. -/
def highWord (v : DWord) : Word := v.extractLsb' 32 32

/-- The value behind a register before its reserved bits are cleared. -/
def regValue (s : State) : Reg → Word
  | .cmd => 0#32
  | .status => statusWord s
  | .arg0 => s.arg0
  | .arg1 => s.arg1
  | .valLo => lowWord s.val
  | .valHi => highWord s.val
  | .bitpos => s.bitpos
  | .clen => s.clen
  | .resLo => lowWord s.res
  | .resHi => highWord s.res
  | .fresLo => lowWord s.fres
  | .fresHi => highWord s.fres
  | .ckres => s.ckres
  | .ckhex => s.ckhex
  | .navid => s.navid
  | .syncFlen => BitVec.ofNat 32 s.sync.fbuf.length
  | .scfg => s.scfg
  | .lpSync => s.lpSync
  | .lpLim => s.lpLim
  | .bpCfg => s.bpCfg
  | .bpLim => s.bpLim
  | .h32Sync => s.h32Sync
  | .h32Cfg => s.h32Cfg
  | .h32Lim => s.h32Lim
  | .asciiCfg => s.asciiCfg
  | .lookahead => s.lookahead
  | .garbage => s.sync.garb
  | .navCfg0 => s.navCfg0
  | .navCfg1 => s.navCfg1
  | .navSfset => s.navSfset
  | .navWdset => s.navWdset
  | .ktabLo k => lowWord (s.ktab.get k)
  | .ktabHi k => highWord (s.ktab.get k)

/-- What the host reads from a register (10_state R14). -/
def readReg (s : State) (r : Reg) : Word := regValue s r &&& fieldMask r

/-- A byte of the CBUF window: an index at or above CBUF_CAP is unmapped and reads 0 (log 9). -/
def windowByte (s : State) (i : Nat) : Byte := if i < s.impl.cbufCap then s.cbuf.read i else 0#8

/-- The value a read returns (10_state R14, R35, 20_memory R45). A bad read returns 0. -/
def portValue (s : State) : PortTarget → Word
  | .unmapped => 0#32
  | .bad => 0#32
  | .reg r => readReg s r
  | .cbufByte i => (windowByte s i).setWidth 32
  | .cbufWord i =>
    windowByte s (i + 3) ++ windowByte s (i + 2) ++ windowByte s (i + 1) ++ windowByte s i

/-- The effect of a bad access, and none of another one (10_state R35, 60_exceptions R136). -/
def faultIfBad (t : PortTarget) (s : State) : State :=
  if t = .bad then raiseFault .badAccess s else s

/-- A host read: its value goes to the host, and unless it is bad nothing else happens (20_memory R50). -/
def portRead (bits offset : Nat) (s : State) : State :=
  let t := portTarget s bits offset
  faultIfBad t { s with readLog := s.readLog ++ [portValue s t] }

/-! ## Writes -/

/-- VAL, or another 64-bit register, with its low word written. -/
def withLowWord (d : DWord) (v : Word) : DWord := highWord d ++ v

/-- VAL, or another 64-bit register, with its high word written. -/
def withHighWord (d : DWord) (v : Word) : DWord := v ++ lowWord d

/-- A BITPOS write stores min(v, 8 * CLEN) (10_state R18). -/
def writeBitpos (v : Word) (s : State) : State :=
  { s with bitpos := BitVec.ofNat 32 (min v.toNat (viewBits s)) }

/-- A CLEN write stores min(v, CBUF_CAP), then pulls BITPOS down to 8 * CLEN (10_state R19). -/
def writeClen (v : Word) (s : State) : State :=
  let s' := { s with clen := BitVec.ofNat 32 (min v.toNat s.impl.cbufCap) }
  writeBitpos s'.bitpos s'

/-- A host write to a register (10_state R14 to R33, 20_memory R50). A synchronizer configuration
write stores the value and resets the synchronizer. Read-only registers ignore writes. -/
def writeReg (r : Reg) (v : Word) (s : State) : State :=
  let m := v &&& fieldMask r
  match r with
  | .cmd => s
  | .status => writeStatus v s
  | .arg0 => { s with arg0 := v }
  | .arg1 => { s with arg1 := v }
  | .valLo => { s with val := withLowWord s.val v }
  | .valHi => { s with val := withHighWord s.val v }
  | .bitpos => writeBitpos v s
  | .clen => writeClen v s
  | .resLo => s
  | .resHi => s
  | .fresLo => s
  | .fresHi => s
  | .ckres => s
  | .ckhex => s
  | .navid => s
  | .syncFlen => s
  | .scfg => syncReset { s with scfg := m }
  | .lpSync => syncReset { s with lpSync := m }
  | .lpLim => syncReset { s with lpLim := m }
  | .bpCfg => syncReset { s with bpCfg := m }
  | .bpLim => syncReset { s with bpLim := m }
  | .h32Sync => syncReset { s with h32Sync := m }
  | .h32Cfg => syncReset { s with h32Cfg := m }
  | .h32Lim => syncReset { s with h32Lim := m }
  | .asciiCfg => syncReset { s with asciiCfg := m }
  | .lookahead => syncReset { s with lookahead := m }
  | .garbage => s
  | .navCfg0 => { s with navCfg0 := m }
  | .navCfg1 => { s with navCfg1 := m }
  | .navSfset => { s with navSfset := m }
  | .navWdset => { s with navWdset := m }
  | .ktabLo k => { s with ktab := s.ktab.set k (withLowWord (s.ktab.get k) v) }
  | .ktabHi k => { s with ktab := s.ktab.set k (withHighWord (s.ktab.get k) v) }

/-- A write of one byte of the CBUF window: an index at or above CBUF_CAP ignores it (log 9). -/
def writeWindowByte (i : Nat) (v : Byte) (s : State) : State :=
  { s with cbuf := if i < s.impl.cbufCap then s.cbuf.write i v else s.cbuf }

/-- A 32-bit write to the CBUF window, little-endian (20_memory R45). -/
def writeWindowWord (i : Nat) (v : Word) (s : State) : State :=
  writeWindowByte (i + 3) (v.extractLsb' 24 8)
    (writeWindowByte (i + 2) (v.extractLsb' 16 8)
      (writeWindowByte (i + 1) (v.extractLsb' 8 8)
        (writeWindowByte i (v.extractLsb' 0 8) s)))

/-- The effect of a host write that is no command. A bad write changes nothing but STATUS. -/
def portWrite (t : PortTarget) (v : Word) (s : State) : State :=
  match t with
  | .unmapped => s
  | .bad => raiseFault .badAccess s
  | .reg r => writeReg r v s
  | .cbufByte i => writeWindowByte i (v.extractLsb' 0 8) s
  | .cbufWord i => writeWindowWord i v s

/-! ## Block reset -/

/-- The platform asserts the reset input (70_reset_and_hazards R150): every piece of the block's state
takes its reset value. What belongs to the host or to the implementation stays (log 7). -/
def blockReset (s : State) : State :=
  { State.reset with impl := s.impl, pending := s.pending, readLog := s.readLog }

end Sys2Proof.Machine
end

