-- ==== Sys2Proof/Machine/Fetch.lean ====
section
/-! DEFINITION. Serving one host input. The block fetches nothing (10_state R37): a command is the word
written to CMD, and the host's sequence of accesses is the program (log 1). -/

namespace Sys2Proof.Machine

/-- A write to CMD executes the command encoded in the word (10_state R15). An illegal word takes the
IllegalCommand fault and changes nothing but STATUS (30_encoding R65). -/
def runCommand (w : Word) (s : State) : Result :=
  match decode w with
  | .ok i => exec i s
  | .error _ => raise .illegalCommand s

/-- One access of the host to the port (10_state R14, R35). -/
def serveAccess (a : PortAccess) (s : State) : Result :=
  match a with
  | .read bits offset => .next (portRead bits offset s)
  | .write bits offset v =>
    if portTarget s bits offset = .reg .cmd then runCommand v s
    else .next (portWrite (portTarget s bits offset) v s)

/-- One input of the block. An access at an address outside the block's window does not reach it. -/
def serveInput (i : HostInput) (s : State) : Result :=
  match i with
  | .access a => serveAccess a s
  | .addressed bits address data =>
    match offsetOf s address with
    | none => .next s
    | some o => serveAccess (accessAt bits o data) s
  | .blockReset => .next (blockReset s)
  | .twoAgents _ _ => .refused .concurrentAccess

/-- Serve the oldest pending input. With none pending the block waits and nothing changes (log 1). -/
def servePending (s : State) : Result :=
  match s.pending with
  | [] => .next s
  | i :: rest => serveInput i { s with pending := rest }

/-- The host access that writes a command word to CMD (30_encoding R67). -/
def commandInput (w : Word) : HostInput := .access (.write 32 (regOffset .cmd) w)

end Sys2Proof.Machine
end

