-- ==== Sys2Proof/Machine/Step.lean ====
section
/-! DEFINITION. One step of the block: one host input, with all the work of its command (70 R161). -/

namespace Sys2Proof.Machine

/-- One step. -/
def step (s : State) : Host.Outcome State Fault Refusal := servePending s

/-- The state in which the next step runs the command word in the low `nbits` bits of `w`: a write of
that word to CMD is the oldest pending input. -/
def State.withFetchWord (s : State) (nbits w : Nat) : State :=
  { s with pending := commandInput (BitVec.ofNat 32 (w % 2 ^ nbits)) :: s.pending }

end Sys2Proof.Machine
end

