-- ==== Sys2Proof/Safety.lean ====
section
/-! DEFINITION. What counts as a sound state, in the terms the claims use: the invariants the spec
states of the memory, the cursor, the registers, the synchronizer and the emitted frames, and the
order in which a command's fault conditions are reported. -/

namespace Sys2Proof.Machine

open Sys2Proof.Config

/-- Parameters an implementation may have (00_scope R6). -/
def implLegal (p : Impl) : Prop := 1 ≤ p.cbufCap ∧ p.cbufCap ≤ 2 ^ 28 ∧ 65794 ≤ p.fbufCap

/-- CBUF is in canonical form and lists no index at or above CBUF_CAP (10_state R34). -/
def memoryInv (s : State) : Prop := s.cbuf.wf = true ∧ s.cbuf.below s.impl.cbufCap = true

/-- BITPOS never passes the end of the view, and the view never passes CBUF_CAP (10_state R18, R19). -/
def cursorInv (s : State) : Prop :=
  s.bitpos.toNat ≤ 8 * s.clen.toNat ∧ s.clen.toNat ≤ s.impl.cbufCap

/-- The bits of the configuration registers that are named fields, from the tables of 10_state R31 and
R32. Every bit of the other registers is kept. -/
def namedBits : Reg → Word
  | .scfg => 0x00000103#32
  | .lpSync => 0x0000FFFF#32
  | .bpCfg => 0x003F01FF#32
  | .bpLim => 0x03FF03FF#32
  | .h32Cfg => 0xFFFFFF07#32
  | .asciiCfg => 0x0000FFFF#32
  | .navCfg0 => 0x0007FFFF#32
  | .navCfg1 => 0x000007FF#32
  | _ => 0xFFFFFFFF#32

/-- No reserved bit of a register is set (10_state R14), CKHEX holds two characters (R23) and NAVID
an id of at most 5 bits (43_nav_validator R126). -/
def registerInv (s : State) : Prop :=
  (∀ r, regValue s r &&& ~~~namedBits r = 0#32) ∧ s.ckhex.toNat < 2 ^ 16 ∧ s.navid.toNat < 32

/-! ## The synchronizer (10_state R40, 42_frame_synchronizer R102) -/

/-- An ASCII candidate: it starts with a marker and is within ASCII_MAX_LEN. -/
def asciiCandidate (s : State) (bytes : List Byte) : Prop :=
  (∃ b rest, bytes = b :: rest ∧ isMarker b = true) ∧ bytes.length ≤ asciiMaxLen s

/-- What R102 says of SSTATE under the ASCII grammar. -/
def asciiShape (s : State) (y : Sync) : Prop :=
  y.plen = none ∧
  match y.sstate with
  | .idle => y.fbuf = [] ∧ y.star = none ∧ y.garb = 0#32
  | .seekingSync => y.fbuf = [] ∧ y.star = none
  | .accumulatingLength => False
  | .accumulatingBody => asciiCandidate s y.fbuf ∧ y.star = none
  | .awaitingChecksum => asciiCandidate s y.fbuf ∧
      ∃ star, y.star = some star ∧ 1 ≤ star ∧ star < y.fbuf.length ∧ y.fbuf.length < star + 3 ∧
        y.fbuf[star]? = some 0x2A#8 ∧ ∀ c ∈ y.fbuf.drop (star + 1), (hexVal c).isSome = true

/-- What R102 says of SSTATE under a binary grammar. -/
def binShape (s : State) (g : BinGrammar) (y : Sync) : Prop :=
  y.star = none ∧
  match y.sstate with
  | .idle => y.fbuf = [] ∧ y.plen = none ∧ y.garb = 0#32
  | .seekingSync =>
      y.fbuf <+: syncSeq s g ∧ y.fbuf.length < (syncSeq s g).length ∧ y.plen = none
  | .accumulatingLength =>
      syncSeq s g <+: y.fbuf ∧ y.fbuf.length < headerLen s g ∧ y.plen = none
  | .accumulatingBody => syncSeq s g <+: y.fbuf ∧
      ∃ l, y.plen = some l ∧ headerLen s g ≤ y.fbuf.length ∧ y.fbuf.length < headerLen s g + l ∧
        headerLen s g + l + trailerLen g ≤ s.impl.fbufCap
  | .awaitingChecksum => syncSeq s g <+: y.fbuf ∧
      ∃ l, y.plen = some l ∧ headerLen s g + l ≤ y.fbuf.length ∧
        y.fbuf.length < headerLen s g + l + trailerLen g ∧
        headerLen s g + l + trailerLen g ≤ s.impl.fbufCap

/-- What R102 says of SSTATE under the selected grammar. -/
def syncShape (s : State) (y : Sync) : Prop :=
  match grammar s with
  | .ascii => asciiShape s y
  | .binary g => binShape s g y

/-- The synchronizer's invariant (10_state R40). Under an illegal configuration no byte is taken
(42_frame_synchronizer R101), so the synchronizer is as its last reset left it (log 19). -/
def syncInv (s : State) : Prop :=
  (configLegal s = true → syncShape s s.sync) ∧ (configLegal s = false → s.sync = syncResetState)

/-! ## Frames (42_frame_synchronizer R97) -/

/-- What R97 promises of a FRAME record: a valid one has passed its grammar's integrity check, and
only the ASCII grammar gives one that is not valid. -/
def frameSound (p : Impl) (f : Frame) : Prop :=
  match f.proto with
  | .ascii => f.poff = 1 ∧ (f.valid = true →
      f.bytes.length = f.plen + 4 ∧ frameByte f.bytes (f.plen + 1) = 0x2A#8 ∧
      ∃ hi lo, hexVal (frameByte f.bytes (f.plen + 2)) = some hi ∧
        hexVal (frameByte f.bytes (f.plen + 3)) = some lo ∧
        (xor8 ((f.bytes.drop 1).take f.plen)).toNat = 16 * hi + lo)
  | .binary .lenpfx => f.valid = true ∧ f.poff = 6 ∧ f.bytes.length = f.plen + 8 ∧
      sum2 ((f.bytes.drop 2).take (f.plen + 4)) =
        (frameByte f.bytes (f.plen + 6), frameByte f.bytes (f.plen + 7))
  | .binary .bitpack => f.valid = true ∧ f.poff = 3 ∧ f.bytes.length = f.plen + 6 ∧
      crc24qBytes (f.bytes.take (f.plen + 3)) =
        frameByte f.bytes (f.plen + 3) ++ frameByte f.bytes (f.plen + 4) ++
          frameByte f.bytes (f.plen + 5)
  | .binary .hdr32 => f.valid = true ∧ f.bytes.length = f.poff + f.plen + 4 ∧
      ∃ bigEndian, crc32 (presetWord p.crc32Preset) (f.bytes.take (f.poff + f.plen)) =
        trailer32 bigEndian (f.bytes.drop (f.poff + f.plen))

/-- Every FRAME on EVOUT is sound. -/
def evoutSound (s : State) : Prop := ∀ f, Event.frame f ∈ s.evout → frameSound s.impl f

/-! ## Fault priority (60_exceptions R135, R138) -/

/-- A command's fault conditions in the order R138 reports them. -/
def faultConditions (i : Instr) (s : State) : List (Bool × ErrCode) :=
  match i with
  | .nop => []
  | .rdu w => [(!i.wf, .illegalCommand), (!cursorFits s w.toNat, .outOfRange)]
  | .wru w => [(!i.wf, .illegalCommand), (!cursorFits s w.toNat, .outOfRange)]
  | .rdsm w => [(!i.wf, .illegalCommand), (!cursorFits s w.toNat, .outOfRange)]
  | .rdx38 => [(!cursorFits s 38, .outOfRange)]
  | .scaleu _ => [(!i.wf, .illegalCommand)]
  | .scales _ => [(!i.wf, .illegalCommand)]
  | .scalef _ => [(!i.wf, .illegalCommand)]
  | .xor8 => [(!byteRangeFits s, .outOfRange)]
  | .sum2 => [(!byteRangeFits s, .outOfRange)]
  | .crc32 => [(!byteRangeFits s, .outOfRange)]
  | .crc24q => [(!byteRangeFits s, .outOfRange)]
  | .crc24qb => [(!bitRangeFits s, .outOfRange)]
  | .push _ => [(!configLegal s, .configError)]
  | .pushn => [(!configLegal s, .configError), (!byteRangeFits s, .outOfRange)]
  | .sreset => []
  | .navsf e => [(!navSfLegal s, .configError), (!unitFits s 30, .truncatedInput),
      (cbufRead s s.arg0.toNat != navPre s, .structureMismatch),
      (!s.navSfset.getLsbD (subframeId s), .structureMismatch),
      (e != 0#8 && subframeId s != e.toNat, .structureMismatch)]
  | .navwd e => [(!navWdLegal s, .configError), (!unitFits s 11, .truncatedInput),
      (!s.navWdset.getLsbD (wordId s), .structureMismatch),
      (e != 0#8 && wordId s != e.toNat, .structureMismatch)]
  | .navpar u => [(!i.wf, .illegalCommand), (!unitFits s (unitLen (unitKindOf u)), .truncatedInput),
      (!navParityHolds s (unitKindOf u) (cbufBytes s s.arg0.toNat (unitLen (unitKindOf u))),
        .structureMismatch)]

/-- The code a command reports: that of its first condition that holds, or none (60_exceptions R138). -/
def firstFault (i : Instr) (s : State) : ErrCode :=
  match (faultConditions i s).find? (fun c => c.1) with
  | none => .none
  | some c => c.2

/-! ## The spec's formulas, written out for the claims -/

/-- Bits(CBUF, p, w) by the formula of 00_scope R8: the sum over i of the bit at offset p + i times
2^(w - 1 - i). -/
def fieldValue (m : Memory) (p w : Nat) : Nat :=
  ∑ i ∈ Finset.range w, ((m.read ((p + i) / 8)).getLsbD (7 - (p + i) % 8)).toNat * 2 ^ (w - 1 - i)

/-- The bytes m[start], ..., m[start + n - 1]. -/
def bytesAt (m : Memory) (start n : Nat) : List Byte := (List.range n).map (fun i => m.read (start + i))

/-- The state after a fault: the state before it, except STATUS (60_exceptions R136). -/
def faulted (code : ErrCode) (s : State) : State := { s with lastErr := code, errSticky := true }

/-- The value of a finite encoding (40_bitfield_codec R81). -/
def f64Value (x : DWord) : ℚ :=
  (if f64Sign x then -1 else 1) * (f64Signif x : ℚ) * (2 : ℚ) ^ f64Scale x

/-- `x` is the number `q` rounded to nearest with ties to even (40_bitfield_codec R81), `neg` being the
sign of a zero or an infinity as well. From the midpoint between the greatest finite number and 2^1024
on, that is an infinity. Subnormals are among the finite encodings. -/
def roundsTo (q : ℚ) (neg : Bool) (x : DWord) : Prop :=
  f64Sign x = neg ∧
  (|q| < 2 ^ 1024 - 2 ^ 970 → f64Exp x < 2047 ∧
    ∀ y : DWord, f64Exp y < 2047 →
      |f64Value x - q| ≤ |f64Value y - q| ∧
      (|f64Value x - q| = |f64Value y - q| → f64Value y ≠ f64Value x → x.getLsbD 0 = false)) ∧
  (2 ^ 1024 - 2 ^ 970 ≤ |q| → x = BitVec.ofBool neg ++ 0x7FF0000000000000#63)

/-- `c` is the reflected CRC-32 of a byte sequence (41_checksum_engine R90), as a remainder over the
two-element field. A word stands for the polynomial whose coefficient of X^31 is its bit 0. The message
takes each byte's bit 0 first; the preset goes before it, and is XORed into the result. The divisor is
X^32 and the polynomial of 0xEDB88320. -/
def crc32Remainder (preset : Word) (bytes : List Byte) (c : Word) : Prop :=
  let poly := fun w : Word => ∑ k ∈ Finset.range 32,
    if w.getLsbD (31 - k) then (Polynomial.X ^ k : Polynomial (ZMod 2)) else 0
  let message := ∑ j ∈ Finset.range (8 * bytes.length),
    if (bytes.getD (j / 8) 0#8).getLsbD (j % 8) then
      (Polynomial.X ^ (8 * bytes.length - 1 - j) : Polynomial (ZMod 2)) else 0
  poly (c ^^^ preset) =
    (poly preset * Polynomial.X ^ (8 * bytes.length) + message * Polynomial.X ^ 32) %ₘ
      (Polynomial.X ^ 32 + poly 0xEDB88320#32)

/-- The number of an outcome (60_exceptions R135). -/
def errNumber : ErrCode → Nat
  | .none => 0
  | .outOfRange => 1
  | .truncatedInput => 2
  | .structureMismatch => 3
  | .illegalCommand => 4
  | .configError => 5
  | .badAccess => 6

/-- The number of a parser state (10_state R27). -/
def parserNumber : ParserState → Nat
  | .idle => 0
  | .seekingSync => 1
  | .accumulatingLength => 2
  | .accumulatingBody => 3
  | .awaitingChecksum => 4

/-- The clauses (a) to (g) of 30_encoding R65, on the fields of R61. -/
def illegalWord (w : Word) : Prop :=
  let op := w.toNat / 2 ^ 24
  let imm := w.toNat / 2 ^ 16 % 2 ^ 8
  w.toNat % 2 ^ 16 ≠ 0 ∨
  op ∉ [0x00, 0x10, 0x11, 0x12, 0x13, 0x14, 0x15, 0x16, 0x20, 0x21, 0x22, 0x23, 0x24,
    0x30, 0x31, 0x32, 0x40, 0x41, 0x42] ∨
  (op ∈ [0x00, 0x13, 0x20, 0x21, 0x22, 0x23, 0x24, 0x31, 0x32] ∧ imm ≠ 0) ∨
  (op ∈ [0x10, 0x11] ∧ ¬ (1 ≤ imm ∧ imm ≤ 32)) ∨
  (op = 0x12 ∧ ¬ (2 ≤ imm ∧ imm ≤ 32)) ∨
  (op ∈ [0x14, 0x15, 0x16] ∧ 15 < imm) ∨
  (op = 0x42 ∧ 1 < imm)

/-- Format C with an unused IMM8 (30_encoding R61, R62): the word {op, 0, 0} is the instruction, and any
other word of that opcode takes the IllegalCommand fault. -/
def encodedPlain (op : Byte) (i : Instr) : Prop :=
  decode (op ++ 0#8 ++ 0#16) = .ok i ∧
  ∀ (imm : Byte) (rsv : BitVec 16), ¬ (imm = 0#8 ∧ rsv = 0#16) →
    ∀ s, runCommand (op ++ imm ++ rsv) s = .next (faulted .illegalCommand s)

/-- Format C with an IMM8 operand (30_encoding R61, R62): the words {op, imm, 0} with an admitted IMM8
are the instruction's, and any other word of that opcode takes the IllegalCommand fault. -/
def encodedWith (op : Byte) (build : Byte → Instr) (admitted : Nat → Prop) : Prop :=
  ∀ (imm : Byte) (rsv : BitVec 16),
    (admitted imm.toNat ∧ rsv = 0#16 → decode (op ++ imm ++ rsv) = .ok (build imm)) ∧
    (¬ (admitted imm.toNat ∧ rsv = 0#16) →
      ∀ s, runCommand (op ++ imm ++ rsv) s = .next (faulted .illegalCommand s))

/-- The code a command word reports (60_exceptions R138): an illegal word is reported before anything
is read. -/
def reportedFault (w : Word) (s : State) : ErrCode :=
  match decode w with
  | .error _ => .illegalCommand
  | .ok i => firstFault i s

/-- SEEK p (30_encoding R68). -/
def seek (p : Word) (s : State) : State := writeReg .bitpos p s

/-- SETVAL v (30_encoding R68). -/
def setval (v : DWord) (s : State) : State :=
  writeReg .valHi (highWord v) (writeReg .valLo (lowWord v) s)

/-- The conditions of 42_frame_synchronizer R101 on the register words, by the bit positions of
10_state R31. -/
def legalConfiguration (s : State) : Prop :=
  match s.scfg.toNat % 4 with
  | 0 => 1 ≤ s.asciiCfg.toNat % 2 ^ 16
  | 1 => s.lpLim.toNat % 2 ^ 16 ≤ s.lpLim.toNat / 2 ^ 16
  | 2 => s.bpLim.toNat % 2 ^ 10 ≤ s.bpLim.toNat / 2 ^ 16 % 2 ^ 10 ∧
      s.bpCfg.toNat / 2 ^ 16 % 2 ^ 6 ≤ 32
  | _ =>
      let syncLen := s.h32Cfg.toNat % 8
      let hdrLen := s.h32Cfg.toNat / 2 ^ 8 % 2 ^ 8
      let lenOff := s.h32Cfg.toNat / 2 ^ 16 % 2 ^ 8
      let idOff := s.h32Cfg.toNat / 2 ^ 24
      1 ≤ syncLen ∧ syncLen ≤ 4 ∧ syncLen ≤ hdrLen ∧ lenOff + 2 ≤ hdrLen ∧ idOff + 2 ≤ hdrLen ∧
      s.h32Lim.toNat % 2 ^ 16 ≤ s.h32Lim.toNat / 2 ^ 16

/-- The fields the synchronizer uses are those of the table of 10_state R31, by their bit positions, and
the grammar constants are those of 42_frame_synchronizer R96. -/
def fieldsAsTabled (s : State) : Prop :=
  (grammar s = match s.scfg.toNat % 4 with
    | 0 => .ascii
    | 1 => .binary .lenpfx
    | 2 => .binary .bitpack
    | _ => .binary .hdr32) ∧
  h32TrailerBigEndian s = s.scfg.getLsbD 8 ∧
  (syncSeq s .lenpfx).map BitVec.toNat = [s.lpSync.toNat % 2 ^ 8, s.lpSync.toNat / 2 ^ 8 % 2 ^ 8] ∧
  payloadMin s .lenpfx = s.lpLim.toNat % 2 ^ 16 ∧ payloadMax s .lenpfx = s.lpLim.toNat / 2 ^ 16 ∧
  (syncSeq s .bitpack).map BitVec.toNat = [s.bpCfg.toNat % 2 ^ 8] ∧
  bpRsvdChk s = s.bpCfg.getLsbD 8 ∧ bpTypeBits s = s.bpCfg.toNat / 2 ^ 16 % 2 ^ 6 ∧
  payloadMin s .bitpack = s.bpLim.toNat % 2 ^ 10 ∧
  payloadMax s .bitpack = s.bpLim.toNat / 2 ^ 16 % 2 ^ 10 ∧
  (syncSeq s .hdr32).map BitVec.toNat =
    [s.h32Sync.toNat % 2 ^ 8, s.h32Sync.toNat / 2 ^ 8 % 2 ^ 8, s.h32Sync.toNat / 2 ^ 16 % 2 ^ 8,
      s.h32Sync.toNat / 2 ^ 24].take (s.h32Cfg.toNat % 2 ^ 3) ∧
  h32LenOff s = s.h32Cfg.toNat / 2 ^ 16 % 2 ^ 8 ∧ h32IdOff s = s.h32Cfg.toNat / 2 ^ 24 ∧
  payloadMin s .hdr32 = s.h32Lim.toNat % 2 ^ 16 ∧ payloadMax s .hdr32 = s.h32Lim.toNat / 2 ^ 16 ∧
  headerLen s .lenpfx = 6 ∧ headerLen s .bitpack = 3 ∧
  headerLen s .hdr32 = s.h32Cfg.toNat / 2 ^ 8 % 2 ^ 8 ∧
  trailerLen .lenpfx = 2 ∧ trailerLen .bitpack = 3 ∧ trailerLen .hdr32 = 4 ∧
  asciiMaxLen s = s.asciiCfg.toNat % 2 ^ 16

/-- The value of a hex digit (42_frame_synchronizer, part 3): `0` to `9`, then `A` to `F` in either
case. -/
def hexDigitIs (b : Byte) (v : Nat) : Prop :=
  (v < 10 ∧ b.toNat = 0x30 + v) ∨
  (10 ≤ v ∧ v < 16 ∧ (b.toNat = 0x41 + (v - 10) ∨ b.toNat = 0x61 + (v - 10)))

/-- The PUSH of each byte in turn. With no byte, the command completes and that is all. -/
def pushEach : List Byte → State → Result
  | [], s => .next { s with lastErr := .none }
  | b :: bs, s =>
    match exec (.push b) s with
    | .next t => pushEach bs t
    | .fault f => .fault f
    | .refused r => .refused r

/-- The first byte of a start marker or sync sequence of the selected grammar. -/
def opensCandidate (s : State) (b : Byte) : Prop :=
  match grammar s with
  | .ascii => b = 0x24#8 ∨ b = 0x21#8
  | .binary g => (syncSeq s g).head? = some b

/-- No candidate is open: the state of 42_frame_synchronizer R102 between frames. -/
def betweenFrames (y : Sync) : Prop :=
  (y.sstate = .idle ∨ y.sstate = .seekingSync) ∧ y.fbuf = [] ∧ y.star = none ∧ y.plen = none

/-! ## Rejections (42_frame_synchronizer R104, R110, R111, R114 to R116) -/

/-- Reject(kind, C) of R104 for a kind that is an event: one DISCARD that counts every byte of C,
SeekingSync with nothing held and GARB 0, and every byte of C after the first handed back. -/
def rejectsWith (kind : DiscardKind) (c : List Byte) (r : StepResult) : Prop :=
  r.events = [.discard kind (BitVec.ofNat 32 c.length)] ∧ r.replay = c.tail ∧
  r.sync = { sstate := .seekingSync, fbuf := [], star := none, plen := none, garb := 0#32 }

/-- Reject(none, C) of R104, with Garbage() of R105: one more byte of garbage, and its DISCARD where that
reaches LOOKAHEAD. -/
def rejectsUnreported (s : State) (y : Sync) (c : List Byte) (r : StepResult) : Prop :=
  ∃ g : Word, g.toNat = (y.garb.toNat + 1) % 2 ^ 32 ∧ r.replay = c.tail ∧
    (s.lookahead = 0#32 ∨ g.toNat < s.lookahead.toNat → r.events = [] ∧
      r.sync = { sstate := .seekingSync, fbuf := [], star := none, plen := none, garb := g }) ∧
    (s.lookahead ≠ 0#32 → s.lookahead.toNat ≤ g.toNat → r.events = [.discard .framingError g] ∧
      r.sync = { sstate := .seekingSync, fbuf := [], star := none, plen := none, garb := 0#32 })

/-- The value of a checksum digit, in either case. -/
def digitValue (b : Byte) : Nat := (hexVal b).getD 0

/-- When StepAscii rejects, the byte `b` being the last of the candidate `c` (R110, R111). -/
def asciiRejects (s : State) (y : Sync) (b : Byte) (c : List Byte) : DiscardKind → Prop
  | .framingError =>
    (y.sstate = .accumulatingBody ∧ b ≠ 0x0D#8 ∧ b ≠ 0x0A#8 ∧
      (b = 0x24#8 ∨ b = 0x21#8 ∨ asciiMaxLen s < c.length)) ∨
    (y.sstate = .awaitingChecksum ∧ (hexVal b = none ∨ asciiMaxLen s < c.length))
  | .checksumMismatch =>
    y.sstate = .awaitingChecksum ∧ hexVal b ≠ none ∧ c.length ≤ asciiMaxLen s ∧
      ∃ star, y.star = some star ∧ c.length = star + 3 ∧
        (xor8 ((c.take star).drop 1)).toNat ≠
          16 * digitValue (c.getD (star + 1) 0#8) + digitValue (c.getD (star + 2) 0#8)

/-- A hunt for the sync sequence that already holds some of its bytes (R114). -/
def midSync (y : Sync) : Prop := (y.sstate = .idle ∨ y.sstate = .seekingSync) ∧ y.fbuf ≠ []

/-- The payload length a header declares (R117, R118, R119). -/
def declaredLength (s : State) (g : BinGrammar) (c : List Byte) : Nat :=
  match g with
  | .lenpfx => (frameByte c 4).toNat + 256 * (frameByte c 5).toNat
  | .bitpack => 256 * ((frameByte c 1).toNat % 4) + (frameByte c 2).toNat
  | .hdr32 => (frameByte c (h32LenOff s)).toNat + 256 * (frameByte c (h32LenOff s + 1)).toNat

/-- A header that HeaderDone() refuses (R115): a length out of bounds, a frame longer than FBUF_CAP, or
under BITPACK with BP_RSVD_CHK a reserved bit that is set (R118). -/
def badHeader (s : State) (g : BinGrammar) (c : List Byte) : Prop :=
  (g = .bitpack ∧ s.bpCfg.getLsbD 8 = true ∧ (frameByte c 1).toNat / 4 ≠ 0) ∨
  declaredLength s g c < payloadMin s g ∨ payloadMax s g < declaredLength s g c ∨
  s.impl.fbufCap < headerLen s g + declaredLength s g c + trailerLen g

/-- The four trailer bytes of a HDR32 frame from index `i`, in the byte order of SCFG.H32_TRL_BE
(R119). -/
def hdr32Trailer (s : State) (c : List Byte) (i : Nat) : Nat :=
  let t := fun k => (frameByte c (i + k)).toNat
  if s.scfg.getLsbD 8 then t 0 * 2 ^ 24 + t 1 * 2 ^ 16 + t 2 * 2 ^ 8 + t 3
  else t 0 + t 1 * 2 ^ 8 + t 2 * 2 ^ 16 + t 3 * 2 ^ 24

/-- A whole frame with a payload of `l` bytes whose integrity check fails (R116 to R119). -/
def badTrailer (s : State) (g : BinGrammar) (l : Nat) (c : List Byte) : Prop :=
  match g with
  | .lenpfx => sum2 ((c.drop 2).take (4 + l)) ≠ (frameByte c (6 + l), frameByte c (7 + l))
  | .bitpack => (crc24qBytes (c.take (3 + l))).toNat ≠
      (frameByte c (3 + l)).toNat * 2 ^ 16 + (frameByte c (4 + l)).toNat * 2 ^ 8 +
        (frameByte c (5 + l)).toNat
  | .hdr32 => (crc32 (presetWord s.impl.crc32Preset) (c.take (h32HdrLen s + l))).toNat ≠
      hdr32Trailer s c (h32HdrLen s + l)

/-- When StepBin rejects with an event, the byte `b` being the last of the candidate `c` (R114 to
R116). -/
def binRejects (s : State) (g : BinGrammar) (y : Sync) (b : Byte) (c : List Byte) : DiscardKind → Prop
  | .framingError =>
    (y.sstate = .accumulatingLength ∨
      (midSync y ∧ (syncSeq s g)[y.fbuf.length]? = some b ∧ c.length = (syncSeq s g).length)) ∧
    c.length = headerLen s g ∧ badHeader s g c
  | .checksumMismatch => y.sstate = .awaitingChecksum ∧
      ∃ l, y.plen = some l ∧ c.length = headerLen s g + l + trailerLen g ∧ badTrailer s g l c

/-- When a step abandons its candidate with a DISCARD of a kind. -/
def rejects (s : State) (y : Sync) (b : Byte) (kind : DiscardKind) : Prop :=
  match grammar s with
  | .ascii => asciiRejects s y b (y.fbuf ++ [b]) kind
  | .binary g => binRejects s g y b (y.fbuf ++ [b]) kind

/-- When a step abandons a sync sequence that breaks partway (R114). -/
def breaksSync (s : State) (y : Sync) (b : Byte) : Prop :=
  match grammar s with
  | .ascii => False
  | .binary g => midSync y ∧ (syncSeq s g)[y.fbuf.length]? ≠ some b

/-! ## Whole frames, as the wire layouts give them (42_frame_synchronizer R109 to R112, R117 to R119) -/

/-- `id` is the identifier of a payload (R112): its address field `a` ends before the first comma, or
with the payload; a proprietary or short address is all formatter, another one splits after its
2-character talker. -/
def isAsciiId (payload : List Byte) (id : MsgId) : Prop :=
  ∃ a : List Byte, (payload = a ∨ ∃ rest, payload = a ++ 0x2C#8 :: rest) ∧ 0x2C#8 ∉ a ∧
    ((∃ b rest, a = b :: rest ∧ (b = 0x50#8 ∨ b = 0x70#8)) → id = .ascii [] a) ∧
    ((∀ b rest, a = b :: rest → b ≠ 0x50#8 ∧ b ≠ 0x70#8) →
      (a.length < 3 → id = .ascii [] a) ∧
      ∀ c d formatter, a = c :: d :: formatter → formatter ≠ [] → id = .ascii [c, d] formatter)

/-- `bytes` is a whole ASCII sentence with two checksum digits that give the XOR of its payload, and `f`
the record it must give. -/
def asciiSentence (s : State) (bytes : List Byte) (f : Frame) : Prop :=
  ∃ (marker hi lo : Byte) (payload : List Byte) (h l : Nat),
    (marker = 0x24#8 ∨ marker = 0x21#8) ∧
    (∀ b ∈ payload, b ∉ [0x24#8, 0x21#8, 0x0D#8, 0x0A#8, 0x2A#8]) ∧
    payload.length + 4 ≤ asciiMaxLen s ∧ hexVal hi = some h ∧ hexVal lo = some l ∧
    (xor8 payload).toNat = 16 * h + l ∧ bytes = marker :: payload ++ [0x2A#8, hi, lo] ∧
    ∃ id, isAsciiId payload id ∧
      f = { proto := .ascii, id := id, poff := 1, plen := payload.length, valid := true,
            bytes := bytes }

/-- `sentence` is an ASCII sentence without a `*`, and `f` the record it must give when its line ending
arrives: not valid, the line ending not among its bytes (R110). -/
def asciiUnterminated (s : State) (sentence : List Byte) (f : Frame) : Prop :=
  ∃ (marker : Byte) (payload : List Byte),
    (marker = 0x24#8 ∨ marker = 0x21#8) ∧
    (∀ b ∈ payload, b ∉ [0x24#8, 0x21#8, 0x0D#8, 0x0A#8, 0x2A#8]) ∧
    payload.length + 1 ≤ asciiMaxLen s ∧ sentence = marker :: payload ∧
    ∃ id, isAsciiId payload id ∧
      f = { proto := .ascii, id := id, poff := 1, plen := payload.length, valid := false,
            bytes := sentence }

/-- The LENPFX bytes that the running sum covers: class, subclass, length, payload. -/
def lenpfxBody (cls subcls : Byte) (payload : List Byte) : List Byte :=
  [cls, subcls, BitVec.ofNat 8 payload.length, BitVec.ofNat 8 (payload.length / 256)] ++ payload

/-- `bytes` is a whole LENPFX frame, and `f` the record it must give. -/
def lenpfxWhole (s : State) (bytes : List Byte) (f : Frame) : Prop :=
  ∃ (cls subcls : Byte) (payload : List Byte),
    lpMin s ≤ payload.length ∧ payload.length ≤ lpMax s ∧ payload.length + 8 ≤ s.impl.fbufCap ∧
    bytes = [lpS0 s, lpS1 s] ++ lenpfxBody cls subcls payload ++
      [(sum2 (lenpfxBody cls subcls payload)).1, (sum2 (lenpfxBody cls subcls payload)).2] ∧
    f = { proto := .binary .lenpfx, id := .pair cls subcls, poff := 6, plen := payload.length,
          valid := true, bytes := bytes }

/-- The BITPACK bytes that the CRC covers: preamble, reserved bits, 10-bit length, payload. -/
def bitpackBody (s : State) (reserved : BitVec 6) (payload : List Byte) : List Byte :=
  [bpPre s, reserved ++ BitVec.ofNat 2 (payload.length / 256), BitVec.ofNat 8 payload.length] ++
    payload

/-- `bytes` is a whole BITPACK frame, and `f` the record it must give. -/
def bitpackWhole (s : State) (bytes : List Byte) (f : Frame) : Prop :=
  ∃ (reserved : BitVec 6) (payload : List Byte),
    (bpRsvdChk s = true → reserved = 0#6) ∧ bpMin s ≤ payload.length ∧
    payload.length ≤ bpMax s ∧ payload.length + 6 ≤ s.impl.fbufCap ∧
    bytes = bitpackBody s reserved payload ++
      [(crc24qBytes (bitpackBody s reserved payload)).extractLsb' 16 8,
       (crc24qBytes (bitpackBody s reserved payload)).extractLsb' 8 8,
       (crc24qBytes (bitpackBody s reserved payload)).extractLsb' 0 8] ∧
    f = { proto := .binary .bitpack
          id := if bpTypeBits s ≠ 0 ∧ bpTypeBits s ≤ 8 * payload.length
            then .typeCode (BitVec.ofNat 32 (frameBits payload 0 (bpTypeBits s))) else .none
          poff := 3, plen := payload.length, valid := true, bytes := bytes }

/-- The four bytes of a CRC-32, least significant first. -/
def littleEndian32 (c : Word) : List Byte :=
  [c.extractLsb' 0 8, c.extractLsb' 8 8, c.extractLsb' 16 8, c.extractLsb' 24 8]

/-- `bytes` is a whole HDR32 frame, its trailer in the byte order of SCFG.H32_TRL_BE, and `f` the
record it must give. -/
def hdr32Whole (s : State) (bytes : List Byte) (f : Frame) : Prop :=
  ∃ header payload : List Byte,
    header.length = h32HdrLen s ∧ (h32SyncBytes s).take (h32SyncLen s) <+: header ∧
    frameU16 header (h32LenOff s) = payload.length ∧ h32Min s ≤ payload.length ∧
    payload.length ≤ h32Max s ∧ header.length + payload.length + 4 ≤ s.impl.fbufCap ∧
    bytes = header ++ payload ++
      (if h32TrailerBigEndian s then (littleEndian32 (crc32 (crc32Preset s) (header ++ payload))).reverse
        else littleEndian32 (crc32 (crc32Preset s) (header ++ payload))) ∧
    f = { proto := .binary .hdr32
          id := .typeCode (BitVec.ofNat 32 (frameU16 header (h32IdOff s)))
          poff := header.length, plen := payload.length, valid := true, bytes := bytes }

/-- `bytes` is a whole valid frame of the selected grammar, and `f` the record it must give. -/
def wholeFrame (s : State) (bytes : List Byte) (f : Frame) : Prop :=
  match grammar s with
  | .ascii => asciiSentence s bytes f
  | .binary .lenpfx => lenpfxWhole s bytes f
  | .binary .bitpack => bitpackWhole s bytes f
  | .binary .hdr32 => hdr32Whole s bytes f

/-- The offset column of the register map (10_state R14). -/
def mapOffset : Reg → Nat
  | .cmd => 0x000
  | .status => 0x004
  | .arg0 => 0x008
  | .arg1 => 0x00C
  | .valLo => 0x010
  | .valHi => 0x014
  | .bitpos => 0x018
  | .clen => 0x01C
  | .resLo => 0x020
  | .resHi => 0x024
  | .fresLo => 0x028
  | .fresHi => 0x02C
  | .ckres => 0x030
  | .ckhex => 0x034
  | .navid => 0x038
  | .syncFlen => 0x03C
  | .scfg => 0x040
  | .lpSync => 0x044
  | .lpLim => 0x048
  | .bpCfg => 0x04C
  | .bpLim => 0x050
  | .h32Sync => 0x054
  | .h32Cfg => 0x058
  | .h32Lim => 0x05C
  | .asciiCfg => 0x060
  | .lookahead => 0x064
  | .garbage => 0x068
  | .navCfg0 => 0x070
  | .navCfg1 => 0x074
  | .navSfset => 0x078
  | .navWdset => 0x07C
  | .ktabLo k => 0x100 + 8 * k.val
  | .ktabHi k => 0x104 + 8 * k.val

/-- The reset column of the register map (10_state R14, R33, 70_reset_and_hazards R150). -/
def resetWord : Reg → Word
  | .ckhex => 0x00003030#32
  | .lpSync => 0x000062B5#32
  | .lpLim => 0xFFFF0003#32
  | .bpCfg => 0x000C00D3#32
  | .bpLim => 0x03FF0000#32
  | .h32Sync => 0x001244AA#32
  | .h32Cfg => 0x04081C03#32
  | .h32Lim => 0xFFFF0000#32
  | .asciiCfg => 0x00000400#32
  | .lookahead => 0x00000400#32
  | .navCfg0 => 0x00032B8B#32
  | .navCfg1 => 0x00000401#32
  | .navSfset => 0x0000003E#32
  | .navWdset => 0x0000FFFE#32
  | .ktabLo k => if k.val = 2 then 0xEB1C432D#32 else 0#32
  | .ktabHi k =>
    if k.val = 0 then 0x3F400000#32 else if k.val = 1 then 0x3EB00000#32
    else if k.val = 2 then 0x3F1A36E2#32 else 0#32
  | _ => 0#32

/-- The ten synchronizer configuration registers, offsets 0x040 to 0x064 (10_state R31). -/
def isSyncConfig (r : Reg) : Bool :=
  decide (r ∈ [Reg.scfg, .lpSync, .lpLim, .bpCfg, .bpLim, .h32Sync, .h32Cfg, .h32Lim, .asciiCfg,
    .lookahead])

/-- The registers a host write stores into and touches nothing else (10_state R14). -/
def isPlainRw (r : Reg) : Bool :=
  match r with
  | .arg0 | .arg1 | .valLo | .valHi | .navCfg0 | .navCfg1 | .navSfset | .navWdset => true
  | .ktabLo _ | .ktabHi _ => true
  | _ => false

/-- The read-only registers (10_state R14). -/
def isReadOnly (r : Reg) : Bool :=
  decide (r ∈ [Reg.resLo, .resHi, .fresLo, .fresHi, .ckres, .ckhex, .navid, .syncFlen, .garbage])

end Sys2Proof.Machine
end

