-- ==== Sys2Proof/Certificates/Slice0/Obligations.lean ====
section
/-! DEFINITION. The statements for the provers. Each docstring says which sentence of the spec it
formalises. -/

open Sys2Proof Sys2Proof.Machine Sys2Proof.Config

/-! ## Encoding (30_encoding) -/

/-- Decoding an encoded well-formed instruction gives it back (30_encoding R61, R64). -/
def Obligations.DecodeOfEncode : Prop :=
  ∀ i : Instr, i.wf = true → decode (encode i) = .ok i

/-- A word that decodes is the encoding of the instruction it decodes to, which is well formed:
every legal word has one meaning (30_encoding R60, R64). -/
def Obligations.EncodeOfDecode : Prop :=
  ∀ (w : Word) (i : Instr), decode w = .ok i → encode i = w ∧ i.wf = true

/-- R65: a word is illegal when one of (a) to (g) holds, it then changes nothing but STATUS whatever
else would fault, and every other word is a well-formed command. -/
def Obligations.IllegalWordsFault : Prop :=
  ∀ w : Word,
    (illegalWord w → ∀ (s : State) (rest : List HostInput), s.pending = commandInput w :: rest →
      step s = .next (faulted .illegalCommand { s with pending := rest })) ∧
    (¬ illegalWord w → ∃ i, decode w = .ok i ∧ i.wf = true)

/-- R69: the value of every command word, its worked encodings, and its four illegal words. -/
def Obligations.CommandWordValue : Prop :=
  (∀ i : Instr, (encode i).toNat = i.opcode.toNat * 2 ^ 24 + i.imm8.toNat * 2 ^ 16) ∧
  encode .nop = 0x00000000#32 ∧ encode (.rdu 1) = 0x10010000#32 ∧
  encode (.rdu 32) = 0x10200000#32 ∧ encode (.wru 10) = 0x110A0000#32 ∧
  encode (.rdsm 2) = 0x12020000#32 ∧ encode .rdx38 = 0x13000000#32 ∧
  encode (.scales 2) = 0x15020000#32 ∧ encode .crc32 = 0x22000000#32 ∧
  encode (.push 0x24) = 0x30240000#32 ∧ encode .sreset = 0x32000000#32 ∧
  encode (.navsf 3) = 0x40030000#32 ∧ encode (.navpar 1) = 0x42010000#32 ∧
  illegalWord 0x10000000#32 ∧ illegalWord 0x12010000#32 ∧ illegalWord 0x00000001#32 ∧
  illegalWord 0xFF000000#32 ∧ ∀ w, illegalWord w → ∃ e, decode w = .error e

/-- One word of each family, written out from the opcode map, decodes to its command
(95_test_vectors V60). A sanity statement. -/
def Obligations.SampleWordsDecode : Prop :=
  decode 0x00000000#32 = .ok .nop ∧ decode 0x100C0000#32 = .ok (.rdu 12) ∧
  decode 0x110A0000#32 = .ok (.wru 10) ∧ decode 0x160F0000#32 = .ok (.scalef 15) ∧
  decode 0x24000000#32 = .ok .crc24qb ∧ decode 0x30B50000#32 = .ok (.push 0xB5) ∧
  decode 0x41FF0000#32 = .ok (.navwd 255) ∧ decode 0x42010000#32 = .ok (.navpar 1)

/-! ## Steps, completion, faults -/

/-- A write to CMD executes the command encoded in the word (10_state R15), and every other access that
is not bad has its effect on the register or the bytes of the window at its offset (10_state R14, R35,
20_memory R50). The step serves the oldest pending input and moves past it, and with none pending
changes nothing: the queue of inputs, and the log of the values read, are the model's choice (logs 1
and 2). -/
def Obligations.StepRunsDecodedCommand : Prop :=
  (∀ (s : State) (w : Word) (rest : List HostInput) (i : Instr),
    s.pending = commandInput w :: rest → decode w = .ok i →
    i.wf = true ∧ step s = exec i { s with pending := rest }) ∧
  (∀ (s : State) (a : PortAccess) (rest : List HostInput),
    step { s with pending := .access a :: rest } = serveAccess a { s with pending := rest }) ∧
  (∀ s : State, s.pending = [] → step s = .next s) ∧
  (∀ (s : State) (v : Word),
    serveAccess (.write 32 0x000 v) s = runCommand v s ∧
    (∀ r, r ≠ .cmd → serveAccess (.write 32 (mapOffset r) v) s = .next (writeReg r v s)) ∧
    (∀ r, serveAccess (.read 32 (mapOffset r)) s =
      .next { s with readLog := s.readLog ++ [readReg s r] }) ∧
    ∀ i, i < s.impl.cbufCap →
      serveAccess (.write 8 (0x10000 + i) v) s = .next (portWrite (.cbufByte i) v s) ∧
      serveAccess (.read 8 (0x10000 + i)) s =
        .next { s with readLog := s.readLog ++ [(s.cbuf.read i).setWidth 32] } ∧
      (i % 4 = 0 →
        serveAccess (.write 32 (0x10000 + i) v) s = .next (portWrite (.cbufWord i) v s) ∧
        (i + 3 < s.impl.cbufCap → serveAccess (.read 32 (0x10000 + i)) s =
          .next { s with readLog := s.readLog ++ [s.cbuf.read (i + 3) ++ s.cbuf.read (i + 2) ++
            s.cbuf.read (i + 1) ++ s.cbuf.read i] })))

/-- "Every command completes, faulting or not" (60_exceptions R149), the synchronizer's loop
included (42_frame_synchronizer R108). So does every access, but the one configuration the spec
refuses, two agents at once (20_memory R55). -/
def Obligations.EveryStepCompletes : Prop :=
  (∀ (i : Instr) (s : State), ∃ t, exec i s = .next t) ∧
  (∀ s : State, (∀ a b, s.pending.head? ≠ some (.twoAgents a b)) → ∃ t, step s = .next t) ∧
  (∀ (s : State) (a b : PortAccess), s.pending.head? = some (.twoAgents a b) →
    step s = .refused .concurrentAccess)

/-- R136: the state after a fault is the state before it, except STATUS. A bad access does the same,
and a bad read returns 0 (kept in `readLog`, the model's own field, log 2). -/
def Obligations.FaultChangesOnlyStatus : Prop :=
  (∀ (w : Word) (s t : State), runCommand w s = .next t → t.lastErr ≠ .none →
    t = faulted t.lastErr s) ∧
  (∀ (s : State) (bits offset : Nat) (v : Word), portTarget s bits offset = .bad →
    serveAccess (.write bits offset v) s = .next (faulted .badAccess s) ∧
    serveAccess (.read bits offset) s =
      .next (faulted .badAccess { s with readLog := s.readLog ++ [0#32] }))

/-- R138: a command reports the first of its fault conditions, in the order IllegalCommand,
ConfigError, range, StructureMismatch, and none when none holds. -/
def Obligations.FirstFaultReported : Prop :=
  ∀ (w : Word) (s t : State), runCommand w s = .next t → t.lastErr = reportedFault w s

/-- R26: ERR_STICKY is set with every non-zero LAST_ERR. Writing 1 to STATUS bit 4 clears it, and so
does reset. No command clears it, and no step but those two does. -/
def Obligations.StickyErrorBit : Prop :=
  (∀ (w : Word) (s t : State), runCommand w s = .next t →
    t.errSticky = (s.errSticky || decide (t.lastErr ≠ .none))) ∧
  (∀ (bits offset : Nat) (s : State), portTarget s bits offset = .bad →
    (portRead bits offset s).errSticky = true ∧
      ∀ v, (portWrite (portTarget s bits offset) v s).errSticky = true) ∧
  (∀ (v : Word) (s : State),
    writeReg .status v s = { s with errSticky := s.errSticky && !v.getLsbD 4 }) ∧
  (∀ s : State, (blockReset s).errSticky = false) ∧ State.reset.errSticky = false ∧
  (∀ s t : State, step s = .next t → s.errSticky = true → t.errSticky = false →
    ∃ input rest, s.pending = input :: rest ∧ (input = .blockReset ∨
      ∃ v, presented s input = some (.write 32 0x004 v) ∧ v.getLsbD 4 = true))

/-- What no command writes, and what only some do (10_state R16, R17, R19 to R23, R28, R33, R34,
42_frame_synchronizer R124): the frame of every command at once. -/
def Obligations.CommandFrame : Prop :=
  ∀ (i : Instr) (s t : State), exec i s = .next t →
    (t.impl = s.impl ∧ t.arg0 = s.arg0 ∧ t.arg1 = s.arg1 ∧ t.val = s.val ∧ t.clen = s.clen ∧
      t.ktab = s.ktab ∧ t.pending = s.pending ∧ t.readLog = s.readLog) ∧
    (t.scfg = s.scfg ∧ t.lpSync = s.lpSync ∧ t.lpLim = s.lpLim ∧ t.bpCfg = s.bpCfg ∧
      t.bpLim = s.bpLim ∧ t.h32Sync = s.h32Sync ∧ t.h32Cfg = s.h32Cfg ∧ t.h32Lim = s.h32Lim ∧
      t.asciiCfg = s.asciiCfg ∧ t.lookahead = s.lookahead) ∧
    (t.navCfg0 = s.navCfg0 ∧ t.navCfg1 = s.navCfg1 ∧ t.navSfset = s.navSfset ∧
      t.navWdset = s.navWdset) ∧
    (t.res ≠ s.res → (∃ w, i = .rdu w) ∨ (∃ w, i = .rdsm w) ∨ i = .rdx38) ∧
    (t.fres ≠ s.fres → (∃ w, i = .rdsm w) ∨ i = .rdx38 ∨ (∃ k, i = .scaleu k) ∨
      (∃ k, i = .scales k) ∨ (∃ k, i = .scalef k)) ∧
    (t.bitpos ≠ s.bitpos → (∃ w, i = .rdu w) ∨ (∃ w, i = .wru w) ∨ (∃ w, i = .rdsm w) ∨ i = .rdx38) ∧
    (t.cbuf ≠ s.cbuf → ∃ w, i = .wru w) ∧
    (t.ckres ≠ s.ckres → i ∈ [Instr.xor8, .sum2, .crc32, .crc24q, .crc24qb]) ∧
    (t.ckhex ≠ s.ckhex → i = .xor8) ∧
    (t.navid ≠ s.navid → (∃ e, i = .navsf e) ∨ (∃ e, i = .navwd e)) ∧
    (t.evout ≠ s.evout → (∃ b, i = .push b) ∨ i = .pushn) ∧
    (t.sync ≠ s.sync → (∃ b, i = .push b) ∨ i = .pushn ∨ i = .sreset)

/-- Every command that touches CBUF touches only indices below CLEN (10_state R34): a command other
than WRU does the same on two buffers that agree on the view. -/
def Obligations.CommandsReadOnlyTheView : Prop :=
  ∀ (i : Instr) (s t : State) (m : Memory),
    (∀ a, a < s.clen.toNat → m.read a = s.cbuf.read a) → (∀ w, i ≠ .wru w) →
    exec i s = .next t → exec i { s with cbuf := m } = .next { t with cbuf := m }

/-! ## Codec (40_bitfield_codec) -/

/-- R73: RDU's words; RDU reads the field of `w` bits at BITPOS, by the formula of R8, and nothing
but RES, BITPOS and LAST_ERR changes; past the view it faults. -/
def Obligations.RduReadsField : Prop :=
  encodedWith 0x10#8 .rdu (fun w => 1 ≤ w ∧ w ≤ 32) ∧ ∀ (w : Byte) (s : State),
    (1 ≤ w.toNat → w.toNat ≤ 32 → s.bitpos.toNat + w.toNat ≤ 8 * s.clen.toNat →
      exec (.rdu w) s = .next { s with
        res := BitVec.ofNat 64 (fieldValue s.cbuf s.bitpos.toNat w.toNat)
        bitpos := BitVec.ofNat 32 (s.bitpos.toNat + w.toNat)
        lastErr := .none } ∧
      fieldValue s.cbuf s.bitpos.toNat w.toNat < 2 ^ w.toNat) ∧
    (1 ≤ w.toNat → w.toNat ≤ 32 → 8 * s.clen.toNat < s.bitpos.toNat + w.toNat →
      exec (.rdu w) s = .next (faulted .outOfRange s))

/-- R74: WRU's words; WRU puts the low `w` bits of VAL at BITPOS, most significant first. Every
other bit of CBUF, every byte outside the field's bytes and every other register is as before. -/
def Obligations.WruWritesField : Prop :=
  encodedWith 0x11#8 .wru (fun w => 1 ≤ w ∧ w ≤ 32) ∧ ∀ (w : Byte) (s : State),
    (1 ≤ w.toNat → w.toNat ≤ 32 → s.bitpos.toNat + w.toNat ≤ 8 * s.clen.toNat → s.cbuf.wf = true →
      ∃ m : Memory,
        exec (.wru w) s = .next { s with
          cbuf := m
          bitpos := BitVec.ofNat 32 (s.bitpos.toNat + w.toNat)
          lastErr := .none } ∧
        (∀ i, i < w.toNat →
          (m.read ((s.bitpos.toNat + i) / 8)).getLsbD (7 - (s.bitpos.toNat + i) % 8) =
            s.val.getLsbD (w.toNat - 1 - i)) ∧
        (∀ q, q < s.bitpos.toNat ∨ s.bitpos.toNat + w.toNat ≤ q →
          (m.read (q / 8)).getLsbD (7 - q % 8) = (s.cbuf.read (q / 8)).getLsbD (7 - q % 8)) ∧
        (∀ a, a < s.bitpos.toNat / 8 ∨ (s.bitpos.toNat + w.toNat - 1) / 8 < a →
          m.read a = s.cbuf.read a)) ∧
    (1 ≤ w.toNat → w.toNat ≤ 32 → 8 * s.clen.toNat < s.bitpos.toNat + w.toNat →
      exec (.wru w) s = .next (faulted .outOfRange s))

/-- R75: RDSM's words; RDSM gives the raw field in RES, and in FRES its first bit as the sign above
the encoding of its magnitude. -/
def Obligations.RdsmReadsSignMagnitude : Prop :=
  encodedWith 0x12#8 .rdsm (fun w => 2 ≤ w ∧ w ≤ 32) ∧ ∀ (w : Byte) (s : State),
    (2 ≤ w.toNat → w.toNat ≤ 32 → s.bitpos.toNat + w.toNat ≤ 8 * s.clen.toNat →
      exec (.rdsm w) s = .next { s with
        res := BitVec.ofNat 64 (fieldValue s.cbuf s.bitpos.toNat w.toNat)
        fres := BitVec.ofBool
            ((s.cbuf.read (s.bitpos.toNat / 8)).getLsbD (7 - s.bitpos.toNat % 8)) ++
          (f64 (fieldValue s.cbuf (s.bitpos.toNat + 1) (w.toNat - 1))).extractLsb' 0 63
        bitpos := BitVec.ofNat 32 (s.bitpos.toNat + w.toNat)
        lastErr := .none }) ∧
    (2 ≤ w.toNat → w.toNat ≤ 32 → 8 * s.clen.toNat < s.bitpos.toNat + w.toNat →
      exec (.rdsm w) s = .next (faulted .outOfRange s))

/-- R84: FRES is finite and has the sign of the field's first bit, is -0.0 exactly for 1 followed by
zeros, and is +0.0 exactly for a zero field. -/
def Obligations.SignMagnitudeSign : Prop :=
  ∀ (w : Byte) (s : State), 2 ≤ w.toNat → w.toNat ≤ 32 →
    s.bitpos.toNat + w.toNat ≤ 8 * s.clen.toNat →
    ∃ t, exec (.rdsm w) s = .next t ∧
      t.fres.getLsbD 63 =
        (s.cbuf.read (s.bitpos.toNat / 8)).getLsbD (7 - s.bitpos.toNat % 8) ∧
      (t.fres = 0x8000000000000000#64 ↔
        fieldValue s.cbuf s.bitpos.toNat w.toNat = 2 ^ (w.toNat - 1)) ∧
      (t.fres = 0#64 ↔ fieldValue s.cbuf s.bitpos.toNat w.toNat = 0) ∧
      f64Exp t.fres < 2047

/-- R76: RDX38's word; RDX38 gives the 38-bit two's-complement value at BITPOS, as an integer in RES
and as its binary64 value in FRES. -/
def Obligations.Rdx38ReadsExtended : Prop :=
  encodedPlain 0x13#8 .rdx38 ∧ ∀ s : State,
    (s.bitpos.toNat + 38 ≤ 8 * s.clen.toNat →
      ∃ v : Int,
        v = (if (s.cbuf.read (s.bitpos.toNat / 8)).getLsbD (7 - s.bitpos.toNat % 8)
          then (fieldValue s.cbuf s.bitpos.toNat 38 : Int) - 2 ^ 38
          else (fieldValue s.cbuf s.bitpos.toNat 38 : Int)) ∧
        -(2 ^ 37) ≤ v ∧ v ≤ 2 ^ 37 - 1 ∧
        exec .rdx38 s = .next { s with
          res := BitVec.ofInt 64 v
          fres := f64 v
          bitpos := BitVec.ofNat 32 (s.bitpos.toNat + 38)
          lastErr := .none }) ∧
    (8 * s.clen.toNat < s.bitpos.toNat + 38 → exec .rdx38 s = .next (faulted .outOfRange s))

/-- R82: SEEK p; WRUV w, v; SEEK p; RDU w gives v mod 2^w, for every width, value and start. CLEN is
at most CBUF_CAP, so at most 2^28 (00_scope R6, 10_state R19). -/
def Obligations.FieldRoundTrip : Prop :=
  ∀ (w : Byte) (v : DWord) (p : Word) (s : State), 1 ≤ w.toNat → w.toNat ≤ 32 →
    s.cbuf.wf = true → s.clen.toNat ≤ 2 ^ 28 → p.toNat + w.toNat ≤ 8 * s.clen.toNat →
    ∃ s' t, exec (.wru w) (setval v (seek p s)) = .next s' ∧ exec (.rdu w) (seek p s') = .next t ∧
      t.res.toNat = v.toNat % 2 ^ w.toNat ∧ t.bitpos.toNat = p.toNat + w.toNat

/-- R83: the 38-bit read is the two reads of 32 and 6 bits, side by side and sign-extended. CLEN is
at most CBUF_CAP, so at most 2^28 (00_scope R6, 10_state R19). -/
def Obligations.Rdx38IsTwoReads : Prop :=
  ∀ (p : Word) (s : State), s.clen.toNat ≤ 2 ^ 28 → p.toNat + 38 ≤ 8 * s.clen.toNat →
    ∃ t h l, exec .rdx38 (seek p s) = .next t ∧ exec (.rdu 32) (seek p s) = .next h ∧
      exec (.rdu 6) (seek (p + 32#32) h) = .next l ∧
      t.res = (BitVec.ofNat 38 (h.res.toNat * 2 ^ 6 + l.res.toNat)).signExtend 64

/-- R78, R79, R80: the scale commands' words; they multiply RES as unsigned, RES as signed, or FRES
by K[k], and write nothing but FRES and LAST_ERR. -/
def Obligations.ScaleCommandsMultiply : Prop :=
  encodedWith 0x14#8 .scaleu (fun k => k ≤ 15) ∧ encodedWith 0x15#8 .scales (fun k => k ≤ 15) ∧
  encodedWith 0x16#8 .scalef (fun k => k ≤ 15) ∧ ∀ (k : Byte) (s : State) (h : k.toNat < 16),
    exec (.scaleu k) s =
      .next { s with fres := mulf (f64 (s.res.toNat : Int)) (s.ktab[k.toNat]'h), lastErr := .none } ∧
    exec (.scales k) s =
      .next { s with fres := mulf (f64 s.res.toInt) (s.ktab[k.toNat]'h), lastErr := .none } ∧
    exec (.scalef k) s =
      .next { s with fres := mulf s.fres (s.ktab[k.toNat]'h), lastErr := .none }

/-- `f64` is exact when |n| <= 2^53 (R81): the encoding's significand and exponent give n. -/
def Obligations.F64ExactUpTo53Bits : Prop :=
  ∀ n : Int, n.natAbs ≤ 2 ^ 53 →
    f64Sign (f64 n) = decide (n < 0) ∧ f64Exp (f64 n) < 2047 ∧
      f64Signif (f64 n) * 2 ^ (f64Scale (f64 n) + 1074).toNat = n.natAbs * 2 ^ 1074

/-- R81: f64 of every integer, and mulf of every two finite numbers, is the exact value rounded to the
nearest finite encoding, to the even one on a tie, or to an infinity from the overflow bound on. The
sign of a product is the XOR of the operands' signs. So is the rounding of a shifted significand. -/
def Obligations.RoundingNearestEven : Prop :=
  (∀ n : Int, roundsTo (n : ℚ) (decide (n < 0)) (f64 n)) ∧
  (∀ a b : DWord, f64Exp a < 2047 → f64Exp b < 2047 →
    roundsTo (f64Value a * f64Value b) (f64Sign a ^^ f64Sign b) (mulf a b)) ∧
  ∀ m d : Nat,
    2 * m ≤ 2 * (roundShift m d * 2 ^ d) + 2 ^ d ∧ 2 * (roundShift m d * 2 ^ d) ≤ 2 * m + 2 ^ d ∧
    (2 * (m % 2 ^ d) = 2 ^ d → roundShift m d % 2 = 0)

/-- The product's special operands (R81): NaN in, or infinity times zero, gives the canonical NaN;
an infinity times anything else, and a zero times anything finite, keep their magnitude, with the
XOR of the signs. -/
def Obligations.MulfSpecialOperands : Prop :=
  ∀ a b : DWord,
    (f64IsNaN a = true ∨ f64IsNaN b = true → mulf a b = 0x7FF8000000000000#64) ∧
    (f64IsInf a = true → f64IsZero b = true →
      mulf a b = 0x7FF8000000000000#64 ∧ mulf b a = 0x7FF8000000000000#64) ∧
    (f64IsInf a = true → f64IsNaN b = false → f64IsZero b = false →
      mulf a b = BitVec.ofBool (f64Sign a ^^ f64Sign b) ++ 0x7FF0000000000000#63 ∧
      mulf b a = BitVec.ofBool (f64Sign a ^^ f64Sign b) ++ 0x7FF0000000000000#63) ∧
    (f64IsZero a = true → f64Exp b < 2047 →
      mulf a b = BitVec.ofBool (f64Sign a ^^ f64Sign b) ++ 0#63 ∧
      mulf b a = BitVec.ofBool (f64Sign a ^^ f64Sign b) ++ 0#63)

/-- The product of any number and 1.0 is that number, subnormals, zeros and infinities included
(R81). -/
def Obligations.MulfByOne : Prop :=
  ∀ a : DWord, f64IsNaN a = false → mulf a 0x3FF0000000000000#64 = a

/-! ## Checksums (41_checksum_engine) -/

/-- R87 with R86: XOR8's word; bit k of the XOR checksum is the parity of the bytes' bits k, CKHEX
holds its two uppercase digits, the high one in bits 7:0, and nothing else changes but LAST_ERR. -/
def Obligations.Xor8Checksum : Prop :=
  encodedPlain 0x20#8 .xor8 ∧ ∀ s : State,
    (s.arg0.toNat + s.arg1.toNat ≤ s.clen.toNat →
      ∃ c : Byte,
        (∀ k, k < 8 → c.getLsbD k = decide
          (((bytesAt s.cbuf s.arg0.toNat s.arg1.toNat).countP (fun d => d.getLsbD k)) % 2 = 1)) ∧
        exec .xor8 s = .next { s with
          ckres := BitVec.ofNat 32 c.toNat
          ckhex := BitVec.ofNat 32
            ((if c.toNat / 16 < 10 then 0x30 + c.toNat / 16 else 0x41 + (c.toNat / 16 - 10)) +
              2 ^ 8 * (if c.toNat % 16 < 10 then 0x30 + c.toNat % 16 else 0x41 + (c.toNat % 16 - 10)))
          lastErr := .none }) ∧
    (s.clen.toNat < s.arg0.toNat + s.arg1.toNat → exec .xor8 s = .next (faulted .outOfRange s))

/-- R89 with R88: SUM2's word; `a` is the sum of the bytes and `b` the sum of each byte times the
number of bytes from it to the end, both mod 256, and CKRES is {0x0000, b, a}. -/
def Obligations.Sum2Checksum : Prop :=
  encodedPlain 0x21#8 .sum2 ∧ ∀ s : State,
    (s.arg0.toNat + s.arg1.toNat ≤ s.clen.toNat →
      exec .sum2 s = .next { s with
        ckres := BitVec.ofNat 32
          ((∑ j ∈ Finset.range s.arg1.toNat, (s.cbuf.read (s.arg0.toNat + j)).toNat) % 256 +
            2 ^ 8 * ((∑ j ∈ Finset.range s.arg1.toNat,
              (s.arg1.toNat - j) * (s.cbuf.read (s.arg0.toNat + j)).toNat) % 256))
        lastErr := .none }) ∧
    (s.clen.toNat < s.arg0.toNat + s.arg1.toNat → exec .sum2 s = .next (faulted .outOfRange s))

/-- R91 and R93: the words of CRC32 and CRC24Q, which write CKRES with the function of the bytes
ARG0 to ARG0 + ARG1 - 1, and nothing else but LAST_ERR. -/
def Obligations.CrcOverBytes : Prop :=
  encodedPlain 0x22#8 .crc32 ∧ encodedPlain 0x23#8 .crc24q ∧ ∀ s : State,
    (s.arg0.toNat + s.arg1.toNat ≤ s.clen.toNat →
      exec .crc32 s = .next { s with
        ckres := crc32 (presetWord s.impl.crc32Preset) (bytesAt s.cbuf s.arg0.toNat s.arg1.toNat)
        lastErr := .none } ∧
      exec .crc24q s = .next { s with
        ckres := (crc24q ((List.range (8 * s.arg1.toNat)).map
          (fun j => streamBit s.cbuf.read (8 * s.arg0.toNat + j)))).setWidth 32
        lastErr := .none }) ∧
    (s.clen.toNat < s.arg0.toNat + s.arg1.toNat →
      exec .crc32 s = .next (faulted .outOfRange s) ∧ exec .crc24q s = .next (faulted .outOfRange s))

/-- R94: CRC24QB's word; it writes CKRES with CRC-24Q of the bits ARG0 to ARG0 + ARG1 - 1, at any
bit offset. -/
def Obligations.Crc24qOverBits : Prop :=
  encodedPlain 0x24#8 .crc24qb ∧ ∀ s : State,
    (s.arg0.toNat + s.arg1.toNat ≤ 8 * s.clen.toNat →
      exec .crc24qb s = .next { s with
        ckres := (crc24q ((List.range s.arg1.toNat).map
          (fun j => (s.cbuf.read ((s.arg0.toNat + j) / 8)).getLsbD
            (7 - (s.arg0.toNat + j) % 8)))).setWidth 32
        lastErr := .none }) ∧
    (8 * s.clen.toNat < s.arg0.toNat + s.arg1.toNat →
      exec .crc24qb s = .next (faulted .outOfRange s))

/-- Crc24q is the remainder of the message, shifted up by 24, on division by the polynomial of R92
over the two-element field. -/
def Obligations.Crc24qIsRemainder : Prop :=
  ∀ bits : List Bool,
    (∑ k ∈ Finset.range 24,
      (if (crc24q bits).getLsbD k then (Polynomial.X ^ k : Polynomial (ZMod 2)) else 0)) =
    ((∑ k ∈ Finset.range bits.length,
        (if bits.getD k false then
          (Polynomial.X ^ (bits.length - 1 - k) : Polynomial (ZMod 2)) else 0)) *
      Polynomial.X ^ 24) %ₘ
    (Polynomial.X ^ 24 + Polynomial.X ^ 23 + Polynomial.X ^ 18 + Polynomial.X ^ 17 +
      Polynomial.X ^ 14 + Polynomial.X ^ 11 + Polynomial.X ^ 10 + Polynomial.X ^ 7 +
      Polynomial.X ^ 6 + Polynomial.X ^ 5 + Polynomial.X ^ 4 + Polynomial.X ^ 3 +
      Polynomial.X + 1)

/-- R90: the presets are 0x00000000 and 0xFFFFFFFF; under both Crc32 is the remainder of the
message, bit-reflected and after its preset, on division by the polynomial 0xEDB88320 over the
two-element field. The empty input gives 0 under both; under preset 0 leading zero bytes do not
change the CRC, and a message followed by its CRC, least significant byte first, gives 0. -/
def Obligations.Crc32ResidueAndZeros : Prop :=
  presetWord .zeros = 0x00000000#32 ∧ presetWord .ones = 0xFFFFFFFF#32 ∧
  (∀ (p : Crc32Preset) (bytes : List Byte),
    crc32Remainder (presetWord p) bytes (crc32 (presetWord p) bytes)) ∧
  (∀ p : Crc32Preset, crc32 (presetWord p) [] = 0#32) ∧
  (∀ (n : Nat) (bytes : List Byte),
    crc32 0#32 (List.replicate n 0#8 ++ bytes) = crc32 0#32 bytes) ∧
  (∀ bytes : List Byte,
    crc32 0#32 (bytes ++ [(crc32 0#32 bytes).extractLsb' 0 8, (crc32 0#32 bytes).extractLsb' 8 8,
      (crc32 0#32 bytes).extractLsb' 16 8, (crc32 0#32 bytes).extractLsb' 24 8]) = 0#32)

/-! ## Synchronizer (42_frame_synchronizer) -/

/-- R101: ConfigLegal() is true exactly under the listed conditions; when it is false PUSH and PUSHN
fault with ConfigError and nothing else; a legal HDR32 configuration has H >= 2. The synchronizer's
fields are those of 10_state R31, and its grammar constants those of R96. -/
def Obligations.ConfigurationChecked : Prop :=
  ∀ s : State,
    (configLegal s = true ↔ legalConfiguration s) ∧
    (¬ legalConfiguration s →
      (∀ b, exec (.push b) s = .next (faulted .configError s)) ∧
      exec .pushn s = .next (faulted .configError s)) ∧
    (legalConfiguration s → s.scfg.toNat % 4 = 3 → 2 ≤ s.h32Cfg.toNat / 2 ^ 8 % 2 ^ 8) ∧
    fieldsAsTabled s

/-- R120: PUSH's words; under a legal configuration PUSH feeds its byte, and nothing changes but the
synchronizer, the events appended and LAST_ERR; under an illegal one it faults. -/
def Obligations.PushFeedsOneByte : Prop :=
  encodedWith 0x30#8 .push (fun _ => True) ∧ ∀ (b : Byte) (s : State),
    (configLegal s = true → ∃ y events, feed s s.sync b = some (y, events) ∧
      exec (.push b) s = .next { s with
        sync := y, evout := s.evout ++ events, lastErr := .none }) ∧
    (configLegal s = false → exec (.push b) s = .next (faulted .configError s))

/-- R121: PUSHN's word; under a legal configuration and with its range in the view, PUSHN feeds the
bytes in order, and nothing changes but the synchronizer, the events appended and LAST_ERR; else it
faults, on the configuration first. -/
def Obligations.PushnFeedsRange : Prop :=
  encodedPlain 0x31#8 .pushn ∧ ∀ s : State,
    (configLegal s = true → s.arg0.toNat + s.arg1.toNat ≤ s.clen.toNat →
      ∃ y events,
        feedAll s (bytesAt s.cbuf s.arg0.toNat s.arg1.toNat) s.sync = some (y, events) ∧
        exec .pushn s = .next { s with
          sync := y, evout := s.evout ++ events, lastErr := .none }) ∧
    (configLegal s = true → s.clen.toNat < s.arg0.toNat + s.arg1.toNat →
      exec .pushn s = .next (faulted .outOfRange s)) ∧
    (configLegal s = false → exec .pushn s = .next (faulted .configError s))

/-- PUSHN s, n equals PUSH CBUF[s] ... PUSH CBUF[s + n - 1] (R121). -/
def Obligations.PushnEqualsPushes : Prop :=
  ∀ s : State, configLegal s = true → s.arg0.toNat + s.arg1.toNat ≤ s.clen.toNat →
    exec .pushn s = pushEach (bytesAt s.cbuf s.arg0.toNat s.arg1.toNat) s

/-- R122: SRESET's word; SRESET performs the synchronizer reset, whatever the configuration, and
changes nothing else but LAST_ERR. -/
def Obligations.SresetResetsSynchronizer : Prop :=
  encodedPlain 0x32#8 .sreset ∧ ∀ s : State, exec .sreset s = .next { s with
    sync := { sstate := .idle, fbuf := [], star := none, plen := none, garb := 0#32 }
    lastErr := .none }

/-- A rejected candidate's bytes after its first are examined again as if pushed afresh, after the
events of the step that rejected it (R103, R104). A step rejects with a DISCARD of a kind exactly where
R110, R111, R115 and R116 say, and without one where a sync sequence breaks partway (R114); every other
step hands nothing back. -/
def Obligations.RejectedBytesAreFedAgain : Prop :=
  ∀ (s : State) (y : Sync) (b : Byte),
    feed s y b = (feedAll s (syncStep s y b).replay (syncStep s y b).sync).map
      (fun r => (r.1, (syncStep s y b).events ++ r.2)) ∧
    (∀ kind, rejects s y b kind → rejectsWith kind (y.fbuf ++ [b]) (syncStep s y b)) ∧
    (breaksSync s y b → rejectsUnreported s y (y.fbuf ++ [b]) (syncStep s y b)) ∧
    ((∀ kind, ¬ rejects s y b kind) → ¬ breaksSync s y b → (syncStep s y b).replay = [])

/-- With no candidate open, bytes that open none are counted, and one FramingError discard is
emitted per LOOKAHEAD bytes, or none when LOOKAHEAD is 0 (R105, R109, R114). -/
def Obligations.GarbageCountedToLookahead : Prop :=
  ∀ (s : State) (y : Sync) (bytes : List Byte), betweenFrames y → bytes ≠ [] →
    (∀ b ∈ bytes, ¬ opensCandidate s b) →
    (s.lookahead = 0#32 → feedAll s bytes y =
      some ({ y with sstate := .seekingSync, garb := y.garb + BitVec.ofNat 32 bytes.length }, [])) ∧
    (y.garb.toNat < s.lookahead.toNat → feedAll s bytes y =
      some ({ y with
          sstate := .seekingSync
          garb := BitVec.ofNat 32 ((y.garb.toNat + bytes.length) % s.lookahead.toNat) },
        List.replicate ((y.garb.toNat + bytes.length) / s.lookahead.toNat)
          (.discard .framingError s.lookahead)))

/-- A whole ASCII sentence whose two digits give the XOR of its payload is emitted on its last byte, as
the one event, with the identifier of R112 (R109 to R112, R123 (a)). One that reaches CR or LF before
any `*` is emitted on that byte as not valid (R110). The digits are hex digits in either case. -/
def Obligations.AsciiSentenceEmitted : Prop :=
  (∀ (b : Byte) (v : Nat), hexVal b = some v ↔ hexDigitIs b v) ∧
  ∀ (s : State) (y : Sync) (bytes : List Byte) (f : Frame),
    grammar s = .ascii → betweenFrames y →
    (asciiSentence s bytes f → feedAll s bytes y = some (syncResetState, [.frame f])) ∧
    (asciiUnterminated s bytes f → ∀ ending : Byte, ending = 0x0D#8 ∨ ending = 0x0A#8 →
      feedAll s (bytes ++ [ending]) y = some (syncResetState, [.frame f]))

/-- A whole LENPFX frame is emitted on its last byte, as the one event (R114 to R117, R123 (a)). -/
def Obligations.LenpfxFrameEmitted : Prop :=
  ∀ (s : State) (y : Sync) (bytes : List Byte) (f : Frame),
    grammar s = .binary .lenpfx → betweenFrames y → lenpfxWhole s bytes f →
    feedAll s bytes y = some (syncResetState, [.frame f])

/-- A whole BITPACK frame is emitted on its last byte, as the one event (R114 to R116, R118, R123
(a)). -/
def Obligations.BitpackFrameEmitted : Prop :=
  ∀ (s : State) (y : Sync) (bytes : List Byte) (f : Frame),
    grammar s = .binary .bitpack → configLegal s = true → betweenFrames y → bitpackWhole s bytes f →
    feedAll s bytes y = some (syncResetState, [.frame f])

/-- A whole HDR32 frame is emitted on its last byte, as the one event (R114 to R116, R119, R123
(a)). -/
def Obligations.Hdr32FrameEmitted : Prop :=
  ∀ (s : State) (y : Sync) (bytes : List Byte) (f : Frame),
    grammar s = .binary .hdr32 → configLegal s = true → betweenFrames y → hdr32Whole s bytes f →
    feedAll s bytes y = some (syncResetState, [.frame f])

/-- Resynchronisation (R123 (a) and (b)): for a valid frame, bytes that hold no start-marker byte,
and a valid frame, pushed from state Idle, the events are the first frame, then one lookahead
discard per LOOKAHEAD bytes, then the second frame. -/
def Obligations.ResynchronisedAfterGarbage : Prop :=
  ∀ (s : State) (first garbage last : List Byte) (f g : Frame), configLegal s = true →
    wholeFrame s first f → wholeFrame s last g → (∀ b ∈ garbage, ¬ opensCandidate s b) →
    feedAll s (first ++ garbage ++ last) syncResetState = some (syncResetState,
      [.frame f] ++
      List.replicate (if s.lookahead = 0#32 then 0 else garbage.length / s.lookahead.toNat)
        (.discard .framingError s.lookahead) ++
      [.frame g])

/-- R124: only PUSH, PUSHN, SRESET, a host write to offsets 0x040 to 0x064 and block reset change the
synchronizer's state; no fault does. -/
def Obligations.SynchronizerIsolated : Prop :=
  (∀ (s t : State) (input : HostInput) (rest : List HostInput),
    s.pending = input :: rest → step s = .next t → t.sync ≠ s.sync →
    input = .blockReset ∨
    (∃ w i, presented s input = some (.write 32 0x000 w) ∧ decode w = .ok i ∧
      ((∃ b, i = .push b) ∨ i = .pushn ∨ i = .sreset)) ∨
    (∃ offset v, presented s input = some (.write 32 offset v) ∧ 0x040 ≤ offset ∧
      offset ≤ 0x064 ∧ offset % 4 = 0)) ∧
  (∀ (w : Word) (s t : State), runCommand w s = .next t → t.lastErr ≠ .none → t.sync = s.sync)

/-- EVOUT is append-only (10_state R41): every step but a block reset only appends to it, and a
command that faults appends nothing. -/
def Obligations.EventStreamAppendOnly : Prop :=
  (∀ s t : State, s.pending.head? ≠ some .blockReset → step s = .next t →
    ∃ events, t.evout = s.evout ++ events) ∧
  (∀ (w : Word) (s t : State), runCommand w s = .next t → t.lastErr ≠ .none → t.evout = s.evout)

/-! ## Navigation and NOP (43_nav_validator) -/

/-- R127: NAVSF's words; NAVSF under a legal configuration, in a unit that fits, with the preamble,
a valid id and the expected id, writes the id to NAVID and nothing else but LAST_ERR; otherwise it
faults in the order of its checks. -/
def Obligations.NavsfValidates : Prop :=
  encodedWith 0x40#8 .navsf (fun _ => True) ∧ ∀ (e : Byte) (s : State),
    let off := s.navCfg0.toNat / 2 ^ 8 % 2 ^ 8
    let width := s.navCfg0.toNat / 2 ^ 16 % 2 ^ 3
    let legal := 1 ≤ width ∧ width ≤ 5 ∧ off + width ≤ 240
    let id := fieldValue s.cbuf (8 * s.arg0.toNat + off) width
    let matched := s.cbuf.read s.arg0.toNat = s.navCfg0.extractLsb' 0 8 ∧
      s.navSfset.getLsbD id = true ∧ (e.toNat = 0 ∨ id = e.toNat)
    (legal → s.arg0.toNat + 30 ≤ s.clen.toNat → matched →
      exec (.navsf e) s = .next { s with navid := BitVec.ofNat 32 id, lastErr := .none }) ∧
    (¬ legal → exec (.navsf e) s = .next (faulted .configError s)) ∧
    (legal → s.clen.toNat < s.arg0.toNat + 30 → exec (.navsf e) s = .next (faulted .truncatedInput s)) ∧
    (legal → s.arg0.toNat + 30 ≤ s.clen.toNat → ¬ matched →
      exec (.navsf e) s = .next (faulted .structureMismatch s))

/-- R128: NAVWD's words; NAVWD under a legal configuration, in a unit that fits, with a valid and
expected id, writes the id to NAVID and nothing else but LAST_ERR; otherwise it faults in the order
of its checks. -/
def Obligations.NavwdValidates : Prop :=
  encodedWith 0x41#8 .navwd (fun _ => True) ∧ ∀ (e : Byte) (s : State),
    let off := s.navCfg1.toNat % 2 ^ 8
    let width := s.navCfg1.toNat / 2 ^ 8 % 2 ^ 3
    let legal := 1 ≤ width ∧ width ≤ 5 ∧ off + width ≤ 88
    let id := fieldValue s.cbuf (8 * s.arg0.toNat + off) width
    let matched := s.navWdset.getLsbD id = true ∧ (e.toNat = 0 ∨ id = e.toNat)
    (legal → s.arg0.toNat + 11 ≤ s.clen.toNat → matched →
      exec (.navwd e) s = .next { s with navid := BitVec.ofNat 32 id, lastErr := .none }) ∧
    (¬ legal → exec (.navwd e) s = .next (faulted .configError s)) ∧
    (legal → s.clen.toNat < s.arg0.toNat + 11 → exec (.navwd e) s = .next (faulted .truncatedInput s)) ∧
    (legal → s.arg0.toNat + 11 ≤ s.clen.toNat → ¬ matched →
      exec (.navwd e) s = .next (faulted .structureMismatch s))

/-- R130: NAVPAR's words; NAVPAR on a unit that fits completes when the parity predicate holds and
raises StructureMismatch when it does not; no register but STATUS is written. With the predicate
left open this holds whatever it is (log 4). -/
def Obligations.NavparChecksParity : Prop :=
  encodedWith 0x42#8 .navpar (fun u => u ≤ 1) ∧ ∀ (u : Byte) (s : State) (kind : UnitKind) (n : Nat),
    ((u = 0 ∧ kind = .word ∧ n = 11) ∨ (u = 1 ∧ kind = .subframe ∧ n = 30)) →
    let parity := match s.impl.navParity with
      | .openPredicate => navParity kind (bytesAt s.cbuf s.arg0.toNat n)
      | .const b => b
    (s.arg0.toNat + n ≤ s.clen.toNat → parity = true →
      exec (.navpar u) s = .next { s with lastErr := .none }) ∧
    (s.arg0.toNat + n ≤ s.clen.toNat → parity = false →
      exec (.navpar u) s = .next (faulted .structureMismatch s)) ∧
    (s.clen.toNat < s.arg0.toNat + n → exec (.navpar u) s = .next (faulted .truncatedInput s))

/-- R131: NOP's word; NOP sets LAST_ERR to 0 and does nothing else, ERR_STICKY included. -/
def Obligations.NopClearsLastErr : Prop :=
  encodedPlain 0x00#8 .nop ∧ ∀ s : State, exec .nop s = .next { s with lastErr := .none }

/-! ## Host port (10_state, 20_memory) -/

/-- What each access reaches (10_state R14, R35). That an access inside a register's four bytes, but
not at its offset, is bad and one outside every register is not, is read from R35 and V55 (log 8). An
access at an address of the platform is the access at its offset from BLOCK_BASE where the window spans
the address, and elsewhere does not reach the block (20_memory R52, log 15). -/
def Obligations.AccessTargets : Prop :=
  ∀ s : State,
    (∀ r, regOffset r = mapOffset r) ∧ (∀ r, portTarget s 32 (regOffset r) = .reg r) ∧
    (∀ r k, 1 ≤ k → k ≤ 3 → ∀ bits, portTarget s bits (regOffset r + k) = .bad) ∧
    (∀ r bits, bits ≠ 32 → portTarget s bits (regOffset r) = .bad) ∧
    (∀ offset bits, offset < 0x10000 → (∀ r, offset / 4 * 4 ≠ regOffset r) →
      portTarget s bits offset = .unmapped) ∧
    (∀ i, i < s.impl.cbufCap →
      portTarget s 8 (0x10000 + i) = .cbufByte i ∧
      (i % 4 = 0 → portTarget s 32 (0x10000 + i) = .cbufWord i) ∧
      (i % 4 ≠ 0 → portTarget s 32 (0x10000 + i) = .bad) ∧
      (∀ bits, bits ≠ 8 → bits ≠ 32 → portTarget s bits (0x10000 + i) = .bad)) ∧
    (∀ bits i, s.impl.cbufCap ≤ i → portTarget s bits (0x10000 + i) = .unmapped) ∧
    (∀ bits offset data rest, offset < 0x10000 + s.impl.cbufCap →
      step { s with pending := .addressed bits (baseAddress s + offset) data :: rest } =
        step { s with pending := .access (accessAt bits offset data) :: rest }) ∧
    (∀ bits address data rest,
      address < baseAddress s ∨ baseAddress s + 0x10000 + s.impl.cbufCap ≤ address →
      step { s with pending := .addressed bits address data :: rest } =
        .next { s with pending := rest })

/-- A host read that is not bad changes nothing of the block and returns the value it reaches, and an
unmapped access reads 0 and ignores writes (20_memory R50, 10_state R14, R35). The returned value goes
to `readLog`, the model's own field (log 2). The read image of the registers: STATUS has LAST_ERR in
3:0, ERR_STICKY in 4 and SYNC_STATE in 10:8 (R24, R27, 60_exceptions R135), CMD reads 0, SYNC_FLEN and
GARBAGE read |FBUF| and GARB (R29, R30), a 64-bit register is its _HI word above its _LO word, and each
other register reads its own state (R16, R18, R19, R22, R23, R28), a configuration register with its
reserved bits 0 (R31, R32). -/
def Obligations.ReadsHaveNoSideEffect : Prop :=
  ∀ (s : State),
    (∀ bits offset : Nat,
      (portTarget s bits offset ≠ .bad → serveAccess (.read bits offset) s =
        .next { s with readLog := s.readLog ++ [portValue s (portTarget s bits offset)] }) ∧
      (portTarget s bits offset = .unmapped →
        serveAccess (.read bits offset) s = .next { s with readLog := s.readLog ++ [0#32] } ∧
        ∀ v, serveAccess (.write bits offset v) s = .next s)) ∧
    (∀ r, portValue s (.reg r) = readReg s r) ∧
    (readReg s .status).toNat = errNumber s.lastErr + 2 ^ 4 * s.errSticky.toNat +
      2 ^ 8 * parserNumber s.sync.sstate ∧
    readReg s .cmd = 0#32 ∧
    (readReg s .syncFlen).toNat = s.sync.fbuf.length % 2 ^ 32 ∧ readReg s .garbage = s.sync.garb ∧
    readReg s .resHi ++ readReg s .resLo = s.res ∧ readReg s .fresHi ++ readReg s .fresLo = s.fres ∧
    readReg s .valHi ++ readReg s .valLo = s.val ∧
    (∀ k, readReg s (.ktabHi k) ++ readReg s (.ktabLo k) = s.ktab.get k) ∧
    readReg s .ckres = s.ckres ∧ readReg s .ckhex = s.ckhex ∧ readReg s .navid = s.navid ∧
    readReg s .arg0 = s.arg0 ∧ readReg s .arg1 = s.arg1 ∧ readReg s .bitpos = s.bitpos ∧
    readReg s .clen = s.clen ∧
    readReg s .scfg = s.scfg &&& 0x00000103#32 ∧ readReg s .lpSync = s.lpSync &&& 0x0000FFFF#32 ∧
    readReg s .lpLim = s.lpLim ∧ readReg s .bpCfg = s.bpCfg &&& 0x003F01FF#32 ∧
    readReg s .bpLim = s.bpLim &&& 0x03FF03FF#32 ∧ readReg s .h32Sync = s.h32Sync ∧
    readReg s .h32Cfg = s.h32Cfg &&& 0xFFFFFF07#32 ∧ readReg s .h32Lim = s.h32Lim ∧
    readReg s .asciiCfg = s.asciiCfg &&& 0x0000FFFF#32 ∧ readReg s .lookahead = s.lookahead ∧
    readReg s .navCfg0 = s.navCfg0 &&& 0x0007FFFF#32 ∧
    readReg s .navCfg1 = s.navCfg1 &&& 0x000007FF#32 ∧ readReg s .navSfset = s.navSfset ∧
    readReg s .navWdset = s.navWdset

/-- The register map's access column (10_state R14, 20_memory R50): a plain register reads back what was
written, its reserved bits 0, and no other register changes, nor CBUF, EVOUT, the synchronizer or an
error bit; a read-only register ignores writes. -/
def Obligations.RegisterWritesReadBack : Prop :=
  ∀ (r : Reg) (v : Word) (s : State),
    let t := writeReg r v s
    (isPlainRw r = true → readReg t r = v &&& namedBits r ∧
      (∀ r', r' ≠ r → readReg t r' = readReg s r') ∧
      t.cbuf = s.cbuf ∧ t.evout = s.evout ∧ t.sync = s.sync ∧ t.lastErr = s.lastErr ∧
      t.errSticky = s.errSticky ∧ t.impl = s.impl ∧ t.pending = s.pending ∧
      t.readLog = s.readLog) ∧
    (isReadOnly r = true → t = s)

/-- R18 and R19, the clamps: a BITPOS write stores min(v, 8 * CLEN); a CLEN write stores min(v,
CBUF_CAP) and pulls BITPOS down to 8 * CLEN; nothing else changes. -/
def Obligations.CursorAndViewClamp : Prop :=
  ∀ (v : Word) (s : State),
    (∃ p : Word, p.toNat = min v.toNat (8 * s.clen.toNat) ∧
      writeReg .bitpos v s = { s with bitpos := p }) ∧
    (∃ n p : Word, n.toNat = min v.toNat s.impl.cbufCap ∧
      p.toNat = min s.bitpos.toNat (8 * n.toNat) ∧
      writeReg .clen v s = { s with clen := n, bitpos := p })

/-- R31: a host write to a register at 0x040 to 0x064 stores the value, reserved bits apart, then
resets the synchronizer, even when the value is the old one; LAST_ERR and ERR_STICKY stay (R25, R26,
R107), and nothing else the host can read changes. -/
def Obligations.ConfigWriteResetsSynchronizer : Prop :=
  (∀ r, isSyncConfig r = true ↔ 0x040 ≤ regOffset r ∧ regOffset r ≤ 0x064) ∧
  (∀ (r : Reg) (v : Word) (s : State), isSyncConfig r = true →
    let t := writeReg r v s
    t.sync = syncResetState ∧ readReg t r = v &&& namedBits r ∧ t.evout = s.evout ∧
    t.cbuf = s.cbuf ∧ t.lastErr = s.lastErr ∧ t.errSticky = s.errSticky ∧ t.impl = s.impl ∧
    t.pending = s.pending ∧ t.readLog = s.readLog ∧
    ∀ r', r' ≠ r → r' ≠ .status → r' ≠ .syncFlen → r' ≠ .garbage →
      readReg t r' = readReg s r')

/-- R45: the CBUF window is little-endian, and accesses of both widths see one byte array. A write of
either width changes its own bytes of CBUF and nothing else. -/
def Obligations.WindowIsLittleEndian : Prop :=
  ∀ (s : State) (i : Nat) (v : Word), s.cbuf.wf = true →
    (i + 3 < s.impl.cbufCap →
      let t := portWrite (.cbufWord i) v s
      (∀ k, k < 4 → portValue t (.cbufByte (i + k)) = (v.extractLsb' (8 * k) 8).setWidth 32) ∧
      portValue t (.cbufWord i) = v ∧
      (∀ a, a < i ∨ i + 4 ≤ a → t.cbuf.read a = s.cbuf.read a) ∧
      (∀ (k : Nat) (b : Word), k < 4 →
        portValue (portWrite (.cbufByte (i + k)) b t) (.cbufByte (i + k)) =
          (b.extractLsb' 0 8).setWidth 32) ∧
      t = { s with cbuf := t.cbuf } ∧
      ∀ b0 b1 b2 b3 : Word,
        portValue (portWrite (.cbufByte (i + 3)) b3 (portWrite (.cbufByte (i + 2)) b2
          (portWrite (.cbufByte (i + 1)) b1 (portWrite (.cbufByte i) b0 s)))) (.cbufWord i) =
        b3.extractLsb' 0 8 ++ b2.extractLsb' 0 8 ++ b1.extractLsb' 0 8 ++ b0.extractLsb' 0 8) ∧
    (i < s.impl.cbufCap →
      let t := portWrite (.cbufByte i) v s
      t.cbuf.read i = v.extractLsb' 0 8 ∧ (∀ a, a ≠ i → t.cbuf.read a = s.cbuf.read a) ∧
      t = { s with cbuf := t.cbuf })

/-! ## Reset (70_reset_and_hazards) -/

/-- R150: at block reset every piece of the block's state takes its reset value. What belongs to the
host or the implementation stays (log 7). -/
def Obligations.BlockResetValues : Prop :=
  ∀ (s : State) (rest : List HostInput), s.pending = .blockReset :: rest →
    ∃ t, step s = .next t ∧ (∀ r, readReg t r = resetWord r) ∧ (∀ a, t.cbuf.read a = 0#8) ∧
      t.sync = { sstate := .idle, fbuf := [], star := none, plen := none, garb := 0#32 } ∧
      t.evout = [] ∧ t.impl = s.impl ∧ t.pending = rest ∧ t.readLog = s.readLog

/-! ## Invariants every step keeps -/

/-- The reset state meets every invariant below. -/
def Obligations.ResetMeetsInvariants : Prop :=
  implLegal State.reset.impl ∧ memoryInv State.reset ∧ cursorInv State.reset ∧
    registerInv State.reset ∧ syncInv State.reset ∧ evoutSound State.reset

/-- Every step keeps CBUF canonical and inside CBUF_CAP, and keeps BITPOS <= 8 * CLEN and CLEN <=
CBUF_CAP (10_state R18, R19, R34). -/
def Obligations.StepKeepsMemoryAndCursor : Prop :=
  ∀ s t : State, memoryInv s → cursorInv s → step s = .next t → memoryInv t ∧ cursorInv t

/-- Every step keeps the reserved bits of every register 0, CKHEX two characters and NAVID an id of
at most 5 bits (10_state R14, R23, 43_nav_validator R126). -/
def Obligations.StepKeepsRegisters : Prop :=
  ∀ s t : State, registerInv s → step s = .next t → registerInv t

/-- Every step keeps the synchronizer's invariants, and FBUF within FBUF_CAP (10_state R40,
42_frame_synchronizer R102). Under an illegal configuration the invariant is the model's reading
(log 19). -/
def Obligations.StepKeepsSynchronizer : Prop :=
  ∀ s t : State, implLegal s.impl → syncInv s → step s = .next t →
    syncInv t ∧ t.sync.fbuf.length ≤ t.impl.fbufCap

/-- Every FRAME with valid = true has passed its grammar's integrity check, and only the ASCII grammar
emits one with valid = false (42_frame_synchronizer R97). A FRAME that a step appends is of the selected
grammar, and a HDR32 one has its CRC-32 in the byte order that SCFG.H32_TRL_BE selects (R119). -/
def Obligations.StepKeepsFramesSound : Prop :=
  ∀ s t : State, syncInv s → evoutSound s → step s = .next t → evoutSound t ∧
    ∀ events f, t.evout = s.evout ++ events → .frame f ∈ events → f.proto = grammar s ∧
      (f.proto = .binary .hdr32 →
        (crc32 (presetWord s.impl.crc32Preset) (f.bytes.take (f.poff + f.plen))).toNat =
          hdr32Trailer s f.bytes (f.poff + f.plen))
end

