-- ==== Sys2Proof/Laws/Encoding.lean ====
section
/-! SUPPORT. The laws of a command word's fields and of the rows of the opcode map. -/

namespace Sys2Proof

/-- A bit of a word laid out as {OP, IMM8, RSV}. -/
theorem getLsbD_word (op imm : Byte) (r : BitVec 16) (i : Nat) :
    BitVec.getLsbD (w := 32) (op ++ imm ++ r) i =
      if i < 16 then r.getLsbD i
      else if i < 24 then imm.getLsbD (i - 16) else op.getLsbD (i - 24) := by
  have h := BitVec.getLsbD_append (x := op ++ imm) (y := r) (i := i)
  have h' := BitVec.getLsbD_append (x := op) (y := imm) (i := i - 16)
  rw [h'] at h
  refine h.trans ?_
  split_ifs <;> first | rfl | omega

theorem opField_append (op imm : Byte) (r : BitVec 16) : opField (op ++ imm ++ r) = op := by
  ext i hi
  rw [opField, BitVec.getElem_extractLsb', getLsbD_word, if_neg (by omega), if_neg (by omega),
    ← BitVec.getLsbD_eq_getElem, Nat.add_sub_cancel_left]

theorem immField_append (op imm : Byte) (r : BitVec 16) : immField (op ++ imm ++ r) = imm := by
  ext i hi
  rw [immField, BitVec.getElem_extractLsb', getLsbD_word, if_neg (by omega), if_pos (by omega),
    ← BitVec.getLsbD_eq_getElem, Nat.add_sub_cancel_left]

theorem rsvField_append (op imm : Byte) (r : BitVec 16) : rsvField (op ++ imm ++ r) = r := by
  ext i hi
  rw [rsvField, BitVec.getElem_extractLsb', getLsbD_word, if_pos (by omega),
    ← BitVec.getLsbD_eq_getElem, Nat.zero_add]

/-- A word is its three fields side by side: the layout loses no bit. -/
theorem word_eq_fields (w : Word) : opField w ++ immField w ++ rsvField w = w := by
  refine BitVec.eq_of_getLsbD_eq fun i hi => ?_
  rw [getLsbD_word]
  simp only [opField, immField, rsvField, BitVec.getLsbD_extractLsb']
  split_ifs with h1 h2
  · simp [h1]
  · have : i - 16 < 8 := by omega
    simp only [this, decide_true, Bool.true_and]
    congr 1
    omega
  · have : i - 24 < 8 := by omega
    simp only [this, decide_true, Bool.true_and]
    congr 1
    omega

theorem opField_toNat (w : Word) : (opField w).toNat = w.toNat / 2 ^ 24 := by
  simp only [opField, BitVec.extractLsb'_toNat, Nat.shiftRight_eq_div_pow]
  omega

theorem immField_toNat (w : Word) : (immField w).toNat = w.toNat / 2 ^ 16 % 2 ^ 8 := by
  simp only [immField, BitVec.extractLsb'_toNat, Nat.shiftRight_eq_div_pow]

theorem rsvField_toNat (w : Word) : (rsvField w).toNat = w.toNat % 2 ^ 16 := by
  simp [rsvField, BitVec.extractLsb'_toNat]

/-- No opcode has two rows. -/
theorem opRows_distinct : (opRows.map (fun r => r.op)).Nodup := by decide

/-- The row of an instruction's opcode is the one that builds it from its IMM8. -/
theorem opRows_find_opcode (i : Instr) : ∃ r, opRows.find? (fun r => r.op == i.opcode) = some r ∧
    r.admits i.imm8 = i.wf ∧ r.build i.imm8 = i := by
  cases i <;> exact ⟨_, rfl, rfl, rfl⟩

/-- What a row builds from an IMM8 it admits. -/
theorem opRows_build {r : OpRow} (hr : r ∈ opRows) {imm : Byte} (h : r.admits imm = true) :
    (r.build imm).opcode = r.op ∧ (r.build imm).imm8 = imm ∧ (r.build imm).wf = true := by
  simp only [opRows, List.mem_cons, List.not_mem_nil, or_false] at hr
  rcases hr with rfl | rfl | rfl | rfl | rfl | rfl | rfl | rfl | rfl | rfl | rfl | rfl | rfl | rfl |
    rfl | rfl | rfl | rfl | rfl <;>
  simp_all [OpRow.plain, Instr.opcode, Instr.imm8, Instr.wf]

/-- One inversion lemma for the decoder: a decoded word has RSV 0, and its row built the instruction. -/
theorem decode_ok_cases {w : Word} {i : Instr} (h : decode w = .ok i) :
    rsvField w = 0#16 ∧ ∃ r ∈ opRows, r.op = opField w ∧ r.admits (immField w) = true ∧
      i = r.build (immField w) := by
  unfold decode at h
  split_ifs at h with h1
  split at h
  · cases h
  · next r hr =>
    split_ifs at h with h2
    cases h
    exact ⟨not_ne_iff.mp h1, r, List.mem_of_find?_eq_some hr,
      by simpa using List.find?_some hr, h2, rfl⟩

end Sys2Proof
end

