-- ==== Sys2Proof/Laws/Memory.lean ====
section
/-! SUPPORT. The laws of the byte memory and of MSB-first bit fields: reading after writing, frames,
and that every memory operation keeps the canonical form. -/

namespace Sys2Proof.Machine

/-! ## Cells -/

theorem cellsWf_mono {lo lo' : Nat} (h : lo ≤ lo') :
    ∀ cs, cellsWf lo' cs = true → cellsWf lo cs = true
  | [], _ => rfl
  | c :: cs, hw => by
    simp only [cellsWf, Bool.and_eq_true, decide_eq_true_eq] at hw ⊢
    exact ⟨⟨by omega, hw.1.2⟩, hw.2⟩

/-- An address below every listed one reads as a blank byte. -/
theorem readCells_of_lt {lo a : Nat} (h : a < lo) :
    ∀ cs, cellsWf lo cs = true → readCells cs a = blankByte
  | [], _ => rfl
  | c :: cs, hw => by
    simp only [cellsWf, Bool.and_eq_true, decide_eq_true_eq] at hw
    have hne : c.1 ≠ a := by omega
    simp only [readCells, hne, if_false]
    exact readCells_of_lt (by omega) cs (cellsWf_mono (by omega) cs hw.2)

/-- The byte at another address is as before, whatever the form of the cells. -/
theorem readCells_writeCells_ne {a b : Nat} (v : Byte) (h : b ≠ a) :
    ∀ cs, readCells (writeCells cs a v) b = readCells cs b
  | [] => by
    by_cases hv : v = blankByte <;> simp [writeCells, readCells, hv, h.symm]
  | c :: cs => by
    have ih := readCells_writeCells_ne v h cs
    unfold writeCells
    split_ifs with h1 h2 h3 h4
    · rfl
    · simp [readCells, h.symm]
    · have hne : c.1 ≠ b := fun e => h (by rw [h3, e])
      simp [readCells, hne]
    · have hne : c.1 ≠ b := fun e => h (by rw [h3, e])
      simp [readCells, h.symm, hne]
    · simp [readCells, ih]

/-- The byte at the written address is the written one, on canonical cells. -/
theorem readCells_writeCells_same {a lo : Nat} (v : Byte) :
    ∀ cs, cellsWf lo cs = true → readCells (writeCells cs a v) a = v
  | [], _ => by
    by_cases hv : v = blankByte <;> simp [writeCells, readCells, hv]
  | c :: cs, hw => by
    have hw' := hw
    simp only [cellsWf, Bool.and_eq_true, decide_eq_true_eq] at hw'
    have ih := readCells_writeCells_same (a := a) v cs hw'.2
    unfold writeCells
    split_ifs with h1 h2 h3 h4
    · subst h2
      have hne : c.1 ≠ a := by omega
      simp only [readCells, hne, if_false]
      exact readCells_of_lt (by omega) cs hw'.2
    · simp [readCells]
    · subst h4
      exact readCells_of_lt (by omega) cs hw'.2
    · simp [readCells]
    · have hne : c.1 ≠ a := fun h => h3 h.symm
      simp [readCells, hne, ih]

/-- A write keeps the canonical form. -/
theorem cellsWf_writeCells {a : Nat} (v : Byte) :
    ∀ {lo : Nat} (cs), lo ≤ a → cellsWf lo cs = true → cellsWf lo (writeCells cs a v) = true
  | lo, [], h, _ => by
    by_cases hv : v = blankByte <;> simp [writeCells, cellsWf, hv, h]
  | lo, c :: cs, h, hw => by
    have hw' := hw
    simp only [cellsWf, Bool.and_eq_true, decide_eq_true_eq] at hw'
    unfold writeCells
    split_ifs with h1 h2 h3 h4
    · exact hw
    · simp only [cellsWf, Bool.and_eq_true, decide_eq_true_eq]
      exact ⟨⟨h, by simpa using h2⟩, ⟨by omega, hw'.1.2⟩, hw'.2⟩
    · exact cellsWf_mono (by omega) cs hw'.2
    · simp only [cellsWf, Bool.and_eq_true, decide_eq_true_eq]
      subst h3
      exact ⟨⟨h, by simpa using h4⟩, hw'.2⟩
    · simp only [cellsWf, Bool.and_eq_true, decide_eq_true_eq]
      exact ⟨hw'.1, cellsWf_writeCells v cs (by omega) hw'.2⟩

/-- A write adds no listed address but its own. -/
theorem mem_writeCells {a : Nat} {v : Byte} {c : Host.Cell} :
    ∀ {cs}, c ∈ writeCells cs a v → c.1 = a ∨ c ∈ cs
  | [], h => by
    by_cases hv : v = blankByte
    · simp [writeCells, hv] at h
    · simp [writeCells, hv] at h; exact .inl (by rw [h])
  | d :: cs, h => by
    unfold writeCells at h
    split_ifs at h with h1 h2 h3 h4
    · exact .inr h
    · rcases List.mem_cons.mp h with h | h
      · exact .inl (by rw [h])
      · exact .inr h
    · exact .inr (List.mem_cons_of_mem _ h)
    · rcases List.mem_cons.mp h with h | h
      · exact .inl (by rw [h])
      · exact .inr (List.mem_cons_of_mem _ h)
    · rcases List.mem_cons.mp h with h | h
      · exact .inr (by rw [h]; exact List.mem_cons_self)
      · rcases mem_writeCells h with h | h
        · exact .inl h
        · exact .inr (List.mem_cons_of_mem _ h)

/-! ## Bytes -/

/-- A byte that nothing has written reads as the reset value. -/
@[simp] theorem Memory.read_empty (a : Nat) : (Memory.mk []).read a = blankByte := rfl

theorem Memory.wf_empty : (Memory.mk []).wf = true := rfl

@[simp] theorem Memory.read_write_ne (m : Memory) {a b : Nat} (v : Byte) (h : b ≠ a) :
    (m.write a v).read b = m.read b := readCells_writeCells_ne v h m.cells

theorem Memory.read_write_same (m : Memory) (a : Nat) (v : Byte) (h : m.wf = true) :
    (m.write a v).read a = v := readCells_writeCells_same v m.cells h

/-- Reading any byte after one write, on a canonical memory. -/
theorem Memory.read_write (m : Memory) (a b : Nat) (v : Byte) (h : m.wf = true) :
    (m.write a v).read b = if b = a then v else m.read b := by
  split
  · next hb => subst hb; exact m.read_write_same b v h
  · next hb => exact m.read_write_ne v hb

theorem Memory.wf_write (m : Memory) (a : Nat) (v : Byte) (h : m.wf = true) :
    (m.write a v).wf = true := cellsWf_writeCells v m.cells (Nat.zero_le a) h

theorem Memory.below_write (m : Memory) {a cap : Nat} (v : Byte) (ha : a < cap)
    (h : m.below cap = true) : (m.write a v).below cap = true := by
  simp only [Memory.below, List.all_eq_true, decide_eq_true_eq] at h ⊢
  intro c hc
  rcases mem_writeCells hc with hc | hc
  · omega
  · exact h c hc

/-- Canonical memories that read alike are equal data. -/
theorem cellsWf_ext : ∀ {lo : Nat} (cs ds), cellsWf lo cs = true → cellsWf lo ds = true →
    (∀ a, readCells cs a = readCells ds a) → cs = ds
  | _, [], [], _, _, _ => rfl
  | lo, [], d :: ds, _, hd, h => by
    simp only [cellsWf, Bool.and_eq_true, decide_eq_true_eq] at hd
    have := h d.1
    simp [readCells] at this
    simp [← this] at hd
  | lo, c :: cs, [], hc, _, h => by
    simp only [cellsWf, Bool.and_eq_true, decide_eq_true_eq] at hc
    have := h c.1
    simp [readCells] at this
    simp [this] at hc
  | lo, c :: cs, d :: ds, hc, hd, h => by
    have hc' := hc
    have hd' := hd
    simp only [cellsWf, Bool.and_eq_true, decide_eq_true_eq] at hc' hd'
    have h1 : c.1 = d.1 := by
      rcases lt_trichotomy c.1 d.1 with hlt | heq | hlt
      · have e := h c.1
        have hne : d.1 ≠ c.1 := by omega
        simp only [readCells, if_true, hne, if_false] at e
        rw [readCells_of_lt (by omega) ds hd'.2] at e
        simp [e] at hc'
      · exact heq
      · have e := h d.1
        have hne : c.1 ≠ d.1 := by omega
        simp only [readCells, if_true, hne, if_false] at e
        rw [readCells_of_lt (by omega) cs hc'.2] at e
        simp [← e] at hd'
    have h2 : c.2 = d.2 := by
      have e := h c.1
      simpa [readCells, h1] using e
    have h3 : cs = ds := by
      refine cellsWf_ext cs ds hc'.2 (h1 ▸ hd'.2) fun a => ?_
      by_cases ha : c.1 = a
      · rw [readCells_of_lt (lo := c.1 + 1) (by omega) cs hc'.2,
          readCells_of_lt (lo := c.1 + 1) (by omega) ds (h1 ▸ hd'.2)]
      · have e := h a
        have ha' : d.1 ≠ a := h1 ▸ ha
        simpa [readCells, ha, ha'] using e
    obtain ⟨ca, cb⟩ := c
    obtain ⟨da, db⟩ := d
    simp_all

theorem Memory.ext_read (m n : Memory) (hm : m.wf = true) (hn : n.wf = true)
    (h : ∀ a, m.read a = n.read a) : m = n := by
  cases m; cases n
  exact congrArg Memory.mk (cellsWf_ext _ _ hm hn h)

/-! ## Byte ranges -/

@[simp] theorem Memory.length_readRange (m : Memory) :
    ∀ (n start : Nat), (m.readRange start n).length = n
  | 0, _ => rfl
  | n + 1, start => by simp [Memory.readRange, Memory.length_readRange m n]

theorem Memory.readRange_eq_map (m : Memory) :
    ∀ (n start : Nat), m.readRange start n = (List.range n).map (fun i => m.read (start + i))
  | 0, _ => rfl
  | n + 1, start => by
    rw [Memory.readRange, Memory.readRange_eq_map m n, List.range_succ_eq_map]
    simp [List.map_map, Function.comp_def, Nat.add_assoc, Nat.add_comm 1]

theorem Memory.readRange_add (m : Memory) :
    ∀ (k n start : Nat), m.readRange start (k + n) = m.readRange start k ++ m.readRange (start + k) n
  | 0, n, start => by simp [Memory.readRange]
  | k + 1, n, start => by
    have := Memory.readRange_add m k n (start + 1)
    simp [Memory.readRange, Nat.succ_add, this, Nat.add_assoc]

/-- A range of bytes depends only on those bytes. -/
theorem Memory.readRange_congr {m m' : Memory} :
    ∀ {n start : Nat}, (∀ a, start ≤ a → a < start + n → m.read a = m'.read a) →
      m.readRange start n = m'.readRange start n
  | 0, _, _ => rfl
  | n + 1, start, h => by
    rw [Memory.readRange, Memory.readRange, h start (Nat.le_refl _) (by omega),
      Memory.readRange_congr (n := n) fun a h1 h2 => h a (by omega) (by omega)]

/-! ## Bits of a byte -/

theorem getLsbD_setByteBit (b : Byte) (k j : Nat) (v : Bool) (hk : k < 8) (hj : j < 8) :
    (setByteBit b k v).getLsbD j = if j = k then v else b.getLsbD j := by
  by_cases h : j = k
  · subst h
    cases v <;> simp [setByteBit, hk]
  · have h1 : ((1#8 <<< k).getLsbD j) = false := by
      simp only [BitVec.getLsbD_shiftLeft]
      rcases Nat.lt_or_gt_of_ne h with h2 | h2
      · simp [h2]
      · have : j - k ≠ 0 := by omega
        simp [this]
    cases v
    · simp only [setByteBit, Bool.false_eq_true, if_false, BitVec.getLsbD_and, BitVec.getLsbD_not, h1, h]
      simp [hj]
    · simp only [setByteBit, if_true, BitVec.getLsbD_or, h1, h, if_false, Bool.or_false]

/-! ## Bit fields -/

/-- Reading any bit after one bit write, on a canonical memory. -/
theorem Memory.streamBit_writeBit (m : Memory) (p q : Nat) (v : Bool) (h : m.wf = true) :
    streamBit (m.writeBit p v).read q = if q = p then v else streamBit m.read q := by
  unfold streamBit Memory.writeBit
  by_cases hb : q / 8 = p / 8
  · rw [hb, Memory.read_write_same _ _ _ h, getLsbD_setByteBit _ _ _ _ (by omega) (by omega)]
    by_cases hq : q = p
    · simp [hq]
    · have : ¬ (7 - q % 8 = 7 - p % 8) := by omega
      simp [hq, this]
  · have hq : q ≠ p := fun e => hb (by rw [e])
    rw [Memory.read_write_ne _ _ hb]
    simp [hq]

theorem Memory.wf_writeBit (m : Memory) (p : Nat) (v : Bool) (h : m.wf = true) :
    (m.writeBit p v).wf = true := m.wf_write _ _ h

theorem Memory.wf_writeBits (m : Memory) (p : Nat) (h : m.wf = true) :
    ∀ (w v : Nat), (m.writeBits p w v).wf = true
  | 0, _ => h
  | w + 1, v => Memory.wf_writeBit _ _ _ (Memory.wf_writeBits m p h w (v / 2))

theorem Memory.below_writeBits (m : Memory) {p cap : Nat} (h : m.below cap = true) :
    ∀ (w v : Nat), p + w ≤ 8 * cap → (m.writeBits p w v).below cap = true
  | 0, _, _ => h
  | w + 1, v, hw =>
    Memory.below_write _ _ (by omega) (Memory.below_writeBits m h w (v / 2) (by omega))

/-- Reading any bit after a field write, on a canonical memory: the field's bits are the value's, most
significant first, and every other bit is as before. -/
theorem Memory.streamBit_writeBits (m : Memory) (p q : Nat) (h : m.wf = true) :
    ∀ (w v : Nat), streamBit (m.writeBits p w v).read q =
      if p ≤ q ∧ q < p + w then v.testBit (p + w - 1 - q) else streamBit m.read q
  | 0, v => by
    have : ¬ (p ≤ q ∧ q < p + 0) := by omega
    rw [if_neg this]; rfl
  | w + 1, v => by
    rw [Memory.writeBits, Memory.streamBit_writeBit _ _ _ _ (m.wf_writeBits p h w (v / 2)),
      Memory.streamBit_writeBits m p q h w (v / 2)]
    by_cases h1 : q = p + w
    · have h2 : p ≤ q ∧ q < p + (w + 1) := by omega
      have h3 : p + (w + 1) - 1 - q = 0 := by omega
      rw [if_pos h1, if_pos h2, h3, Nat.testBit_zero]
      by_cases hv : v % 2 = 1 <;> simp [hv]
    · rw [if_neg h1]
      by_cases h2 : p ≤ q ∧ q < p + w
      · have h3 : p ≤ q ∧ q < p + (w + 1) := by omega
        have h4 : p + (w + 1) - 1 - q = (p + w - 1 - q) + 1 := by omega
        rw [if_pos h2, if_pos h3, h4, Nat.testBit_add_one]
      · have h3 : ¬ (p ≤ q ∧ q < p + (w + 1)) := by omega
        rw [if_neg h2, if_neg h3]

/-- A byte none of whose bits lies in a written field is as before, whatever the memory's form. -/
theorem Memory.read_writeBits_ne (m : Memory) (p a : Nat) :
    ∀ (w v : Nat), (∀ i, i < w → (p + i) / 8 ≠ a) → (m.writeBits p w v).read a = m.read a
  | 0, _, _ => rfl
  | w + 1, v, h => by
    rw [Memory.writeBits, Memory.writeBit,
      Memory.read_write_ne _ _ (fun e => h w (by omega) e.symm)]
    exact Memory.read_writeBits_ne m p a w (v / 2) fun i hi => h i (by omega)

/-- Bits(B, p, w) is below 2^w. -/
theorem streamBits_lt (f : Nat → Byte) (p : Nat) : ∀ w, streamBits f p w < 2 ^ w
  | 0 => by simp [streamBits]
  | w + 1 => by
    have := streamBits_lt f p w
    have hb : (streamBit f (p + w)).toNat ≤ 1 := Bool.toNat_le _
    rw [streamBits, Nat.pow_succ]; omega

/-- Bits(B, p, w) depends only on the bits of its range. -/
theorem streamBits_congr {f g : Nat → Byte} {p : Nat} :
    ∀ {w : Nat}, (∀ i, i < w → streamBit f (p + i) = streamBit g (p + i)) →
      streamBits f p w = streamBits g p w
  | 0, _ => rfl
  | w + 1, h => by
    rw [streamBits, streamBits, streamBits_congr (w := w) fun i hi => h i (by omega), h w (by omega)]

/-- Bit `i` of Bits(B, p, w), counted from its most significant bit, is stream bit p + i. -/
theorem testBit_streamBits (f : Nat → Byte) (p : Nat) :
    ∀ {w i : Nat}, i < w → (streamBits f p w).testBit (w - 1 - i) = streamBit f (p + i)
  | w + 1, i, hi => by
    rw [streamBits]
    by_cases h : i = w
    · subst h
      have : i + 1 - 1 - i = 0 := by omega
      rw [this, Nat.testBit_zero]
      cases streamBit f (p + i) <;> simp
    · have h1 : w + 1 - 1 - i = (w - 1 - i) + 1 := by omega
      have hb : (streamBit f (p + w)).toNat ≤ 1 := Bool.toNat_le _
      have h2 : (2 * streamBits f p w + (streamBit f (p + w)).toNat) / 2 = streamBits f p w := by omega
      rw [h1, Nat.testBit_add_one, h2]
      exact testBit_streamBits f p (by omega)

/-- A field whose bits are those of a number below 2^w is that number. -/
theorem streamBits_eq_of_testBit {f : Nat → Byte} {p w n : Nat} (hn : n < 2 ^ w)
    (h : ∀ i, i < w → streamBit f (p + i) = n.testBit (w - 1 - i)) : streamBits f p w = n := by
  refine Nat.eq_of_testBit_eq fun j => ?_
  by_cases hj : j < w
  · have e : w - 1 - (w - 1 - j) = j := by omega
    have h1 := testBit_streamBits f p (w := w) (i := w - 1 - j) (by omega)
    rw [e, h _ (by omega), e] at h1
    exact h1
  · have hw : 2 ^ w ≤ 2 ^ j := Nat.pow_le_pow_right (by omega) (by omega)
    rw [Nat.testBit_lt_two_pow (Nat.lt_of_lt_of_le (streamBits_lt f p w) hw),
      Nat.testBit_lt_two_pow (Nat.lt_of_lt_of_le hn hw)]

/-- A field read as two fields side by side. -/
theorem streamBits_add (f : Nat → Byte) (p k : Nat) :
    ∀ n, streamBits f p (k + n) = 2 ^ n * streamBits f p k + streamBits f (p + k) n
  | 0 => by simp [streamBits]
  | n + 1 => by
    rw [← Nat.add_assoc, streamBits, streamBits, streamBits_add f p k n, Nat.pow_succ, Nat.add_assoc p]
    ring

/-- A field's first bit, then the rest of it. -/
theorem streamBits_succ_left (f : Nat → Byte) (p w : Nat) :
    streamBits f p (w + 1) = 2 ^ w * (streamBit f p).toNat + streamBits f (p + 1) w := by
  rw [Nat.add_comm w 1, streamBits_add]
  simp [streamBits]

/-- Bits(B, p, w) by the formula of 00_scope R8. -/
theorem streamBits_eq_sum (f : Nat → Byte) (p : Nat) : ∀ w, streamBits f p w =
    ∑ i ∈ Finset.range w, (streamBit f (p + i)).toNat * 2 ^ (w - 1 - i)
  | 0 => rfl
  | w + 1 => by
    rw [streamBits, streamBits_eq_sum f p w, Finset.sum_range_succ, Finset.mul_sum]
    congr 1
    · refine Finset.sum_congr rfl fun i hi => ?_
      have hi := Finset.mem_range.mp hi
      have : w + 1 - 1 - i = (w - 1 - i) + 1 := by omega
      rw [this, pow_succ]
      ring
    · simp

end Sys2Proof.Machine
end

