-- ==== Sys2Proof/Laws/State.lean ====
section
/-! SUPPORT. Each field of the state after each named update of it, so that no later proof unfolds a
record update. -/

namespace Sys2Proof.Machine

/-! ## raiseFault -/

@[simp] theorem raiseFault_impl (c : ErrCode) (s : State) : (raiseFault c s).impl = s.impl := rfl
@[simp] theorem raiseFault_lastErr (c : ErrCode) (s : State) : (raiseFault c s).lastErr = c := rfl
@[simp] theorem raiseFault_errSticky (c : ErrCode) (s : State) :
    (raiseFault c s).errSticky = true := rfl
@[simp] theorem raiseFault_arg0 (c : ErrCode) (s : State) : (raiseFault c s).arg0 = s.arg0 := rfl
@[simp] theorem raiseFault_arg1 (c : ErrCode) (s : State) : (raiseFault c s).arg1 = s.arg1 := rfl
@[simp] theorem raiseFault_val (c : ErrCode) (s : State) : (raiseFault c s).val = s.val := rfl
@[simp] theorem raiseFault_bitpos (c : ErrCode) (s : State) :
    (raiseFault c s).bitpos = s.bitpos := rfl
@[simp] theorem raiseFault_clen (c : ErrCode) (s : State) : (raiseFault c s).clen = s.clen := rfl
@[simp] theorem raiseFault_res (c : ErrCode) (s : State) : (raiseFault c s).res = s.res := rfl
@[simp] theorem raiseFault_fres (c : ErrCode) (s : State) : (raiseFault c s).fres = s.fres := rfl
@[simp] theorem raiseFault_ckres (c : ErrCode) (s : State) : (raiseFault c s).ckres = s.ckres := rfl
@[simp] theorem raiseFault_ckhex (c : ErrCode) (s : State) : (raiseFault c s).ckhex = s.ckhex := rfl
@[simp] theorem raiseFault_navid (c : ErrCode) (s : State) : (raiseFault c s).navid = s.navid := rfl
@[simp] theorem raiseFault_scfg (c : ErrCode) (s : State) : (raiseFault c s).scfg = s.scfg := rfl
@[simp] theorem raiseFault_lpSync (c : ErrCode) (s : State) :
    (raiseFault c s).lpSync = s.lpSync := rfl
@[simp] theorem raiseFault_lpLim (c : ErrCode) (s : State) : (raiseFault c s).lpLim = s.lpLim := rfl
@[simp] theorem raiseFault_bpCfg (c : ErrCode) (s : State) : (raiseFault c s).bpCfg = s.bpCfg := rfl
@[simp] theorem raiseFault_bpLim (c : ErrCode) (s : State) : (raiseFault c s).bpLim = s.bpLim := rfl
@[simp] theorem raiseFault_h32Sync (c : ErrCode) (s : State) :
    (raiseFault c s).h32Sync = s.h32Sync := rfl
@[simp] theorem raiseFault_h32Cfg (c : ErrCode) (s : State) :
    (raiseFault c s).h32Cfg = s.h32Cfg := rfl
@[simp] theorem raiseFault_h32Lim (c : ErrCode) (s : State) :
    (raiseFault c s).h32Lim = s.h32Lim := rfl
@[simp] theorem raiseFault_asciiCfg (c : ErrCode) (s : State) :
    (raiseFault c s).asciiCfg = s.asciiCfg := rfl
@[simp] theorem raiseFault_lookahead (c : ErrCode) (s : State) :
    (raiseFault c s).lookahead = s.lookahead := rfl
@[simp] theorem raiseFault_navCfg0 (c : ErrCode) (s : State) :
    (raiseFault c s).navCfg0 = s.navCfg0 := rfl
@[simp] theorem raiseFault_navCfg1 (c : ErrCode) (s : State) :
    (raiseFault c s).navCfg1 = s.navCfg1 := rfl
@[simp] theorem raiseFault_navSfset (c : ErrCode) (s : State) :
    (raiseFault c s).navSfset = s.navSfset := rfl
@[simp] theorem raiseFault_navWdset (c : ErrCode) (s : State) :
    (raiseFault c s).navWdset = s.navWdset := rfl
@[simp] theorem raiseFault_ktab (c : ErrCode) (s : State) : (raiseFault c s).ktab = s.ktab := rfl
@[simp] theorem raiseFault_cbuf (c : ErrCode) (s : State) : (raiseFault c s).cbuf = s.cbuf := rfl
@[simp] theorem raiseFault_sync (c : ErrCode) (s : State) : (raiseFault c s).sync = s.sync := rfl
@[simp] theorem raiseFault_evout (c : ErrCode) (s : State) : (raiseFault c s).evout = s.evout := rfl
@[simp] theorem raiseFault_pending (c : ErrCode) (s : State) :
    (raiseFault c s).pending = s.pending := rfl
@[simp] theorem raiseFault_readLog (c : ErrCode) (s : State) :
    (raiseFault c s).readLog = s.readLog := rfl

/-! ## advanceCursor -/

@[simp] theorem advanceCursor_impl (s : State) (n : Nat) : (advanceCursor s n).impl = s.impl := rfl
@[simp] theorem advanceCursor_lastErr (s : State) (n : Nat) :
    (advanceCursor s n).lastErr = s.lastErr := rfl
@[simp] theorem advanceCursor_errSticky (s : State) (n : Nat) :
    (advanceCursor s n).errSticky = s.errSticky := rfl
@[simp] theorem advanceCursor_arg0 (s : State) (n : Nat) : (advanceCursor s n).arg0 = s.arg0 := rfl
@[simp] theorem advanceCursor_arg1 (s : State) (n : Nat) : (advanceCursor s n).arg1 = s.arg1 := rfl
@[simp] theorem advanceCursor_val (s : State) (n : Nat) : (advanceCursor s n).val = s.val := rfl
@[simp] theorem advanceCursor_bitpos (s : State) (n : Nat) :
    (advanceCursor s n).bitpos = s.bitpos + BitVec.ofNat 32 n := rfl
@[simp] theorem advanceCursor_clen (s : State) (n : Nat) : (advanceCursor s n).clen = s.clen := rfl
@[simp] theorem advanceCursor_res (s : State) (n : Nat) : (advanceCursor s n).res = s.res := rfl
@[simp] theorem advanceCursor_fres (s : State) (n : Nat) : (advanceCursor s n).fres = s.fres := rfl
@[simp] theorem advanceCursor_ckres (s : State) (n : Nat) :
    (advanceCursor s n).ckres = s.ckres := rfl
@[simp] theorem advanceCursor_ckhex (s : State) (n : Nat) :
    (advanceCursor s n).ckhex = s.ckhex := rfl
@[simp] theorem advanceCursor_navid (s : State) (n : Nat) :
    (advanceCursor s n).navid = s.navid := rfl
@[simp] theorem advanceCursor_scfg (s : State) (n : Nat) : (advanceCursor s n).scfg = s.scfg := rfl
@[simp] theorem advanceCursor_lpSync (s : State) (n : Nat) :
    (advanceCursor s n).lpSync = s.lpSync := rfl
@[simp] theorem advanceCursor_lpLim (s : State) (n : Nat) :
    (advanceCursor s n).lpLim = s.lpLim := rfl
@[simp] theorem advanceCursor_bpCfg (s : State) (n : Nat) :
    (advanceCursor s n).bpCfg = s.bpCfg := rfl
@[simp] theorem advanceCursor_bpLim (s : State) (n : Nat) :
    (advanceCursor s n).bpLim = s.bpLim := rfl
@[simp] theorem advanceCursor_h32Sync (s : State) (n : Nat) :
    (advanceCursor s n).h32Sync = s.h32Sync := rfl
@[simp] theorem advanceCursor_h32Cfg (s : State) (n : Nat) :
    (advanceCursor s n).h32Cfg = s.h32Cfg := rfl
@[simp] theorem advanceCursor_h32Lim (s : State) (n : Nat) :
    (advanceCursor s n).h32Lim = s.h32Lim := rfl
@[simp] theorem advanceCursor_asciiCfg (s : State) (n : Nat) :
    (advanceCursor s n).asciiCfg = s.asciiCfg := rfl
@[simp] theorem advanceCursor_lookahead (s : State) (n : Nat) :
    (advanceCursor s n).lookahead = s.lookahead := rfl
@[simp] theorem advanceCursor_navCfg0 (s : State) (n : Nat) :
    (advanceCursor s n).navCfg0 = s.navCfg0 := rfl
@[simp] theorem advanceCursor_navCfg1 (s : State) (n : Nat) :
    (advanceCursor s n).navCfg1 = s.navCfg1 := rfl
@[simp] theorem advanceCursor_navSfset (s : State) (n : Nat) :
    (advanceCursor s n).navSfset = s.navSfset := rfl
@[simp] theorem advanceCursor_navWdset (s : State) (n : Nat) :
    (advanceCursor s n).navWdset = s.navWdset := rfl
@[simp] theorem advanceCursor_ktab (s : State) (n : Nat) : (advanceCursor s n).ktab = s.ktab := rfl
@[simp] theorem advanceCursor_cbuf (s : State) (n : Nat) : (advanceCursor s n).cbuf = s.cbuf := rfl
@[simp] theorem advanceCursor_sync (s : State) (n : Nat) : (advanceCursor s n).sync = s.sync := rfl
@[simp] theorem advanceCursor_evout (s : State) (n : Nat) :
    (advanceCursor s n).evout = s.evout := rfl
@[simp] theorem advanceCursor_pending (s : State) (n : Nat) :
    (advanceCursor s n).pending = s.pending := rfl
@[simp] theorem advanceCursor_readLog (s : State) (n : Nat) :
    (advanceCursor s n).readLog = s.readLog := rfl

/-! ## syncReset -/

@[simp] theorem syncReset_impl (s : State) : (syncReset s).impl = s.impl := rfl
@[simp] theorem syncReset_lastErr (s : State) : (syncReset s).lastErr = s.lastErr := rfl
@[simp] theorem syncReset_errSticky (s : State) : (syncReset s).errSticky = s.errSticky := rfl
@[simp] theorem syncReset_arg0 (s : State) : (syncReset s).arg0 = s.arg0 := rfl
@[simp] theorem syncReset_arg1 (s : State) : (syncReset s).arg1 = s.arg1 := rfl
@[simp] theorem syncReset_val (s : State) : (syncReset s).val = s.val := rfl
@[simp] theorem syncReset_bitpos (s : State) : (syncReset s).bitpos = s.bitpos := rfl
@[simp] theorem syncReset_clen (s : State) : (syncReset s).clen = s.clen := rfl
@[simp] theorem syncReset_res (s : State) : (syncReset s).res = s.res := rfl
@[simp] theorem syncReset_fres (s : State) : (syncReset s).fres = s.fres := rfl
@[simp] theorem syncReset_ckres (s : State) : (syncReset s).ckres = s.ckres := rfl
@[simp] theorem syncReset_ckhex (s : State) : (syncReset s).ckhex = s.ckhex := rfl
@[simp] theorem syncReset_navid (s : State) : (syncReset s).navid = s.navid := rfl
@[simp] theorem syncReset_scfg (s : State) : (syncReset s).scfg = s.scfg := rfl
@[simp] theorem syncReset_lpSync (s : State) : (syncReset s).lpSync = s.lpSync := rfl
@[simp] theorem syncReset_lpLim (s : State) : (syncReset s).lpLim = s.lpLim := rfl
@[simp] theorem syncReset_bpCfg (s : State) : (syncReset s).bpCfg = s.bpCfg := rfl
@[simp] theorem syncReset_bpLim (s : State) : (syncReset s).bpLim = s.bpLim := rfl
@[simp] theorem syncReset_h32Sync (s : State) : (syncReset s).h32Sync = s.h32Sync := rfl
@[simp] theorem syncReset_h32Cfg (s : State) : (syncReset s).h32Cfg = s.h32Cfg := rfl
@[simp] theorem syncReset_h32Lim (s : State) : (syncReset s).h32Lim = s.h32Lim := rfl
@[simp] theorem syncReset_asciiCfg (s : State) : (syncReset s).asciiCfg = s.asciiCfg := rfl
@[simp] theorem syncReset_lookahead (s : State) : (syncReset s).lookahead = s.lookahead := rfl
@[simp] theorem syncReset_navCfg0 (s : State) : (syncReset s).navCfg0 = s.navCfg0 := rfl
@[simp] theorem syncReset_navCfg1 (s : State) : (syncReset s).navCfg1 = s.navCfg1 := rfl
@[simp] theorem syncReset_navSfset (s : State) : (syncReset s).navSfset = s.navSfset := rfl
@[simp] theorem syncReset_navWdset (s : State) : (syncReset s).navWdset = s.navWdset := rfl
@[simp] theorem syncReset_ktab (s : State) : (syncReset s).ktab = s.ktab := rfl
@[simp] theorem syncReset_cbuf (s : State) : (syncReset s).cbuf = s.cbuf := rfl
@[simp] theorem syncReset_sync (s : State) : (syncReset s).sync = syncResetState := rfl
@[simp] theorem syncReset_evout (s : State) : (syncReset s).evout = s.evout := rfl
@[simp] theorem syncReset_pending (s : State) : (syncReset s).pending = s.pending := rfl
@[simp] theorem syncReset_readLog (s : State) : (syncReset s).readLog = s.readLog := rfl

/-! ## writeStatus -/

@[simp] theorem writeStatus_impl (v : Word) (s : State) : (writeStatus v s).impl = s.impl := rfl
@[simp] theorem writeStatus_lastErr (v : Word) (s : State) :
    (writeStatus v s).lastErr = s.lastErr := rfl
@[simp] theorem writeStatus_errSticky (v : Word) (s : State) :
    (writeStatus v s).errSticky = (s.errSticky && !v.getLsbD 4) := rfl
@[simp] theorem writeStatus_arg0 (v : Word) (s : State) : (writeStatus v s).arg0 = s.arg0 := rfl
@[simp] theorem writeStatus_arg1 (v : Word) (s : State) : (writeStatus v s).arg1 = s.arg1 := rfl
@[simp] theorem writeStatus_val (v : Word) (s : State) : (writeStatus v s).val = s.val := rfl
@[simp] theorem writeStatus_bitpos (v : Word) (s : State) :
    (writeStatus v s).bitpos = s.bitpos := rfl
@[simp] theorem writeStatus_clen (v : Word) (s : State) : (writeStatus v s).clen = s.clen := rfl
@[simp] theorem writeStatus_res (v : Word) (s : State) : (writeStatus v s).res = s.res := rfl
@[simp] theorem writeStatus_fres (v : Word) (s : State) : (writeStatus v s).fres = s.fres := rfl
@[simp] theorem writeStatus_ckres (v : Word) (s : State) : (writeStatus v s).ckres = s.ckres := rfl
@[simp] theorem writeStatus_ckhex (v : Word) (s : State) : (writeStatus v s).ckhex = s.ckhex := rfl
@[simp] theorem writeStatus_navid (v : Word) (s : State) : (writeStatus v s).navid = s.navid := rfl
@[simp] theorem writeStatus_scfg (v : Word) (s : State) : (writeStatus v s).scfg = s.scfg := rfl
@[simp] theorem writeStatus_lpSync (v : Word) (s : State) :
    (writeStatus v s).lpSync = s.lpSync := rfl
@[simp] theorem writeStatus_lpLim (v : Word) (s : State) : (writeStatus v s).lpLim = s.lpLim := rfl
@[simp] theorem writeStatus_bpCfg (v : Word) (s : State) : (writeStatus v s).bpCfg = s.bpCfg := rfl
@[simp] theorem writeStatus_bpLim (v : Word) (s : State) : (writeStatus v s).bpLim = s.bpLim := rfl
@[simp] theorem writeStatus_h32Sync (v : Word) (s : State) :
    (writeStatus v s).h32Sync = s.h32Sync := rfl
@[simp] theorem writeStatus_h32Cfg (v : Word) (s : State) :
    (writeStatus v s).h32Cfg = s.h32Cfg := rfl
@[simp] theorem writeStatus_h32Lim (v : Word) (s : State) :
    (writeStatus v s).h32Lim = s.h32Lim := rfl
@[simp] theorem writeStatus_asciiCfg (v : Word) (s : State) :
    (writeStatus v s).asciiCfg = s.asciiCfg := rfl
@[simp] theorem writeStatus_lookahead (v : Word) (s : State) :
    (writeStatus v s).lookahead = s.lookahead := rfl
@[simp] theorem writeStatus_navCfg0 (v : Word) (s : State) :
    (writeStatus v s).navCfg0 = s.navCfg0 := rfl
@[simp] theorem writeStatus_navCfg1 (v : Word) (s : State) :
    (writeStatus v s).navCfg1 = s.navCfg1 := rfl
@[simp] theorem writeStatus_navSfset (v : Word) (s : State) :
    (writeStatus v s).navSfset = s.navSfset := rfl
@[simp] theorem writeStatus_navWdset (v : Word) (s : State) :
    (writeStatus v s).navWdset = s.navWdset := rfl
@[simp] theorem writeStatus_ktab (v : Word) (s : State) : (writeStatus v s).ktab = s.ktab := rfl
@[simp] theorem writeStatus_cbuf (v : Word) (s : State) : (writeStatus v s).cbuf = s.cbuf := rfl
@[simp] theorem writeStatus_sync (v : Word) (s : State) : (writeStatus v s).sync = s.sync := rfl
@[simp] theorem writeStatus_evout (v : Word) (s : State) : (writeStatus v s).evout = s.evout := rfl
@[simp] theorem writeStatus_pending (v : Word) (s : State) :
    (writeStatus v s).pending = s.pending := rfl
@[simp] theorem writeStatus_readLog (v : Word) (s : State) :
    (writeStatus v s).readLog = s.readLog := rfl

/-! ## writeBitpos -/

@[simp] theorem writeBitpos_impl (v : Word) (s : State) : (writeBitpos v s).impl = s.impl := rfl
@[simp] theorem writeBitpos_lastErr (v : Word) (s : State) :
    (writeBitpos v s).lastErr = s.lastErr := rfl
@[simp] theorem writeBitpos_errSticky (v : Word) (s : State) :
    (writeBitpos v s).errSticky = s.errSticky := rfl
@[simp] theorem writeBitpos_arg0 (v : Word) (s : State) : (writeBitpos v s).arg0 = s.arg0 := rfl
@[simp] theorem writeBitpos_arg1 (v : Word) (s : State) : (writeBitpos v s).arg1 = s.arg1 := rfl
@[simp] theorem writeBitpos_val (v : Word) (s : State) : (writeBitpos v s).val = s.val := rfl
@[simp] theorem writeBitpos_bitpos (v : Word) (s : State) :
    (writeBitpos v s).bitpos = BitVec.ofNat 32 (min v.toNat (viewBits s)) := rfl
@[simp] theorem writeBitpos_clen (v : Word) (s : State) : (writeBitpos v s).clen = s.clen := rfl
@[simp] theorem writeBitpos_res (v : Word) (s : State) : (writeBitpos v s).res = s.res := rfl
@[simp] theorem writeBitpos_fres (v : Word) (s : State) : (writeBitpos v s).fres = s.fres := rfl
@[simp] theorem writeBitpos_ckres (v : Word) (s : State) : (writeBitpos v s).ckres = s.ckres := rfl
@[simp] theorem writeBitpos_ckhex (v : Word) (s : State) : (writeBitpos v s).ckhex = s.ckhex := rfl
@[simp] theorem writeBitpos_navid (v : Word) (s : State) : (writeBitpos v s).navid = s.navid := rfl
@[simp] theorem writeBitpos_scfg (v : Word) (s : State) : (writeBitpos v s).scfg = s.scfg := rfl
@[simp] theorem writeBitpos_lpSync (v : Word) (s : State) :
    (writeBitpos v s).lpSync = s.lpSync := rfl
@[simp] theorem writeBitpos_lpLim (v : Word) (s : State) : (writeBitpos v s).lpLim = s.lpLim := rfl
@[simp] theorem writeBitpos_bpCfg (v : Word) (s : State) : (writeBitpos v s).bpCfg = s.bpCfg := rfl
@[simp] theorem writeBitpos_bpLim (v : Word) (s : State) : (writeBitpos v s).bpLim = s.bpLim := rfl
@[simp] theorem writeBitpos_h32Sync (v : Word) (s : State) :
    (writeBitpos v s).h32Sync = s.h32Sync := rfl
@[simp] theorem writeBitpos_h32Cfg (v : Word) (s : State) :
    (writeBitpos v s).h32Cfg = s.h32Cfg := rfl
@[simp] theorem writeBitpos_h32Lim (v : Word) (s : State) :
    (writeBitpos v s).h32Lim = s.h32Lim := rfl
@[simp] theorem writeBitpos_asciiCfg (v : Word) (s : State) :
    (writeBitpos v s).asciiCfg = s.asciiCfg := rfl
@[simp] theorem writeBitpos_lookahead (v : Word) (s : State) :
    (writeBitpos v s).lookahead = s.lookahead := rfl
@[simp] theorem writeBitpos_navCfg0 (v : Word) (s : State) :
    (writeBitpos v s).navCfg0 = s.navCfg0 := rfl
@[simp] theorem writeBitpos_navCfg1 (v : Word) (s : State) :
    (writeBitpos v s).navCfg1 = s.navCfg1 := rfl
@[simp] theorem writeBitpos_navSfset (v : Word) (s : State) :
    (writeBitpos v s).navSfset = s.navSfset := rfl
@[simp] theorem writeBitpos_navWdset (v : Word) (s : State) :
    (writeBitpos v s).navWdset = s.navWdset := rfl
@[simp] theorem writeBitpos_ktab (v : Word) (s : State) : (writeBitpos v s).ktab = s.ktab := rfl
@[simp] theorem writeBitpos_cbuf (v : Word) (s : State) : (writeBitpos v s).cbuf = s.cbuf := rfl
@[simp] theorem writeBitpos_sync (v : Word) (s : State) : (writeBitpos v s).sync = s.sync := rfl
@[simp] theorem writeBitpos_evout (v : Word) (s : State) : (writeBitpos v s).evout = s.evout := rfl
@[simp] theorem writeBitpos_pending (v : Word) (s : State) :
    (writeBitpos v s).pending = s.pending := rfl
@[simp] theorem writeBitpos_readLog (v : Word) (s : State) :
    (writeBitpos v s).readLog = s.readLog := rfl

/-! ## writeClen -/

@[simp] theorem writeClen_impl (v : Word) (s : State) : (writeClen v s).impl = s.impl := rfl
@[simp] theorem writeClen_lastErr (v : Word) (s : State) :
    (writeClen v s).lastErr = s.lastErr := rfl
@[simp] theorem writeClen_errSticky (v : Word) (s : State) :
    (writeClen v s).errSticky = s.errSticky := rfl
@[simp] theorem writeClen_arg0 (v : Word) (s : State) : (writeClen v s).arg0 = s.arg0 := rfl
@[simp] theorem writeClen_arg1 (v : Word) (s : State) : (writeClen v s).arg1 = s.arg1 := rfl
@[simp] theorem writeClen_val (v : Word) (s : State) : (writeClen v s).val = s.val := rfl
@[simp] theorem writeClen_bitpos (v : Word) (s : State) :
    (writeClen v s).bitpos = BitVec.ofNat 32 (min s.bitpos.toNat (8 * (BitVec.ofNat 32 (min v.toNat s.impl.cbufCap)).toNat)) := rfl
@[simp] theorem writeClen_clen (v : Word) (s : State) :
    (writeClen v s).clen = BitVec.ofNat 32 (min v.toNat s.impl.cbufCap) := rfl
@[simp] theorem writeClen_res (v : Word) (s : State) : (writeClen v s).res = s.res := rfl
@[simp] theorem writeClen_fres (v : Word) (s : State) : (writeClen v s).fres = s.fres := rfl
@[simp] theorem writeClen_ckres (v : Word) (s : State) : (writeClen v s).ckres = s.ckres := rfl
@[simp] theorem writeClen_ckhex (v : Word) (s : State) : (writeClen v s).ckhex = s.ckhex := rfl
@[simp] theorem writeClen_navid (v : Word) (s : State) : (writeClen v s).navid = s.navid := rfl
@[simp] theorem writeClen_scfg (v : Word) (s : State) : (writeClen v s).scfg = s.scfg := rfl
@[simp] theorem writeClen_lpSync (v : Word) (s : State) : (writeClen v s).lpSync = s.lpSync := rfl
@[simp] theorem writeClen_lpLim (v : Word) (s : State) : (writeClen v s).lpLim = s.lpLim := rfl
@[simp] theorem writeClen_bpCfg (v : Word) (s : State) : (writeClen v s).bpCfg = s.bpCfg := rfl
@[simp] theorem writeClen_bpLim (v : Word) (s : State) : (writeClen v s).bpLim = s.bpLim := rfl
@[simp] theorem writeClen_h32Sync (v : Word) (s : State) :
    (writeClen v s).h32Sync = s.h32Sync := rfl
@[simp] theorem writeClen_h32Cfg (v : Word) (s : State) : (writeClen v s).h32Cfg = s.h32Cfg := rfl
@[simp] theorem writeClen_h32Lim (v : Word) (s : State) : (writeClen v s).h32Lim = s.h32Lim := rfl
@[simp] theorem writeClen_asciiCfg (v : Word) (s : State) :
    (writeClen v s).asciiCfg = s.asciiCfg := rfl
@[simp] theorem writeClen_lookahead (v : Word) (s : State) :
    (writeClen v s).lookahead = s.lookahead := rfl
@[simp] theorem writeClen_navCfg0 (v : Word) (s : State) :
    (writeClen v s).navCfg0 = s.navCfg0 := rfl
@[simp] theorem writeClen_navCfg1 (v : Word) (s : State) :
    (writeClen v s).navCfg1 = s.navCfg1 := rfl
@[simp] theorem writeClen_navSfset (v : Word) (s : State) :
    (writeClen v s).navSfset = s.navSfset := rfl
@[simp] theorem writeClen_navWdset (v : Word) (s : State) :
    (writeClen v s).navWdset = s.navWdset := rfl
@[simp] theorem writeClen_ktab (v : Word) (s : State) : (writeClen v s).ktab = s.ktab := rfl
@[simp] theorem writeClen_cbuf (v : Word) (s : State) : (writeClen v s).cbuf = s.cbuf := rfl
@[simp] theorem writeClen_sync (v : Word) (s : State) : (writeClen v s).sync = s.sync := rfl
@[simp] theorem writeClen_evout (v : Word) (s : State) : (writeClen v s).evout = s.evout := rfl
@[simp] theorem writeClen_pending (v : Word) (s : State) :
    (writeClen v s).pending = s.pending := rfl
@[simp] theorem writeClen_readLog (v : Word) (s : State) :
    (writeClen v s).readLog = s.readLog := rfl

/-! ## writeWindowByte -/

@[simp] theorem writeWindowByte_impl (i : Nat) (v : Byte) (s : State) :
    (writeWindowByte i v s).impl = s.impl := rfl
@[simp] theorem writeWindowByte_lastErr (i : Nat) (v : Byte) (s : State) :
    (writeWindowByte i v s).lastErr = s.lastErr := rfl
@[simp] theorem writeWindowByte_errSticky (i : Nat) (v : Byte) (s : State) :
    (writeWindowByte i v s).errSticky = s.errSticky := rfl
@[simp] theorem writeWindowByte_arg0 (i : Nat) (v : Byte) (s : State) :
    (writeWindowByte i v s).arg0 = s.arg0 := rfl
@[simp] theorem writeWindowByte_arg1 (i : Nat) (v : Byte) (s : State) :
    (writeWindowByte i v s).arg1 = s.arg1 := rfl
@[simp] theorem writeWindowByte_val (i : Nat) (v : Byte) (s : State) :
    (writeWindowByte i v s).val = s.val := rfl
@[simp] theorem writeWindowByte_bitpos (i : Nat) (v : Byte) (s : State) :
    (writeWindowByte i v s).bitpos = s.bitpos := rfl
@[simp] theorem writeWindowByte_clen (i : Nat) (v : Byte) (s : State) :
    (writeWindowByte i v s).clen = s.clen := rfl
@[simp] theorem writeWindowByte_res (i : Nat) (v : Byte) (s : State) :
    (writeWindowByte i v s).res = s.res := rfl
@[simp] theorem writeWindowByte_fres (i : Nat) (v : Byte) (s : State) :
    (writeWindowByte i v s).fres = s.fres := rfl
@[simp] theorem writeWindowByte_ckres (i : Nat) (v : Byte) (s : State) :
    (writeWindowByte i v s).ckres = s.ckres := rfl
@[simp] theorem writeWindowByte_ckhex (i : Nat) (v : Byte) (s : State) :
    (writeWindowByte i v s).ckhex = s.ckhex := rfl
@[simp] theorem writeWindowByte_navid (i : Nat) (v : Byte) (s : State) :
    (writeWindowByte i v s).navid = s.navid := rfl
@[simp] theorem writeWindowByte_scfg (i : Nat) (v : Byte) (s : State) :
    (writeWindowByte i v s).scfg = s.scfg := rfl
@[simp] theorem writeWindowByte_lpSync (i : Nat) (v : Byte) (s : State) :
    (writeWindowByte i v s).lpSync = s.lpSync := rfl
@[simp] theorem writeWindowByte_lpLim (i : Nat) (v : Byte) (s : State) :
    (writeWindowByte i v s).lpLim = s.lpLim := rfl
@[simp] theorem writeWindowByte_bpCfg (i : Nat) (v : Byte) (s : State) :
    (writeWindowByte i v s).bpCfg = s.bpCfg := rfl
@[simp] theorem writeWindowByte_bpLim (i : Nat) (v : Byte) (s : State) :
    (writeWindowByte i v s).bpLim = s.bpLim := rfl
@[simp] theorem writeWindowByte_h32Sync (i : Nat) (v : Byte) (s : State) :
    (writeWindowByte i v s).h32Sync = s.h32Sync := rfl
@[simp] theorem writeWindowByte_h32Cfg (i : Nat) (v : Byte) (s : State) :
    (writeWindowByte i v s).h32Cfg = s.h32Cfg := rfl
@[simp] theorem writeWindowByte_h32Lim (i : Nat) (v : Byte) (s : State) :
    (writeWindowByte i v s).h32Lim = s.h32Lim := rfl
@[simp] theorem writeWindowByte_asciiCfg (i : Nat) (v : Byte) (s : State) :
    (writeWindowByte i v s).asciiCfg = s.asciiCfg := rfl
@[simp] theorem writeWindowByte_lookahead (i : Nat) (v : Byte) (s : State) :
    (writeWindowByte i v s).lookahead = s.lookahead := rfl
@[simp] theorem writeWindowByte_navCfg0 (i : Nat) (v : Byte) (s : State) :
    (writeWindowByte i v s).navCfg0 = s.navCfg0 := rfl
@[simp] theorem writeWindowByte_navCfg1 (i : Nat) (v : Byte) (s : State) :
    (writeWindowByte i v s).navCfg1 = s.navCfg1 := rfl
@[simp] theorem writeWindowByte_navSfset (i : Nat) (v : Byte) (s : State) :
    (writeWindowByte i v s).navSfset = s.navSfset := rfl
@[simp] theorem writeWindowByte_navWdset (i : Nat) (v : Byte) (s : State) :
    (writeWindowByte i v s).navWdset = s.navWdset := rfl
@[simp] theorem writeWindowByte_ktab (i : Nat) (v : Byte) (s : State) :
    (writeWindowByte i v s).ktab = s.ktab := rfl
@[simp] theorem writeWindowByte_cbuf (i : Nat) (v : Byte) (s : State) :
    (writeWindowByte i v s).cbuf = if i < s.impl.cbufCap then s.cbuf.write i v else s.cbuf := rfl
@[simp] theorem writeWindowByte_sync (i : Nat) (v : Byte) (s : State) :
    (writeWindowByte i v s).sync = s.sync := rfl
@[simp] theorem writeWindowByte_evout (i : Nat) (v : Byte) (s : State) :
    (writeWindowByte i v s).evout = s.evout := rfl
@[simp] theorem writeWindowByte_pending (i : Nat) (v : Byte) (s : State) :
    (writeWindowByte i v s).pending = s.pending := rfl
@[simp] theorem writeWindowByte_readLog (i : Nat) (v : Byte) (s : State) :
    (writeWindowByte i v s).readLog = s.readLog := rfl

/-! ## blockReset -/

@[simp] theorem blockReset_impl (s : State) : (blockReset s).impl = s.impl := rfl
@[simp] theorem blockReset_lastErr (s : State) : (blockReset s).lastErr = State.reset.lastErr := rfl
@[simp] theorem blockReset_errSticky (s : State) :
    (blockReset s).errSticky = State.reset.errSticky := rfl
@[simp] theorem blockReset_arg0 (s : State) : (blockReset s).arg0 = State.reset.arg0 := rfl
@[simp] theorem blockReset_arg1 (s : State) : (blockReset s).arg1 = State.reset.arg1 := rfl
@[simp] theorem blockReset_val (s : State) : (blockReset s).val = State.reset.val := rfl
@[simp] theorem blockReset_bitpos (s : State) : (blockReset s).bitpos = State.reset.bitpos := rfl
@[simp] theorem blockReset_clen (s : State) : (blockReset s).clen = State.reset.clen := rfl
@[simp] theorem blockReset_res (s : State) : (blockReset s).res = State.reset.res := rfl
@[simp] theorem blockReset_fres (s : State) : (blockReset s).fres = State.reset.fres := rfl
@[simp] theorem blockReset_ckres (s : State) : (blockReset s).ckres = State.reset.ckres := rfl
@[simp] theorem blockReset_ckhex (s : State) : (blockReset s).ckhex = State.reset.ckhex := rfl
@[simp] theorem blockReset_navid (s : State) : (blockReset s).navid = State.reset.navid := rfl
@[simp] theorem blockReset_scfg (s : State) : (blockReset s).scfg = State.reset.scfg := rfl
@[simp] theorem blockReset_lpSync (s : State) : (blockReset s).lpSync = State.reset.lpSync := rfl
@[simp] theorem blockReset_lpLim (s : State) : (blockReset s).lpLim = State.reset.lpLim := rfl
@[simp] theorem blockReset_bpCfg (s : State) : (blockReset s).bpCfg = State.reset.bpCfg := rfl
@[simp] theorem blockReset_bpLim (s : State) : (blockReset s).bpLim = State.reset.bpLim := rfl
@[simp] theorem blockReset_h32Sync (s : State) : (blockReset s).h32Sync = State.reset.h32Sync := rfl
@[simp] theorem blockReset_h32Cfg (s : State) : (blockReset s).h32Cfg = State.reset.h32Cfg := rfl
@[simp] theorem blockReset_h32Lim (s : State) : (blockReset s).h32Lim = State.reset.h32Lim := rfl
@[simp] theorem blockReset_asciiCfg (s : State) :
    (blockReset s).asciiCfg = State.reset.asciiCfg := rfl
@[simp] theorem blockReset_lookahead (s : State) :
    (blockReset s).lookahead = State.reset.lookahead := rfl
@[simp] theorem blockReset_navCfg0 (s : State) : (blockReset s).navCfg0 = State.reset.navCfg0 := rfl
@[simp] theorem blockReset_navCfg1 (s : State) : (blockReset s).navCfg1 = State.reset.navCfg1 := rfl
@[simp] theorem blockReset_navSfset (s : State) :
    (blockReset s).navSfset = State.reset.navSfset := rfl
@[simp] theorem blockReset_navWdset (s : State) :
    (blockReset s).navWdset = State.reset.navWdset := rfl
@[simp] theorem blockReset_ktab (s : State) : (blockReset s).ktab = State.reset.ktab := rfl
@[simp] theorem blockReset_cbuf (s : State) : (blockReset s).cbuf = State.reset.cbuf := rfl
@[simp] theorem blockReset_sync (s : State) : (blockReset s).sync = State.reset.sync := rfl
@[simp] theorem blockReset_evout (s : State) : (blockReset s).evout = State.reset.evout := rfl
@[simp] theorem blockReset_pending (s : State) : (blockReset s).pending = s.pending := rfl
@[simp] theorem blockReset_readLog (s : State) : (blockReset s).readLog = s.readLog := rfl

/-! ## withFetchWord -/

@[simp] theorem withFetchWord_impl (s : State) (nbits w : Nat) :
    (s.withFetchWord nbits w).impl = s.impl := rfl
@[simp] theorem withFetchWord_lastErr (s : State) (nbits w : Nat) :
    (s.withFetchWord nbits w).lastErr = s.lastErr := rfl
@[simp] theorem withFetchWord_errSticky (s : State) (nbits w : Nat) :
    (s.withFetchWord nbits w).errSticky = s.errSticky := rfl
@[simp] theorem withFetchWord_arg0 (s : State) (nbits w : Nat) :
    (s.withFetchWord nbits w).arg0 = s.arg0 := rfl
@[simp] theorem withFetchWord_arg1 (s : State) (nbits w : Nat) :
    (s.withFetchWord nbits w).arg1 = s.arg1 := rfl
@[simp] theorem withFetchWord_val (s : State) (nbits w : Nat) :
    (s.withFetchWord nbits w).val = s.val := rfl
@[simp] theorem withFetchWord_bitpos (s : State) (nbits w : Nat) :
    (s.withFetchWord nbits w).bitpos = s.bitpos := rfl
@[simp] theorem withFetchWord_clen (s : State) (nbits w : Nat) :
    (s.withFetchWord nbits w).clen = s.clen := rfl
@[simp] theorem withFetchWord_res (s : State) (nbits w : Nat) :
    (s.withFetchWord nbits w).res = s.res := rfl
@[simp] theorem withFetchWord_fres (s : State) (nbits w : Nat) :
    (s.withFetchWord nbits w).fres = s.fres := rfl
@[simp] theorem withFetchWord_ckres (s : State) (nbits w : Nat) :
    (s.withFetchWord nbits w).ckres = s.ckres := rfl
@[simp] theorem withFetchWord_ckhex (s : State) (nbits w : Nat) :
    (s.withFetchWord nbits w).ckhex = s.ckhex := rfl
@[simp] theorem withFetchWord_navid (s : State) (nbits w : Nat) :
    (s.withFetchWord nbits w).navid = s.navid := rfl
@[simp] theorem withFetchWord_scfg (s : State) (nbits w : Nat) :
    (s.withFetchWord nbits w).scfg = s.scfg := rfl
@[simp] theorem withFetchWord_lpSync (s : State) (nbits w : Nat) :
    (s.withFetchWord nbits w).lpSync = s.lpSync := rfl
@[simp] theorem withFetchWord_lpLim (s : State) (nbits w : Nat) :
    (s.withFetchWord nbits w).lpLim = s.lpLim := rfl
@[simp] theorem withFetchWord_bpCfg (s : State) (nbits w : Nat) :
    (s.withFetchWord nbits w).bpCfg = s.bpCfg := rfl
@[simp] theorem withFetchWord_bpLim (s : State) (nbits w : Nat) :
    (s.withFetchWord nbits w).bpLim = s.bpLim := rfl
@[simp] theorem withFetchWord_h32Sync (s : State) (nbits w : Nat) :
    (s.withFetchWord nbits w).h32Sync = s.h32Sync := rfl
@[simp] theorem withFetchWord_h32Cfg (s : State) (nbits w : Nat) :
    (s.withFetchWord nbits w).h32Cfg = s.h32Cfg := rfl
@[simp] theorem withFetchWord_h32Lim (s : State) (nbits w : Nat) :
    (s.withFetchWord nbits w).h32Lim = s.h32Lim := rfl
@[simp] theorem withFetchWord_asciiCfg (s : State) (nbits w : Nat) :
    (s.withFetchWord nbits w).asciiCfg = s.asciiCfg := rfl
@[simp] theorem withFetchWord_lookahead (s : State) (nbits w : Nat) :
    (s.withFetchWord nbits w).lookahead = s.lookahead := rfl
@[simp] theorem withFetchWord_navCfg0 (s : State) (nbits w : Nat) :
    (s.withFetchWord nbits w).navCfg0 = s.navCfg0 := rfl
@[simp] theorem withFetchWord_navCfg1 (s : State) (nbits w : Nat) :
    (s.withFetchWord nbits w).navCfg1 = s.navCfg1 := rfl
@[simp] theorem withFetchWord_navSfset (s : State) (nbits w : Nat) :
    (s.withFetchWord nbits w).navSfset = s.navSfset := rfl
@[simp] theorem withFetchWord_navWdset (s : State) (nbits w : Nat) :
    (s.withFetchWord nbits w).navWdset = s.navWdset := rfl
@[simp] theorem withFetchWord_ktab (s : State) (nbits w : Nat) :
    (s.withFetchWord nbits w).ktab = s.ktab := rfl
@[simp] theorem withFetchWord_cbuf (s : State) (nbits w : Nat) :
    (s.withFetchWord nbits w).cbuf = s.cbuf := rfl
@[simp] theorem withFetchWord_sync (s : State) (nbits w : Nat) :
    (s.withFetchWord nbits w).sync = s.sync := rfl
@[simp] theorem withFetchWord_evout (s : State) (nbits w : Nat) :
    (s.withFetchWord nbits w).evout = s.evout := rfl
@[simp] theorem withFetchWord_pending (s : State) (nbits w : Nat) :
    (s.withFetchWord nbits w).pending = commandInput (BitVec.ofNat 32 (w % 2 ^ nbits)) :: s.pending := rfl
@[simp] theorem withFetchWord_readLog (s : State) (nbits w : Nat) :
    (s.withFetchWord nbits w).readLog = s.readLog := rfl

end Sys2Proof.Machine
end

