-- ==== Sys2Proof/Laws/Ops.lean ====
section
/-! SUPPORT. One lemma for each shared operation of the commands, saying what it does, and the checks
of the commands as propositions. -/

namespace Sys2Proof.Machine

open Sys2Proof.Config

/-! ## Completing and faulting -/

theorem raise_eq (c : ErrCode) (s : State) : raise c s = .next (faulted c s) := rfl

theorem complete_eq (s : State) : complete s = .next { s with lastErr := .none } := rfl

theorem raiseFault_eq (c : ErrCode) (s : State) : raiseFault c s = faulted c s := rfl

/-! ## Checks -/

theorem fieldWidthOk_iff (w : Byte) : fieldWidthOk w = true ↔ 1 ≤ w.toNat ∧ w.toNat ≤ 32 := by
  simp [fieldWidthOk]

theorem signMagWidthOk_iff (w : Byte) : signMagWidthOk w = true ↔ 2 ≤ w.toNat ∧ w.toNat ≤ 32 := by
  simp [signMagWidthOk]

theorem scaleIndexOk_iff (k : Byte) : scaleIndexOk k = true ↔ k.toNat < 16 := by
  simp [scaleIndexOk, Nat.lt_succ_iff]

theorem unitKindOk_iff (u : Byte) : unitKindOk u = true ↔ u.toNat ≤ 1 := by
  simp [unitKindOk]

theorem cursorFits_iff (s : State) (n : Nat) :
    cursorFits s n = true ↔ s.bitpos.toNat + n ≤ 8 * s.clen.toNat :=
  decide_eq_true_iff

theorem byteRangeFits_iff (s : State) :
    byteRangeFits s = true ↔ s.arg0.toNat + s.arg1.toNat ≤ s.clen.toNat := by
  simp [byteRangeFits]

theorem bitRangeFits_iff (s : State) :
    bitRangeFits s = true ↔ s.arg0.toNat + s.arg1.toNat ≤ 8 * s.clen.toNat :=
  decide_eq_true_iff

theorem unitFits_iff (s : State) (n : Nat) :
    unitFits s n = true ↔ s.arg0.toNat + n ≤ s.clen.toNat := by
  simp [unitFits]

theorem navSfLegal_iff (s : State) : navSfLegal s = true ↔
    1 ≤ sfIdW s ∧ sfIdW s ≤ 5 ∧ sfIdOff s + sfIdW s ≤ 240 := by
  simp [navSfLegal, and_assoc]

theorem navWdLegal_iff (s : State) : navWdLegal s = true ↔
    1 ≤ wdIdW s ∧ wdIdW s ≤ 5 ∧ wdIdOff s + wdIdW s ≤ 88 := by
  simp [navWdLegal, and_assoc]

/-! ## Fields and ranges of CBUF -/

/-- CbufBits is the formula of 00_scope R8. -/
theorem cbufBits_eq (s : State) (p w : Nat) : cbufBits s p w = fieldValue s.cbuf p w :=
  streamBits_eq_sum _ _ _

theorem fieldValue_lt (m : Memory) (p w : Nat) : fieldValue m p w < 2 ^ w := by
  have h := streamBits_lt m.read p w
  rwa [streamBits_eq_sum] at h

/-- A field read as two fields side by side. -/
theorem fieldValue_add (m : Memory) (p k n : Nat) :
    fieldValue m p (k + n) = 2 ^ n * fieldValue m p k + fieldValue m (p + k) n := by
  have e := streamBits_add m.read p k n
  rwa [streamBits_eq_sum, streamBits_eq_sum m.read _ k, streamBits_eq_sum m.read _ n] at e

/-- The bits of a field, most significant first. -/
theorem testBit_fieldValue (m : Memory) {p w i : Nat} (h : i < w) :
    (fieldValue m p w).testBit (w - 1 - i) = streamBit m.read (p + i) := by
  have e := testBit_streamBits m.read p h
  rwa [streamBits_eq_sum] at e

/-- A field without its first bit. -/
theorem fieldValue_mod_top (m : Memory) (p w : Nat) :
    fieldValue m p (w + 1) % 2 ^ w = fieldValue m (p + 1) w := by
  rw [Nat.add_comm w 1, fieldValue_add, Nat.mul_add_mod, Nat.mod_eq_of_lt (fieldValue_lt m (p + 1) w)]

theorem bytesAt_eq (m : Memory) (start n : Nat) : bytesAt m start n = m.readRange start n :=
  (m.readRange_eq_map n start).symm

theorem cbufBytes_eq (s : State) (start n : Nat) : cbufBytes s start n = bytesAt s.cbuf start n :=
  (bytesAt_eq _ _ _).symm

/-- The bits CRC24QB takes, by their index. -/
theorem cbufBitList_eq (s : State) : ∀ (m p : Nat),
    cbufBitList s p m = (List.range m).map (fun j => streamBit s.cbuf.read (p + j))
  | 0, _ => rfl
  | m + 1, p => by
    rw [cbufBitList, cbufBitList_eq s m, List.range_succ_eq_map]
    simp [List.map_map, Function.comp_def, Nat.add_assoc, Nat.add_comm 1]

/-- A field of the view depends only on the bytes of the view. -/
theorem streamBits_view {m m' : Memory} {n : Nat} (h : ∀ a, a < n → m.read a = m'.read a)
    {p w : Nat} (hp : p + w ≤ 8 * n) : streamBits m.read p w = streamBits m'.read p w :=
  streamBits_congr fun i hi => by unfold streamBit; rw [h _ (by omega)]

/-- The cursor's advance does not wrap where the field fits and 8 * CLEN fits in 32 bits. -/
theorem advance_toNat (b : Word) (w : Nat) (h : b.toNat + w < 2 ^ 32) :
    (b + BitVec.ofNat 32 w).toNat = b.toNat + w := by
  rw [BitVec.toNat_add, BitVec.toNat_ofNat]
  omega

theorem advanceCursor_eq (s : State) (n : Nat) : advanceCursor s n =
    { s with bitpos := BitVec.ofNat 32 (s.bitpos.toNat + n) } := by
  unfold advanceCursor
  congr 1
  apply BitVec.eq_of_toNat_eq
  simp

/-! ## Checksum commands over a byte range -/

/-- One spec lemma for the shared body of SUM2, CRC32 and CRC24Q. -/
theorem overArgBytes_eq (f : List Byte → Word) (s : State) : overArgBytes f s =
    if s.arg0.toNat + s.arg1.toNat ≤ s.clen.toNat then
      .next { s with ckres := f (bytesAt s.cbuf s.arg0.toNat s.arg1.toNat), lastErr := .none }
    else .next (faulted .outOfRange s) := by
  by_cases h : s.arg0.toNat + s.arg1.toNat ≤ s.clen.toNat
  · simp [overArgBytes, (byteRangeFits_iff s).mpr h, h, complete, argBytes, cbufBytes_eq]
  · have : byteRangeFits s = false := by simpa [byteRangeFits] using h
    simp [overArgBytes, this, h, raise_eq]

/-! ## The port -/

/-- What an access of a register's own offset reaches. -/
theorem regAt_regOffset : ∀ r : Reg, regAt (regOffset r) = some r := by
  intro r
  cases r with
  | ktabLo k => revert k; decide
  | ktabHi k => revert k; decide
  | _ => decide

/-- The register whose four bytes hold an offset is in the map. -/
theorem regAt_some {offset : Nat} {r : Reg} (h : regAt offset = some r) :
    regOffset r = offset - offset % 4 := by
  simpa using List.find?_some h

/-- Every register of the map is listed. -/
theorem mem_allRegs : ∀ r : Reg, r ∈ allRegs := by
  intro r
  cases r with
  | ktabLo k => revert k; decide
  | ktabHi k => revert k; decide
  | _ => decide

/-- One spec lemma for an access that is no command: where it lands decides what it does. -/
theorem serveAccess_cases (a : PortAccess) (s : State) :
    (∃ bits offset, a = .read bits offset ∧ serveAccess a s = .next (portRead bits offset s)) ∨
    (∃ bits offset v, a = .write bits offset v ∧ portTarget s bits offset = .reg .cmd ∧
      serveAccess a s = runCommand v s) ∨
    (∃ bits offset v, a = .write bits offset v ∧ portTarget s bits offset ≠ .reg .cmd ∧
      serveAccess a s = .next (portWrite (portTarget s bits offset) v s)) := by
  cases a with
  | read bits offset => exact .inl ⟨bits, offset, rfl, rfl⟩
  | write bits offset v =>
    by_cases h : portTarget s bits offset = .reg .cmd
    · exact .inr (.inl ⟨bits, offset, v, rfl, h, by simp [serveAccess, h]⟩)
    · exact .inr (.inr ⟨bits, offset, v, rfl, h, by simp [serveAccess, h]⟩)

/-- One spec lemma for the address decoding: the offsets of the window and no other. -/
theorem offsetOf_eq_some_iff (s : State) (address o : Nat) : offsetOf s address = some o ↔
    address = baseAddress s + o ∧ o < 0x10000 + s.impl.cbufCap := by
  unfold offsetOf windowSpan cbufBase
  split <;> simp <;> omega

theorem offsetOf_eq_none_iff (s : State) (address : Nat) : offsetOf s address = none ↔
    address < baseAddress s ∨ baseAddress s + 0x10000 + s.impl.cbufCap ≤ address := by
  unfold offsetOf windowSpan cbufBase
  split <;> simp <;> omega

@[simp] theorem offsetOf_pending (s : State) (rest : List HostInput) (address : Nat) :
    offsetOf { s with pending := rest } address = offsetOf s address := rfl

@[simp] theorem presented_pending (s : State) (rest : List HostInput) (input : HostInput) :
    presented { s with pending := rest } input = presented s input := rfl

/-! ## Trailers -/

/-- Three bytes side by side, as a number (42_frame_synchronizer R118). -/
theorem toNat_append3 (a b c : Byte) :
    (a ++ b ++ c).toNat = a.toNat * 2 ^ 16 + b.toNat * 2 ^ 8 + c.toNat := by
  have := b.isLt
  have := c.isLt
  simp only [BitVec.toNat_append]
  rw [← Nat.shiftLeft_add_eq_or_of_lt (by omega), ← Nat.shiftLeft_add_eq_or_of_lt (by omega)]
  simp only [Nat.shiftLeft_eq]
  omega

/-- Four bytes side by side, as a number (42_frame_synchronizer R119). -/
theorem toNat_append4 (a b c d : Byte) : (a ++ b ++ c ++ d).toNat =
    a.toNat * 2 ^ 24 + b.toNat * 2 ^ 16 + c.toNat * 2 ^ 8 + d.toNat := by
  rw [BitVec.toNat_append, ← Nat.shiftLeft_add_eq_or_of_lt d.isLt, Nat.shiftLeft_eq, toNat_append3]
  omega

/-! ## The step -/

/-- One inversion lemma for a step that answers a next state. -/
theorem step_cases {s t : State} (h : step s = .next t) :
    (s.pending = [] ∧ t = s) ∨
    (∃ rest, s.pending = .blockReset :: rest ∧ t = blockReset { s with pending := rest }) ∨
    (∃ input rest, s.pending = input :: rest ∧ presented s input = none ∧
      t = { s with pending := rest }) ∨
    (∃ a input rest, s.pending = input :: rest ∧ presented s input = some a ∧
      serveAccess a { s with pending := rest } = .next t) := by
  unfold step servePending at h
  split at h
  · cases h
    exact .inl ⟨by assumption, rfl⟩
  · next i rest hp =>
    cases i with
    | access a => exact .inr (.inr (.inr ⟨a, _, rest, hp, rfl, h⟩))
    | addressed bits address data =>
      simp only [serveInput, offsetOf_pending] at h
      cases ho : offsetOf s address with
      | none =>
        rw [ho] at h
        cases h
        exact .inr (.inr (.inl ⟨_, rest, hp, by simp [presented, ho], rfl⟩))
      | some o =>
        rw [ho] at h
        exact .inr (.inr (.inr ⟨_, _, rest, hp, by simp [presented, ho], h⟩))
    | blockReset => cases h; exact .inr (.inl ⟨rest, hp, rfl⟩)
    | twoAgents a b => cases h

end Sys2Proof.Machine
end

