-- ==== Sys2Proof/Laws/PerInstr.lean ====
section
/-! SUPPORT. The statements made of every instruction, one lemma per constructor. -/

namespace Sys2Proof.Laws

/-- The fields of an instruction's command word are its opcode, its immediate and zeros (30_encoding
R61). -/
def EncodeFields.Statement (i : Instr) : Prop :=
  opField (encode i) = i.opcode ∧ immField (encode i) = i.imm8 ∧ rsvField (encode i) = 0#16

theorem EncodeFields.of_append (i : Instr) : EncodeFields.Statement i :=
  ⟨opField_append _ _ _, immField_append _ _ _, rsvField_append _ _ _⟩

theorem EncodeFields.nop : EncodeFields.Statement .nop := EncodeFields.of_append _

theorem EncodeFields.rdu (w : Byte) : EncodeFields.Statement (.rdu w) := EncodeFields.of_append _

theorem EncodeFields.wru (w : Byte) : EncodeFields.Statement (.wru w) := EncodeFields.of_append _

theorem EncodeFields.rdsm (w : Byte) : EncodeFields.Statement (.rdsm w) := EncodeFields.of_append _

theorem EncodeFields.rdx38 : EncodeFields.Statement .rdx38 := EncodeFields.of_append _

theorem EncodeFields.scaleu (k : Byte) : EncodeFields.Statement (.scaleu k) := EncodeFields.of_append _

theorem EncodeFields.scales (k : Byte) : EncodeFields.Statement (.scales k) := EncodeFields.of_append _

theorem EncodeFields.scalef (k : Byte) : EncodeFields.Statement (.scalef k) := EncodeFields.of_append _

theorem EncodeFields.xor8 : EncodeFields.Statement .xor8 := EncodeFields.of_append _

theorem EncodeFields.sum2 : EncodeFields.Statement .sum2 := EncodeFields.of_append _

theorem EncodeFields.crc32 : EncodeFields.Statement .crc32 := EncodeFields.of_append _

theorem EncodeFields.crc24q : EncodeFields.Statement .crc24q := EncodeFields.of_append _

theorem EncodeFields.crc24qb : EncodeFields.Statement .crc24qb := EncodeFields.of_append _

theorem EncodeFields.push (b : Byte) : EncodeFields.Statement (.push b) := EncodeFields.of_append _

theorem EncodeFields.pushn : EncodeFields.Statement .pushn := EncodeFields.of_append _

theorem EncodeFields.sreset : EncodeFields.Statement .sreset := EncodeFields.of_append _

theorem EncodeFields.navsf (e : Byte) : EncodeFields.Statement (.navsf e) := EncodeFields.of_append _

theorem EncodeFields.navwd (e : Byte) : EncodeFields.Statement (.navwd e) := EncodeFields.of_append _

theorem EncodeFields.navpar (u : Byte) : EncodeFields.Statement (.navpar u) := EncodeFields.of_append _

end Sys2Proof.Laws
end

