-- ==== Sys2Proof/Laws/Sync.lean ====
section
/-! SUPPORT. The laws of the synchronizer's work loop: what one step does to the measure of
42_frame_synchronizer R108, that Feed therefore never passes its bound, and how feeds compose. -/

namespace Sys2Proof.Machine

/-! ## What each ending of a step leaves -/
@[simp] theorem keepGoing_sync (y : Sync) : (keepGoing y).sync = y := rfl
@[simp] theorem keepGoing_replay (y : Sync) : (keepGoing y).replay = [] := rfl
@[simp] theorem keepGoing_events (y : Sync) : (keepGoing y).events = [] := rfl
@[simp] theorem emitFrame_sync (f : Frame) : (emitFrame f).sync = syncResetState := rfl
@[simp] theorem emitFrame_replay (f : Frame) : (emitFrame f).replay = [] := rfl
@[simp] theorem emitFrame_events (f : Frame) : (emitFrame f).events = [.frame f] := rfl
@[simp] theorem dropByte_sync (s : State) (y : Sync) :
    (dropByte s y).sync = { y with sstate := .seekingSync, garb := (garbage s y.garb).1 } := rfl
@[simp] theorem dropByte_replay (s : State) (y : Sync) : (dropByte s y).replay = [] := rfl
@[simp] theorem dropByte_events (s : State) (y : Sync) :
    (dropByte s y).events = (garbage s y.garb).2 := rfl
@[simp] theorem rejectAs_sync (k : DiscardKind) (c : List Byte) :
    (rejectAs k c).sync = { syncResetState with sstate := .seekingSync } := rfl
@[simp] theorem rejectAs_replay (k : DiscardKind) (c : List Byte) :
    (rejectAs k c).replay = c.drop 1 := rfl
@[simp] theorem rejectAs_events (k : DiscardKind) (c : List Byte) :
    (rejectAs k c).events = [.discard k (BitVec.ofNat 32 c.length)] := rfl
@[simp] theorem rejectSilently_sync (s : State) (y : Sync) (c : List Byte) :
    (rejectSilently s y c).sync = { syncResetState with sstate := .seekingSync, garb := (garbage s y.garb).1 } := rfl
@[simp] theorem rejectSilently_replay (s : State) (y : Sync) (c : List Byte) :
    (rejectSilently s y c).replay = c.drop 1 := rfl
@[simp] theorem rejectSilently_events (s : State) (y : Sync) (c : List Byte) :
    (rejectSilently s y c).events = (garbage s y.garb).2 := rfl
/-- The garbage counter emits no frame. -/
theorem frame_not_mem_garbage (s : State) (g : Word) (f : Frame) :
    Event.frame f ∉ (garbage s g).2 := by
  unfold garbage
  split <;> simp

/-! ## The measure of one step -/

/-- What R108 says of a step: it hands no byte back and takes its byte into the candidate or drops it,
or the candidate and the bytes handed back are together no longer than the candidate was. -/
def stepFalls (y : Sync) (r : StepResult) : Prop :=
  (r.replay = [] ∧ r.sync.fbuf.length ≤ y.fbuf.length + 1) ∨
  r.sync.fbuf.length + r.replay.length ≤ y.fbuf.length

theorem keepGoing_falls {y z : Sync} (h : z.fbuf.length ≤ y.fbuf.length + 1) :
    stepFalls y (keepGoing z) := .inl ⟨rfl, h⟩

theorem dropByte_falls (s : State) (y : Sync) : stepFalls y (dropByte s y) :=
  .inl ⟨rfl, Nat.le_succ _⟩

theorem emitFrame_falls (y : Sync) (f : Frame) : stepFalls y (emitFrame f) :=
  .inl ⟨rfl, Nat.zero_le _⟩

theorem rejectAs_falls (k : DiscardKind) (y : Sync) (b : Byte) :
    stepFalls y (rejectAs k (y.fbuf ++ [b])) :=
  .inr (by simp [rejectAs, syncResetState])

theorem rejectSilently_falls (s : State) (y : Sync) (b : Byte) :
    stepFalls y (rejectSilently s y (y.fbuf ++ [b])) :=
  .inr (by simp [rejectSilently, syncResetState])

theorem asciiHunt_falls (s : State) (y : Sync) (b : Byte) : stepFalls y (asciiHunt s y b) := by
  unfold asciiHunt
  split
  · exact keepGoing_falls (by simp)
  · exact dropByte_falls s y

theorem asciiBody_falls (s : State) (y : Sync) (b : Byte) : stepFalls y (asciiBody s y b) := by
  unfold asciiBody
  split_ifs
  · exact emitFrame_falls _ _
  · exact rejectAs_falls _ _ _
  · exact rejectAs_falls _ _ _
  · exact keepGoing_falls (by simp)
  · exact keepGoing_falls (by simp)

theorem asciiDigit_falls (y : Sync) (b : Byte) : stepFalls y (asciiDigit y (y.fbuf ++ [b])) := by
  unfold asciiDigit
  split
  · exact keepGoing_falls (by simp)
  · split_ifs
    · exact emitFrame_falls _ _
    · exact rejectAs_falls _ _ _
    · exact keepGoing_falls (by simp)

theorem asciiChecksum_falls (s : State) (y : Sync) (b : Byte) :
    stepFalls y (asciiChecksum s y b) := by
  unfold asciiChecksum
  split_ifs
  · exact rejectAs_falls _ _ _
  · exact rejectAs_falls _ _ _
  · exact asciiDigit_falls y b

theorem stepAscii_falls (s : State) (y : Sync) (b : Byte) : stepFalls y (stepAscii s y b) := by
  unfold stepAscii
  split
  · exact asciiHunt_falls s y b
  · exact asciiHunt_falls s y b
  · exact asciiHunt_falls s y b
  · exact asciiBody_falls s y b
  · exact asciiChecksum_falls s y b

theorem headerDone_falls (s : State) (g : BinGrammar) (y : Sync) (b : Byte) :
    stepFalls y (headerDone s g y (y.fbuf ++ [b])) := by
  unfold headerDone
  split_ifs
  · exact keepGoing_falls (by simp)
  · exact keepGoing_falls (by simp)
  · exact rejectAs_falls _ _ _

theorem checkDone_falls (s : State) (g : BinGrammar) (l : Nat) (y : Sync) (b : Byte) :
    stepFalls y (checkDone s g l (y.fbuf ++ [b])) := by
  unfold checkDone
  split_ifs
  · exact emitFrame_falls _ _
  · exact rejectAs_falls _ _ _

theorem binHunt_falls (s : State) (g : BinGrammar) (y : Sync) (b : Byte) :
    stepFalls y (binHunt s g y b) := by
  unfold binHunt
  split
  · split
    · exact keepGoing_falls (by simp)
    · exact dropByte_falls s y
  · split
    · split
      · split
        · exact headerDone_falls s g y b
        · exact keepGoing_falls (by simp)
      · exact keepGoing_falls (by simp)
    · exact rejectSilently_falls s y b

theorem binHeader_falls (s : State) (g : BinGrammar) (y : Sync) (b : Byte) :
    stepFalls y (binHeader s g y b) := by
  unfold binHeader
  split
  · exact headerDone_falls s g y b
  · exact keepGoing_falls (by simp)

theorem binBody_falls (s : State) (g : BinGrammar) (y : Sync) (b : Byte) :
    stepFalls y (binBody s g y b) := by
  unfold binBody
  split <;> exact keepGoing_falls (by simp)

theorem binTrailer_falls (s : State) (g : BinGrammar) (y : Sync) (b : Byte) :
    stepFalls y (binTrailer s g y b) := by
  unfold binTrailer
  split
  · exact keepGoing_falls (by simp)
  · split
    · exact checkDone_falls _ _ _ _ _
    · exact keepGoing_falls (by simp)

theorem stepBin_falls (s : State) (g : BinGrammar) (y : Sync) (b : Byte) :
    stepFalls y (stepBin s g y b) := by
  unfold stepBin
  split
  · exact binHunt_falls s g y b
  · exact binHunt_falls s g y b
  · exact binHeader_falls s g y b
  · exact binBody_falls s g y b
  · exact binTrailer_falls s g y b

/-- R108's measure falls at every step of either grammar kind, in every state. -/
theorem syncStep_falls (s : State) (y : Sync) (b : Byte) : stepFalls y (syncStep s y b) := by
  unfold syncStep
  split
  · exact stepAscii_falls s y b
  · exact stepBin_falls s _ y b

/-! ## The loop -/

/-- A bound on the loop's steps from a queue of `q` bytes and a candidate of `f` bytes, `k` bounding
their sum: the pair (f + q, q) falls in lexicographic order. -/
def loopBound (k f q : Nat) : Nat := (f + q) * (k + 1) + q

/-- With a bound at least that of the measure, the loop ends. -/
theorem feedLoop_isSome (s : State) (k : Nat) :
    ∀ (n : Nat) (queue : List Byte) (y : Sync) (events : List Event),
      y.fbuf.length + queue.length ≤ k → loopBound k y.fbuf.length queue.length ≤ n →
      (feedLoop s n queue y events).isSome = true
  | _, [], _, _, _, _ => by simp [feedLoop]
  | 0, _ :: _, _, _, _, hn => by simp [loopBound] at hn
  | n + 1, c :: queue, y, events, hk, hn => by
    rw [feedLoop]
    have hlen : ((syncStep s y c).replay ++ queue).length =
        (syncStep s y c).replay.length + queue.length := List.length_append
    simp only [List.length_cons] at hk hn
    rcases syncStep_falls s y c with ⟨hr, hf⟩ | hf
    · have hr' : (syncStep s y c).replay.length = 0 := by rw [hr]; rfl
      refine feedLoop_isSome s k n _ _ _ (by omega) ?_
      rw [hlen, hr']
      unfold loopBound at hn ⊢
      have h1 : ((syncStep s y c).sync.fbuf.length + (0 + queue.length)) * (k + 1) ≤
          (y.fbuf.length + (queue.length + 1)) * (k + 1) := Nat.mul_le_mul_right _ (by omega)
      omega
    · refine feedLoop_isSome s k n _ _ _ (by omega) ?_
      rw [hlen]
      unfold loopBound at hn ⊢
      have h1 : ((syncStep s y c).sync.fbuf.length + ((syncStep s y c).replay.length + queue.length)) *
          (k + 1) + (k + 1) ≤ (y.fbuf.length + (queue.length + 1)) * (k + 1) := by
        rw [← Nat.succ_mul]
        exact Nat.mul_le_mul_right _ (by omega)
      omega

/-- Feed never passes its bound (R108). -/
theorem feed_isSome (s : State) (y : Sync) (b : Byte) : (feed s y b).isSome = true := by
  refine feedLoop_isSome s (y.fbuf.length + 1) _ _ _ _ (Nat.le_refl _) ?_
  unfold loopBound feedBound
  simp only [List.length_singleton]
  nlinarith

theorem feedAll_isSome (s : State) : ∀ (bytes : List Byte) (y : Sync),
    (feedAll s bytes y).isSome = true
  | [], _ => rfl
  | b :: bs, y => by
    obtain ⟨r, hr⟩ := Option.isSome_iff_exists.mp (feed_isSome s y b)
    simp [feedAll, hr, feedAll_isSome s bs r.1]

/-- A larger bound gives the same answer. -/
theorem feedLoop_mono (s : State) :
    ∀ {n m : Nat} {queue : List Byte} {y : Sync} {events : List Event} {r : Sync × List Event},
      n ≤ m → feedLoop s n queue y events = some r → feedLoop s m queue y events = some r
  | n, m, [], y, events, r, _, h => by
    cases n <;> cases m <;> simpa [feedLoop] using h
  | 0, _, _ :: _, _, _, _, _, h => by simp [feedLoop] at h
  | n + 1, 0, _ :: _, _, _, _, hnm, _ => by omega
  | n + 1, m + 1, c :: queue, y, events, r, hnm, h => by
    rw [feedLoop] at h ⊢
    exact feedLoop_mono s (by omega) h

/-- Events already appended stay in front. -/
theorem feedLoop_events (s : State) :
    ∀ (n : Nat) (queue : List Byte) (y : Sync) (events : List Event),
      feedLoop s n queue y events =
        (feedLoop s n queue y []).map (fun r => (r.1, events ++ r.2))
  | n, [], y, events => by cases n <;> simp [feedLoop]
  | 0, _ :: _, _, _ => by simp [feedLoop]
  | n + 1, c :: queue, y, events => by
    rw [feedLoop, feedLoop, feedLoop_events s n _ _ (events ++ _), List.nil_append,
      feedLoop_events s n _ _ (syncStep s y c).events, Option.map_map]
    congr 1
    funext r
    simp [List.append_assoc]

/-- A queue's front part is worked off before its back part. -/
theorem feedLoop_append (s : State) :
    ∀ (n m : Nat) (front back : List Byte) (y : Sync) (events : List Event) (r : Sync × List Event)
      (r' : Sync × List Event),
      feedLoop s n front y events = some r → feedLoop s m back r.1 r.2 = some r' →
      feedLoop s (n + m) (front ++ back) y events = some r'
  | n, m, [], back, y, events, r, r', h, h' => by
    have : (y, events) = r := by cases n <;> simpa [feedLoop] using h
    subst this
    exact feedLoop_mono s (by omega) h'
  | 0, _, _ :: _, _, _, _, _, _, h, _ => by simp [feedLoop] at h
  | n + 1, m, c :: front, back, y, events, r, r', h, h' => by
    rw [feedLoop] at h
    have e : n + 1 + m = (n + m) + 1 := by omega
    rw [e, List.cons_append, feedLoop, ← List.append_assoc]
    exact feedLoop_append s n m _ back _ _ r r' h h'

/-- One spec lemma for Feed: it answers what the loop answers under any bound that is enough. -/
theorem feed_eq_of_loop {s : State} {y : Sync} {b : Byte} {n : Nat} {r : Sync × List Event}
    (h : feedLoop s n [b] y [] = some r) : feed s y b = some r := by
  obtain ⟨r', hr'⟩ := Option.isSome_iff_exists.mp (feed_isSome s y b)
  have h1 := feedLoop_mono s (Nat.le_max_left n (feedBound y)) h
  have h2 := feedLoop_mono s (Nat.le_max_right n (feedBound y)) hr'
  rw [hr', ← h1, ← h2]

/-- A step that hands nothing back is the whole Feed. -/
theorem feed_of_no_replay {s : State} {y : Sync} {b : Byte} (h : (syncStep s y b).replay = []) :
    feed s y b = some ((syncStep s y b).sync, (syncStep s y b).events) := by
  refine feed_eq_of_loop (n := 1) ?_
  simp [feedLoop, h]

/-- One spec lemma for FeedAll: bytes fed in two runs are the bytes fed in one. -/
theorem feedAll_append (s : State) : ∀ (xs ys : List Byte) (y : Sync),
    feedAll s (xs ++ ys) y =
      (feedAll s xs y).bind (fun r => (feedAll s ys r.1).map (fun t => (t.1, r.2 ++ t.2)))
  | [], ys, y => by simp [feedAll]
  | b :: bs, ys, y => by
    simp only [List.cons_append, feedAll]
    cases feed s y b with
    | none => rfl
    | some r =>
      simp only [feedAll_append s bs ys r.1]
      cases feedAll s bs r.1 with
      | none => rfl
      | some t =>
        cases h : feedAll s ys t.1 <;> simp [h]

/-- FeedAll answers what the loop answers on the whole queue. -/
theorem feedAll_eq_of_loop {s : State} : ∀ (bytes : List Byte) {y : Sync} {n : Nat}
    {r : Sync × List Event}, feedLoop s n bytes y [] = some r → feedAll s bytes y = some r
  | [], y, n, r, h => by cases n <;> simpa [feedLoop, feedAll] using h
  | b :: bs, y, n, r, h => by
    obtain ⟨u, hu⟩ := Option.isSome_iff_exists.mp (feed_isSome s y b)
    obtain ⟨v, hv⟩ := Option.isSome_iff_exists.mp (feedAll_isSome s bs u.1)
    obtain ⟨m, hm⟩ : ∃ m, feedLoop s m bs u.1 [] = some v := by
      obtain ⟨m, hm⟩ : ∃ m, (feedLoop s m bs u.1 []).isSome = true :=
        ⟨_, feedLoop_isSome s (u.1.fbuf.length + bs.length) _ _ _ _ (Nat.le_refl _) (Nat.le_refl _)⟩
      obtain ⟨w, hw⟩ := Option.isSome_iff_exists.mp hm
      have := feedAll_eq_of_loop bs hw
      rw [hv] at this
      exact ⟨m, by rw [hw, ← this]⟩
    have hm' : feedLoop s m bs u.1 u.2 = some (v.1, u.2 ++ v.2) := by
      rw [feedLoop_events, hm]; rfl
    have hall := feedLoop_append s _ _ [b] bs y [] u _ hu hm'
    have h1 := feedLoop_mono s (Nat.le_max_left n (feedBound y + m)) h
    have h2 := feedLoop_mono s (Nat.le_max_right n (feedBound y + m)) hall
    rw [List.singleton_append, h1] at h2
    simp only [feedAll, hu, hv, Option.map_some]
    rw [h2]

/-! ## What a step depends on -/

/-- Two states with the same implementation and synchronizer configuration. -/
def sameConfig (s t : State) : Prop :=
  s.impl = t.impl ∧ s.scfg = t.scfg ∧ s.lpSync = t.lpSync ∧ s.lpLim = t.lpLim ∧ s.bpCfg = t.bpCfg ∧
  s.bpLim = t.bpLim ∧ s.h32Sync = t.h32Sync ∧ s.h32Cfg = t.h32Cfg ∧ s.h32Lim = t.h32Lim ∧
  s.asciiCfg = t.asciiCfg ∧ s.lookahead = t.lookahead

theorem sameConfig_refl (s : State) : sameConfig s s :=
  ⟨rfl, rfl, rfl, rfl, rfl, rfl, rfl, rfl, rfl, rfl, rfl⟩

/-- The legality of a configuration depends on nothing else. -/
theorem configLegal_congr {s t : State} (h : sameConfig s t) : configLegal s = configLegal t := by
  cases s
  cases t
  obtain ⟨h1, h2, h3, h4, h5, h6, h7, h8, h9, h10, h11⟩ := h
  simp only at h1 h2 h3 h4 h5 h6 h7 h8 h9 h10 h11
  subst h1 h2 h3 h4 h5 h6 h7 h8 h9 h10 h11
  rfl

/-- A step of the synchronizer depends on nothing else. -/
theorem syncStep_congr {s t : State} (h : sameConfig s t) (y : Sync) (b : Byte) :
    syncStep s y b = syncStep t y b := by
  cases s
  cases t
  obtain ⟨h1, h2, h3, h4, h5, h6, h7, h8, h9, h10, h11⟩ := h
  simp only at h1 h2 h3 h4 h5 h6 h7 h8 h9 h10 h11
  subst h1 h2 h3 h4 h5 h6 h7 h8 h9 h10 h11
  rfl

theorem feedLoop_congr {s t : State} (h : sameConfig s t) :
    ∀ (n : Nat) (queue : List Byte) (y : Sync) (events : List Event),
      feedLoop s n queue y events = feedLoop t n queue y events
  | n, [], _, _ => by cases n <;> rfl
  | 0, _ :: _, _, _ => rfl
  | n + 1, c :: queue, y, events => by
    rw [feedLoop, feedLoop, syncStep_congr h, feedLoop_congr h n]

theorem feed_congr {s t : State} (h : sameConfig s t) (y : Sync) (b : Byte) :
    feed s y b = feed t y b := feedLoop_congr h _ _ _ _

theorem feedAll_congr {s t : State} (h : sameConfig s t) :
    ∀ (bytes : List Byte) (y : Sync), feedAll s bytes y = feedAll t bytes y
  | [], _ => rfl
  | b :: bs, y => by
    simp only [feedAll, feed_congr h y b]
    cases feed t y b with
    | none => rfl
    | some r => simp only [feedAll_congr h bs r.1]

/-! ## The push -/

/-- One spec lemma for the push of a byte sequence: it always completes, with the synchronizer and the
events that FeedAll gives. -/
theorem pushBytes_spec (bytes : List Byte) (s : State) :
    ∃ r, feedAll s bytes s.sync = some r ∧
      pushBytes bytes s =
        .next { s with sync := r.1, evout := s.evout ++ r.2, lastErr := .none } := by
  obtain ⟨r, hr⟩ := Option.isSome_iff_exists.mp (feedAll_isSome s bytes s.sync)
  exact ⟨r, hr, by simp [pushBytes, hr, complete]⟩

end Sys2Proof.Machine
end

