-- ==== Sys2Proof/Machine/Assembler.lean ====
section
/-! DEFINITION. The assembler lines and pseudo-instructions (30_encoding R67, R68): each is a sequence
of port accesses and has no behaviour of its own. -/

namespace Sys2Proof.Machine

/-- The line forms of 30_encoding R67. -/
inductive AsmLine where
  | w32 (offset : Nat) (v : Word)
  | w8 (offset : Nat) (v : Byte)
  | r32 (offset : Nat)
  | r8 (offset : Nat)
  /-- `<MNEMONIC>` or `<MNEMONIC> <imm>`. -/
  | command (i : Instr)
  deriving DecidableEq, Repr

/-- The access a line stands for: a command line is a 32-bit write of its word to CMD (R67). -/
def lineAccess : AsmLine → PortAccess
  | .w32 offset v => .write 32 offset v
  | .w8 offset v => .write 8 offset (v.setWidth 32)
  | .r32 offset => .read 32 offset
  | .r8 offset => .read 8 offset
  | .command i => .write 32 (regOffset .cmd) (encode i)

/-- The commands whose pseudo-instruction takes a start and a length (R68). -/
inductive RangedCommand where
  | xor8 | sum2 | crc32 | crc24q | crc24qb | pushn
  deriving DecidableEq, Repr

/-- The command of a ranged pseudo-instruction. -/
def rangedInstr : RangedCommand → Instr
  | .xor8 => .xor8
  | .sum2 => .sum2
  | .crc32 => .crc32
  | .crc24q => .crc24q
  | .crc24qb => .crc24qb
  | .pushn => .pushn

/-- The commands whose pseudo-instruction takes a start and an immediate (R68). -/
inductive UnitCommand where
  | navsf | navwd | navpar
  deriving DecidableEq, Repr

/-- The command of a unit pseudo-instruction. -/
def unitInstr (c : UnitCommand) (imm : Byte) : Instr :=
  match c with
  | .navsf => .navsf imm
  | .navwd => .navwd imm
  | .navpar => .navpar imm

/-- The pseudo-instructions of 30_encoding R68. -/
inductive Pseudo where
  | seek (p : Word)
  | view (n : Word)
  | setval (v : DWord)
  | wruv (w : Byte) (v : DWord)
  | range (start len : Word)
  | ranged (c : RangedCommand) (start len : Word)
  | onUnit (c : UnitCommand) (start : Word) (imm : Byte)
  | loadb (i : Nat) (bytes : List Byte)
  | pushs (bytes : List Byte)
  | clrerr
  | grammar (g : Word)
  deriving DecidableEq, Repr

/-- LOADB i, b0 b1 ... (R68). -/
def loadLines (i : Nat) : List Byte → List AsmLine
  | [] => []
  | b :: bs => .w8 (cbufBase + i) b :: loadLines (i + 1) bs

/-- RANGE s, l (R68). -/
def rangeLines (start len : Word) : List AsmLine :=
  [.w32 (regOffset .arg0) start, .w32 (regOffset .arg1) len]

/-- SETVAL v (R68). -/
def setvalLines (v : DWord) : List AsmLine :=
  [.w32 (regOffset .valLo) (lowWord v), .w32 (regOffset .valHi) (highWord v)]

/-- The exact expansion of a pseudo-instruction (R68). -/
def expand : Pseudo → List AsmLine
  | .seek p => [.w32 (regOffset .bitpos) p]
  | .view n => [.w32 (regOffset .clen) n]
  | .setval v => setvalLines v
  | .wruv w v => setvalLines v ++ [.command (.wru w)]
  | .range start len => rangeLines start len
  | .ranged c start len => rangeLines start len ++ [.command (rangedInstr c)]
  | .onUnit c start imm => [.w32 (regOffset .arg0) start, .command (unitInstr c imm)]
  | .loadb i bytes => loadLines i bytes
  | .pushs bytes => bytes.map (fun b => .command (.push b))
  | .clrerr => [.w32 (regOffset .status) 0x10#32]
  | .grammar g => [.w32 (regOffset .scfg) g]

/-- The inputs of a pseudo-instruction, in order. -/
def pseudoInputs (p : Pseudo) : List HostInput :=
  (expand p).map (fun l => .access (lineAccess l))

/-- A state with a pseudo-instruction's accesses to come after those already pending. -/
def enqueue (s : State) (p : Pseudo) : State := { s with pending := s.pending ++ pseudoInputs p }

end Sys2Proof.Machine
end

