-- ==== Sys2Proof/Tests/Slice0.lean ====
section
/-! SUPPORT. Tests: the ill-formed terms each check refuses, one word per instruction written out from
the opcode map, single steps with values from the spec's vectors (95_test_vectors), and for every
statement that has hypotheses a concrete state and operands that meet them. -/

namespace Sys2Proof.Machine.Tests

-- Each `decide +kernel` waits for the theorems before it. One at a time they need one thread, not one
-- thread for each that waits.
set_option Elab.async false

open Sys2Proof.Config

/-! ## Helpers -/

/-- A memory holding bytes from index 0. -/
def memOf (bytes : List Byte) : Memory :=
  (bytes.zipIdx).foldl (fun m c => m.write c.2 c.1) { cells := [] }

/-- The reset state with bytes in CBUF and CLEN their number. -/
def loaded (bytes : List Byte) : State :=
  { State.reset with cbuf := memOf bytes, clen := BitVec.ofNat 32 bytes.length }

/-- The reset state with a grammar selected. -/
def speaking (g : Word) : State := { State.reset with scfg := g }

/-- The state an outcome goes on in, if it does. -/
def nextOf : Result → Option State
  | .next t => some t
  | .fault _ => none
  | .refused _ => none

/-- A view of the state after an instruction. -/
def after {α : Type} (i : Instr) (s : State) (f : State → α) : Option α := (nextOf (exec i s)).map f

/-- The empty BITPACK frame of V40. -/
def emptyBitpack : Event := .frame
  { proto := .binary .bitpack
    id := .none
    poff := 3
    plen := 0
    valid := true
    bytes := [0xD3, 0x00, 0x00, 0x47, 0xEA, 0x4B] }

/-- The empty ASCII sentence of V36, its checksum `00`. -/
def emptySentence : Event := .frame
  { proto := .ascii
    id := .ascii [] []
    poff := 1
    plen := 0
    valid := true
    bytes := [0x24, 0x2A, 0x30, 0x30] }

/-- An ASCII candidate that lacks its last digit. -/
def lastDigitMissing : Sync :=
  { syncResetState with sstate := .awaitingChecksum, fbuf := [0x24, 0x2A, 0x30], star := some 1 }

/-- A LENPFX candidate inside its header. -/
def insideHeader : Sync :=
  { syncResetState with sstate := .accumulatingLength, fbuf := [0xB5, 0x62, 0x06] }

/-- The bytes 61 62 63. -/
def abc : List Byte := [0x61#8, 0x62#8, 0x63#8]

/-! ## Ill-formed terms (30_encoding R65) -/

theorem test_wf_rdu_zero : (Instr.rdu 0).wf = false := by decide
theorem test_wf_rdu_wide : (Instr.rdu 33).wf = false := by decide
theorem test_wf_wru_zero : (Instr.wru 0).wf = false := by decide
theorem test_wf_wru_wide : (Instr.wru 33).wf = false := by decide
theorem test_wf_rdsm_one : (Instr.rdsm 1).wf = false := by decide
theorem test_wf_rdsm_wide : (Instr.rdsm 33).wf = false := by decide
theorem test_wf_scaleu : (Instr.scaleu 16).wf = false := by decide
theorem test_wf_scales : (Instr.scales 16).wf = false := by decide
theorem test_wf_scalef : (Instr.scalef 255).wf = false := by decide
theorem test_wf_navpar : (Instr.navpar 2).wf = false := by decide

/-- A term the encoding does not admit takes the fault of its word (log 13). -/
theorem test_exec_ill_formed :
    nextOf (exec (.rdu 33) State.reset) = some (faulted .illegalCommand State.reset) := by decide +kernel

/-! ## Decoding: one word per instruction, from V60 and the opcode map -/

theorem test_decode_nop : decode 0b00000000_00000000_0000000000000000#32 = .ok .nop := by decide
theorem test_decode_rdu : decode 0b00010000_00001100_0000000000000000#32 = .ok (.rdu 12) := by decide
theorem test_decode_wru : decode 0b00010001_00001010_0000000000000000#32 = .ok (.wru 10) := by decide
theorem test_decode_rdsm : decode 0b00010010_00100000_0000000000000000#32 = .ok (.rdsm 32) := by decide
theorem test_decode_rdx38 : decode 0b00010011_00000000_0000000000000000#32 = .ok .rdx38 := by decide
theorem test_decode_scaleu : decode 0b00010100_00000010_0000000000000000#32 = .ok (.scaleu 2) := by decide
theorem test_decode_scales : decode 0b00010101_00000010_0000000000000000#32 = .ok (.scales 2) := by decide
theorem test_decode_scalef : decode 0b00010110_00001111_0000000000000000#32 = .ok (.scalef 15) := by decide
theorem test_decode_xor8 : decode 0b00100000_00000000_0000000000000000#32 = .ok .xor8 := by decide
theorem test_decode_sum2 : decode 0b00100001_00000000_0000000000000000#32 = .ok .sum2 := by decide
theorem test_decode_crc32 : decode 0b00100010_00000000_0000000000000000#32 = .ok .crc32 := by decide
theorem test_decode_crc24q : decode 0b00100011_00000000_0000000000000000#32 = .ok .crc24q := by decide
theorem test_decode_crc24qb : decode 0b00100100_00000000_0000000000000000#32 = .ok .crc24qb := by decide
theorem test_decode_push : decode 0b00110000_10110101_0000000000000000#32 = .ok (.push 0xB5) := by decide
theorem test_decode_pushn : decode 0b00110001_00000000_0000000000000000#32 = .ok .pushn := by decide
theorem test_decode_sreset : decode 0b00110010_00000000_0000000000000000#32 = .ok .sreset := by decide
theorem test_decode_navsf : decode 0b01000000_00000011_0000000000000000#32 = .ok (.navsf 3) := by decide
theorem test_decode_navwd : decode 0b01000001_11111111_0000000000000000#32 = .ok (.navwd 255) := by decide
theorem test_decode_navpar : decode 0b01000010_00000001_0000000000000000#32 = .ok (.navpar 1) := by decide

/-- V18: one word for each clause of R65. -/
theorem test_decode_rejects :
    decode 0x00000001#32 = .error .reservedBits ∧ decode 0xFF000000#32 = .error .reservedOpcode ∧
    decode 0x13010000#32 = .error .unusedImmediate ∧ decode 0x10210000#32 = .error .fieldWidth ∧
    decode 0x12010000#32 = .error .signMagWidth ∧ decode 0x14100000#32 = .error .scaleIndex ∧
    decode 0x42020000#32 = .error .unitKind := by decide

/-- The host's two entry points, on the word of WRU 10 (V60). -/
theorem test_decodeTableWord : decodeTableWord 32 0x110A0000 = some (.wru 10) := by decide
/-- R52: a write of NOP's word to CMD at BLOCK_BASE. -/
theorem test_addressed : nextOf (step { State.reset with
    impl := { defaultImpl with base := .placed 0x1000 }
    lastErr := .outOfRange
    pending := [.addressed 32 0x1000 (some 0)] }) =
    some { State.reset with impl := { defaultImpl with base := .placed 0x1000 } } := by decide +kernel
theorem test_withFetchWord :
    nextOf (step (State.reset.withFetchWord 32 0x00000000)) = some State.reset := by decide +kernel

/-! ## Single steps, with the values of the spec's vectors -/

/-- V11: the message number of a 1005 message. -/
theorem test_rdu : after (.rdu 12) { loaded [0xD3, 0x00, 0x13, 0x3E, 0xD0] with bitpos := 24 }
    (fun t => (t.res, t.bitpos, t.lastErr)) = some (1005, 36, .none) := by decide +kernel

/-- V11: one bit past the view. -/
theorem test_rdu_past_view : after (.rdu 5) { loaded [0xD3, 0x00, 0x13, 0x3E, 0xD0] with bitpos := 36 }
    (fun t => (t.res, t.bitpos, statusWord t)) = some (0, 36, 0x11) := by decide +kernel

/-- V12: bits outside the field keep their values. -/
theorem test_wru : after (.wru 10)
    { loaded [0xFF, 0xFF, 0xFF] with bitpos := 3, val := 0 }
    (fun t => (t.cbuf.readRange 0 3, t.bitpos)) = some ([0xE0, 0x07, 0xFF], 13) := by decide +kernel

/-- V12: only the low 32 bits of VAL are written. -/
theorem test_wru_truncates : after (.wru 32)
    { loaded [0xFF, 0, 0, 0, 0, 0] with bitpos := 7, val := 0x123456789 }
    (fun t => t.cbuf.readRange 0 6) = some [0xFE, 0x46, 0x8A, 0xCF, 0x12, 0x00] := by decide +kernel

/-- V13: -5.0. -/
theorem test_rdsm : after (.rdsm 8) (loaded [0x85])
    (fun t => (t.res, t.fres)) = some (0x85, 0xC014000000000000) := by decide +kernel

/-- V13: -0.0. -/
theorem test_rdsm_minus_zero : after (.rdsm 32) (loaded [0x80, 0, 0, 0])
    (fun t => (t.res, t.fres)) = some (0x80000000, 0x8000000000000000) := by decide +kernel

/-- V14: -2^37 across byte boundaries. -/
theorem test_rdx38 : after .rdx38 { loaded [0x10, 0, 0, 0, 0, 0] with bitpos := 3 }
    (fun t => (t.res, t.fres, t.bitpos)) =
      some (0xFFFFFFE000000000, 0xC240000000000000, 41) := by decide +kernel

/-- V14: one bit past the view. -/
theorem test_rdx38_past_view : after .rdx38 { loaded [0, 0, 0, 0, 0] with bitpos := 3 }
    (fun t => (t.bitpos, t.lastErr)) = some (3, .outOfRange) := by decide +kernel

/-- V15: a product that needs rounding. -/
theorem test_scaleu : after (.scaleu 2) { State.reset with res := 123456789 }
    (fun t => t.fres) = some 0x40C81CD6E631F8A1 := by decide +kernel

/-- V15: the signed read of all ones is -1. -/
theorem test_scales : after (.scales 0) { State.reset with res := 0xFFFFFFFFFFFFFFFF }
    (fun t => t.fres) = some 0xBF40000000000000 := by decide +kernel

/-- V15: -5 * 2^-20. -/
theorem test_scalef : after (.scalef 1) { State.reset with fres := 0xC014000000000000 }
    (fun t => t.fres) = some 0xBED4000000000000 := by decide +kernel

/-- V16: overflow, a subnormal, a tie to zero, and a NaN operand. -/
theorem test_mulf_corners :
    mulf 0x4000000000000000 0x7FEFFFFFFFFFFFFF = 0x7FF0000000000000 ∧
    mulf 0x3FF0000000000000 0x0000000000000001 = 0x0000000000000001 ∧
    mulf 0x0000000000000001 0x3FE0000000000000 = 0x0000000000000000 ∧
    mulf 0x3FF0000000000000 0xFFF8000000000000 = 0x7FF8000000000000 := by decide +kernel

/-- V22, the bytes 61 62 63. -/
theorem test_xor8 : after .xor8 { loaded abc with arg1 := 3 }
    (fun t => (t.ckres, t.ckhex)) = some (0x60, 0x3036) := by decide +kernel

/-- V26: letters are uppercase, the high digit in bits 7:0. -/
theorem test_xor8_letters : after .xor8 { loaded [0x4D] with arg1 := 1 }
    (fun t => t.ckhex) = some 0x4434 := by decide +kernel

/-- V22, the bytes 61 62 63. -/
theorem test_sum2 : after .sum2 { loaded abc with arg1 := 3 }
    (fun t => t.ckres) = some 0x4A26 := by decide +kernel

/-- V22, the bytes 61 62 63, preset 0. -/
theorem test_crc32 : after .crc32 { loaded abc with arg1 := 3 }
    (fun t => t.ckres) = some 0xCA6598D0 := by decide +kernel

/-- V22, the bytes 61 62 63, preset 0xFFFFFFFF. -/
theorem test_crc32_ones : after .crc32
    { loaded abc with arg1 := 3, impl := { defaultImpl with crc32Preset := .ones } }
    (fun t => t.ckres) = some 0x352441C2 := by decide +kernel

/-- V22, the bytes 61 62 63. -/
theorem test_crc24q : after .crc24q { loaded abc with arg1 := 3 }
    (fun t => t.ckres) = some 0x9FF359 := by decide +kernel

/-- V25: 16 bits from bit offset 4. -/
theorem test_crc24qb : after .crc24qb
    { loaded [0xD3, 0x00, 0x13, 0x3E, 0xD0] with arg0 := 4, arg1 := 16 }
    (fun t => t.ckres) = some 0x14054F := by decide +kernel

/-- V36 and R111: the last digit of a sentence with the right checksum emits it. -/
theorem test_push : after (.push 0x30) { State.reset with sync := lastDigitMissing }
    (fun t => (t.evout, t.sync)) = some ([emptySentence], syncResetState) := by decide +kernel

/-- V57: an illegal configuration. -/
theorem test_push_config : after (.push 0x24) { State.reset with asciiCfg := 0 }
    (fun t => (t.evout, statusWord t)) = some ([], 0x15) := by decide +kernel

/-- V40: a BITPACK frame with no payload. -/
theorem test_pushn : after .pushn
    { loaded [0xD3, 0x00, 0x00, 0x47, 0xEA, 0x4B] with arg1 := 6, scfg := 2 }
    (fun t => (t.evout, t.sync)) = some ([emptyBitpack], syncResetState) := by decide +kernel

/-- V46: a rejected candidate's bytes are examined again and hold a whole frame. -/
theorem test_pushn_replay : after .pushn
    { loaded [0xD3, 0x00, 0x06, 0xD3, 0x00, 0x00, 0x47, 0xEA, 0x4B, 0x00, 0x00, 0x00] with
      arg1 := 12, scfg := 2 }
    (fun t => (t.evout, t.sync.garb)) =
      some ([.discard .checksumMismatch 12, emptyBitpack], 3) := by decide +kernel

/-- V56: the candidate is dropped. -/
theorem test_sreset : after .sreset { speaking 1 with sync := insideHeader }
    (fun t => t.sync) = some syncResetState := by decide +kernel

/-- The subframe of V50: preamble 8B and id 3. -/
def subframe3 : List Byte := [0x8B, 0, 0, 0, 0, 0x0C] ++ List.replicate 24 0

/-- V50: the expected id, and another one. -/
theorem test_navsf : after (.navsf 3) (loaded subframe3) (fun t => (t.navid, statusWord t)) =
    some (3, 0) := by decide +kernel
theorem test_navsf_unexpected : after (.navsf 2) (loaded subframe3)
    (fun t => (t.navid, statusWord t)) = some (0, 0x13) := by decide +kernel

/-- V51: word id 5, and a view one byte short. -/
theorem test_navwd : after (.navwd 5) { loaded [0x28] with clen := 11 }
    (fun t => (t.navid, statusWord t)) = some (5, 0) := by decide +kernel
theorem test_navwd_short : after (.navwd 0) { loaded [0x28] with clen := 10 }
    (fun t => (t.navid, statusWord t)) = some (0, 0x12) := by decide +kernel

/-- The parameters with a constant parity predicate, as R129 admits. -/
def withParity (b : Bool) : Impl := { defaultImpl with navParity := .const b }

/-- V52: the predicate true, and false. -/
theorem test_navpar : after (.navpar 0) { State.reset with clen := 11, impl := withParity true }
    statusWord = some 0 := by decide +kernel
theorem test_navpar_fails : after (.navpar 0) { State.reset with clen := 11, impl := withParity false }
    statusWord = some 0x13 := by decide +kernel

/-- V53: LAST_ERR goes, ERR_STICKY stays. -/
theorem test_nop : after .nop { State.reset with lastErr := .outOfRange, errSticky := true }
    statusWord = some 0x10 := by decide +kernel

/-- V55: an 8-bit write of a register is bad. -/
theorem test_bad_write : nextOf (serveAccess (.write 8 0x008 5) State.reset) =
    some (faulted .badAccess State.reset) := by decide +kernel

/-- V54: writing 1 to bit 4 of STATUS. -/
theorem test_clear_sticky : portWrite (portTarget State.reset 32 0x004) 0x10
    { State.reset with lastErr := .structureMismatch, errSticky := true } =
    { State.reset with lastErr := .structureMismatch } := by decide +kernel

/-- R68: SETVAL's two writes and WRUV's command word. -/
theorem test_expand_wruv : (expand (.wruv 10 0x7FF)).map lineAccess =
    [.write 32 0x010 0x7FF, .write 32 0x014 0, .write 32 0x000 0x110A0000] := by decide

/-! ## Witnesses: for each statement with hypotheses, inputs that meet them

Where a statement has several clauses, there is one witness for each, at the ends of their ranges. -/

theorem witness_DecodeOfEncode : (Instr.rdu 1).wf = true ∧ (Instr.rdu 32).wf = true ∧
    (Instr.rdsm 2).wf = true ∧ (Instr.scalef 15).wf = true ∧ (Instr.navpar 1).wf = true := by decide

theorem witness_EncodeOfDecode : decode 0x30FF0000#32 = .ok (.push 0xFF) := by decide

/-- One word for each clause (a) to (g) of R65. -/
theorem witness_IllegalWordsFault_illegal :
    illegalWord 0x00008000#32 ∧ illegalWord 0x43000000#32 ∧ illegalWord 0x00010000#32 ∧
    illegalWord 0x10210000#32 ∧ illegalWord 0x11000000#32 ∧ illegalWord 0x12010000#32 ∧
    illegalWord 0x14100000#32 ∧ illegalWord 0x42020000#32 := by
  simp [illegalWord]

/-- Legal words at the ends of the ranges of clauses (d) to (g). -/
theorem witness_IllegalWordsFault_legal :
    ¬ illegalWord 0x10010000#32 ∧ ¬ illegalWord 0x11200000#32 ∧ ¬ illegalWord 0x12020000#32 ∧
    ¬ illegalWord 0x160F0000#32 ∧ ¬ illegalWord 0x42010000#32 := by
  simp [illegalWord]

/-- The hypothesis on the queue. -/
theorem witness_IllegalWordsFault_queue :
    { State.reset with pending := [commandInput 0x10000000#32] }.pending =
      commandInput 0x10000000#32 :: [] := rfl

/-- The ends of the admitted operands in the statements that give a command's words, and the operands
next to them. -/
theorem witness_encodedWith :
    ((1 ≤ (1#8).toNat ∧ (1#8).toNat ≤ 32) ∧ (1 ≤ (32#8).toNat ∧ (32#8).toNat ≤ 32) ∧
      ¬ (1 ≤ (0#8).toNat ∧ (0#8).toNat ≤ 32) ∧ ¬ (1 ≤ (33#8).toNat ∧ (33#8).toNat ≤ 32)) ∧
    ((2 ≤ (2#8).toNat ∧ (2#8).toNat ≤ 32) ∧ ¬ (2 ≤ (1#8).toNat ∧ (1#8).toNat ≤ 32)) ∧
    ((15#8).toNat ≤ 15 ∧ ¬ (16#8).toNat ≤ 15) ∧ ((1#8).toNat ≤ 1 ∧ ¬ (2#8).toNat ≤ 1) ∧
    ¬ (True ∧ 1#16 = 0#16) ∧ ¬ (1#8 = 0#8 ∧ 0#16 = 0#16) := by decide

theorem witness_StepRunsDecodedCommand :
    { State.reset with pending := [commandInput 0x10080000#32] }.pending =
      commandInput 0x10080000#32 :: [] ∧ decode 0x10080000#32 = .ok (.rdu 8) := ⟨rfl, by decide⟩

/-- A register that is not CMD, and the last byte and the last word of the window. -/
theorem witness_StepRunsDecodedCommand_access : Reg.status ≠ .cmd ∧ Reg.ktabHi 15 ≠ .cmd ∧
    State.reset.pending = [] ∧ 65535 < State.reset.impl.cbufCap ∧ 65532 % 4 = 0 ∧
    65532 + 3 < State.reset.impl.cbufCap := by decide

theorem witness_EveryStepCompletes :
    ∀ a b, { State.reset with pending := [.blockReset] }.pending.head? ≠ some (.twoAgents a b) :=
  fun _ _ => by simp

theorem witness_EveryStepCompletes_refused (a b : PortAccess) :
    { State.reset with pending := [.twoAgents a b] }.pending.head? = some (.twoAgents a b) := rfl

/-- A command word that faults, an illegal word, and the two bad accesses nearest to good ones. -/
theorem witness_FaultChangesOnlyStatus : 
    (nextOf (runCommand 0x10010000#32 State.reset)).map State.lastErr = some .outOfRange ∧
    (nextOf (runCommand 0x10000000#32 State.reset)).map State.lastErr = some .illegalCommand ∧
    portTarget State.reset 8 0x000 = .bad ∧ portTarget State.reset 32 0x10002 = .bad := by
  decide +kernel

/-- PUSHN with two of its fault conditions at once: the configuration comes first. -/
theorem witness_FirstFaultReported :
    after .pushn { State.reset with asciiCfg := 0, arg1 := 1 } State.lastErr = some .configError ∧
    byteRangeFits { State.reset with asciiCfg := 0, arg1 := 1 } = false := by decide +kernel

theorem witness_StickyErrorBit : after .nop { State.reset with errSticky := true }
    (fun t => (t.lastErr, t.errSticky)) = some (.none, true) ∧
    portTarget State.reset 16 0x10000 = .bad := by decide +kernel

/-- A set bit that a STATUS write at a platform address clears. -/
theorem witness_StickyErrorBit_cleared :
    (nextOf (step { State.reset with
      impl := { defaultImpl with base := .placed 0x40000000 }
      errSticky := true
      pending := [.addressed 32 0x40000004 (some 0x10)] })).map State.errSticky = some false := by
  decide +kernel

theorem witness_CommandFrame : after (.rdu 8) (loaded [0xD3]) (fun t => (t.res, t.bitpos)) =
    some (0xD3, 8) ∧ (loaded [0xD3]).res = 0 := by decide +kernel

/-- Two buffers that differ only above the view. -/
theorem witness_CommandsReadOnlyTheView :
    (∀ a, a < (loaded [0xD3]).clen.toNat → (memOf [0xD3, 0xFF]).read a = (loaded [0xD3]).cbuf.read a) ∧
    (∀ w, Instr.rdu 8 ≠ .wru w) ∧ after (.rdu 8) (loaded [0xD3]) State.res = some 0xD3 := by
  refine ⟨?_, fun _ => nofun, by decide +kernel⟩
  intro a ha
  have h : a = 0 := by
    have : (loaded [0xD3]).clen.toNat = 1 := by decide
    omega
  subst h
  decide

/-- Fields of 8, 1 and 32 bits that end at the view's end, and one that ends a bit past it. -/
theorem witness_RduReadsField :
    (loaded [0xD3]).bitpos.toNat + 8 = 8 * (loaded [0xD3]).clen.toNat ∧
    8 * (loaded [0xD3]).clen.toNat < (loaded [0xD3]).bitpos.toNat + 9 ∧
    { loaded [0xD3] with bitpos := 7 }.bitpos.toNat + 1 = 8 * (loaded [0xD3]).clen.toNat ∧
    (loaded [1, 2, 3, 4]).bitpos.toNat + 32 = 8 * (loaded [1, 2, 3, 4]).clen.toNat := by decide

theorem witness_WruWritesField :
    (loaded [1, 2, 3, 4]).bitpos.toNat + (32#8).toNat ≤ 8 * (loaded [1, 2, 3, 4]).clen.toNat ∧
    (loaded [1, 2, 3, 4]).cbuf.wf = true ∧
    8 * (loaded [1, 2, 3]).clen.toNat < (loaded [1, 2, 3]).bitpos.toNat + (25#8).toNat := by decide

theorem witness_RdsmReadsSignMagnitude :
    (2 ≤ (2#8).toNat ∧ (loaded [0x80]).bitpos.toNat + (2#8).toNat ≤ 8 * (loaded [0x80]).clen.toNat) ∧
    8 * (loaded [0x80]).clen.toNat < (loaded [0x80]).bitpos.toNat + (9#8).toNat := by decide

theorem witness_SignMagnitudeSign : 2 ≤ (8#8).toNat ∧ (8#8).toNat ≤ 32 ∧
    (loaded [0x80]).bitpos.toNat + (8#8).toNat ≤ 8 * (loaded [0x80]).clen.toNat := by decide

/-- A 38-bit field that ends at the view's end, and one that ends one bit past it. -/
theorem witness_Rdx38ReadsExtended :
    { loaded [1, 2, 3, 4, 5] with bitpos := 2 }.bitpos.toNat + 38 =
      8 * { loaded [1, 2, 3, 4, 5] with bitpos := 2 }.clen.toNat ∧
    8 * { loaded [1, 2, 3, 4, 5] with bitpos := 3 }.clen.toNat <
      { loaded [1, 2, 3, 4, 5] with bitpos := 3 }.bitpos.toNat + 38 := by decide

theorem witness_FieldRoundTrip : 1 ≤ (32#8).toNat ∧ (32#8).toNat ≤ 32 ∧
    (loaded [1, 2, 3, 4, 5]).cbuf.wf = true ∧ (loaded [1, 2, 3, 4, 5]).clen.toNat ≤ 2 ^ 28 ∧
    (8#32).toNat + (32#8).toNat ≤ 8 * (loaded [1, 2, 3, 4, 5]).clen.toNat := by decide

theorem witness_Rdx38IsTwoReads : (loaded [1, 2, 3, 4, 5]).clen.toNat ≤ 2 ^ 28 ∧
    (2#32).toNat + 38 ≤ 8 * (loaded [1, 2, 3, 4, 5]).clen.toNat := by decide

theorem witness_ScaleCommandsMultiply : (15#8).toNat < 16 := by decide

theorem witness_F64ExactUpTo53Bits : (2 ^ 53 : Int).natAbs ≤ 2 ^ 53 ∧ (-2 ^ 53 : Int).natAbs ≤ 2 ^ 53 := by
  decide

/-- The bits below the cut are exactly half of a unit. -/
theorem witness_RoundingNearestEven : 2 * (3 % 2 ^ 1) = 2 ^ 1 ∧ roundShift 3 1 = 2 := by decide

/-- The values next to the overflow bound, from IEEE 754: the last integer below it, and the bound. -/
theorem witness_RoundingNearestEven_bound :
    f64 (2 ^ 1024 - 2 ^ 970 - 1) = 0x7FEFFFFFFFFFFFFF ∧ f64 (2 ^ 1024 - 2 ^ 970) = 0x7FF0000000000000 ∧
    f64Exp 0x7FEFFFFFFFFFFFFF < 2047 ∧ f64Exp 0x0000000000000001 < 2047 := by decide +kernel

/-- A NaN, an infinity with a zero, an infinity with a finite number, a zero with one. -/
theorem witness_MulfSpecialOperands : f64IsNaN 0x7FF0000000000001 = true ∧
    f64IsInf 0xFFF0000000000000 = true ∧ f64IsZero 0x8000000000000000 = true ∧
    f64IsNaN 0x0000000000000001 = false ∧ f64IsZero 0x0000000000000001 = false ∧
    f64Exp 0x7FEFFFFFFFFFFFFF < 2047 := by decide

/-- The least subnormal, the greatest finite number and an infinity. -/
theorem witness_MulfByOne : f64IsNaN 0x0000000000000001 = false ∧
    f64IsNaN 0x7FEFFFFFFFFFFFFF = false ∧ f64IsNaN 0x7FF0000000000000 = false := by decide

/-- A byte range that ends at the view's end, and one that ends one byte past it. -/
def rangeEnds : State := { loaded abc with arg0 := 1, arg1 := 2 }
def rangePast : State := { loaded abc with arg0 := 1, arg1 := 3 }

theorem witness_Xor8Checksum : rangeEnds.arg0.toNat + rangeEnds.arg1.toNat ≤ rangeEnds.clen.toNat ∧
    rangePast.clen.toNat < rangePast.arg0.toNat + rangePast.arg1.toNat := by decide

theorem witness_Sum2Checksum : rangeEnds.arg0.toNat + rangeEnds.arg1.toNat ≤ rangeEnds.clen.toNat ∧
    rangePast.clen.toNat < rangePast.arg0.toNat + rangePast.arg1.toNat := witness_Xor8Checksum

theorem witness_CrcOverBytes : rangeEnds.arg0.toNat + rangeEnds.arg1.toNat ≤ rangeEnds.clen.toNat ∧
    rangePast.clen.toNat < rangePast.arg0.toNat + rangePast.arg1.toNat := witness_Xor8Checksum

theorem witness_Crc24qOverBits :
    { loaded abc with arg0 := 4, arg1 := 20 }.arg0.toNat +
      { loaded abc with arg0 := 4, arg1 := 20 }.arg1.toNat = 8 * (loaded abc).clen.toNat ∧
    8 * (loaded abc).clen.toNat < { loaded abc with arg0 := 4, arg1 := 21 }.arg0.toNat +
      { loaded abc with arg0 := 4, arg1 := 21 }.arg1.toNat := by decide

/-- A HDR32 configuration with the header length at its least, and one with H32_SYNC_LEN 0. -/
theorem witness_ConfigurationChecked :
    legalConfiguration { speaking 3 with h32Cfg := 0x00000201 } ∧
    (speaking 3).scfg.toNat % 4 = 3 ∧ ¬ legalConfiguration { speaking 3 with h32Cfg := 0x04081C00 } := by
  simp [legalConfiguration, speaking, State.reset]

theorem witness_PushFeedsOneByte : configLegal { State.reset with asciiCfg := 1 } = true ∧
    configLegal { State.reset with asciiCfg := 0 } = false := by decide

theorem witness_PushnFeedsRange : (configLegal rangeEnds = true ∧
    rangeEnds.arg0.toNat + rangeEnds.arg1.toNat ≤ rangeEnds.clen.toNat) ∧
    (configLegal rangePast = true ∧
      rangePast.clen.toNat < rangePast.arg0.toNat + rangePast.arg1.toNat) ∧
    configLegal { rangePast with asciiCfg := 0 } = false := by decide

theorem witness_PushnEqualsPushes : configLegal rangeEnds = true ∧
    rangeEnds.arg0.toNat + rangeEnds.arg1.toNat ≤ rangeEnds.clen.toNat := witness_PushnFeedsRange.1

/-- Each condition that rejects: a marker in a sentence, a sentence too long by one, a digit that is
none, a wrong checksum, a header of a payload too short by one, a wrong trailer. -/
theorem witness_RejectedBytesAreFedAgain_ascii :
    rejects State.reset { syncResetState with sstate := .accumulatingBody, fbuf := [0x24] } 0x21
      .framingError ∧
    rejects { State.reset with asciiCfg := 1 }
      { syncResetState with sstate := .accumulatingBody, fbuf := [0x24] } 0x41 .framingError ∧
    rejects State.reset lastDigitMissing 0x47 .framingError ∧
    rejects State.reset lastDigitMissing 0x31 .checksumMismatch :=
  ⟨.inl ⟨rfl, by decide, by decide, by decide⟩, .inl ⟨rfl, by decide, by decide, by decide⟩,
    .inr ⟨rfl, by decide⟩, rfl, by decide, by decide, 1, rfl, rfl, by decide⟩

/-- A LENPFX header of a two-byte payload, and an empty BITPACK frame with a wrong last byte. -/
theorem witness_RejectedBytesAreFedAgain_binary :
    rejects (speaking 1) { syncResetState with
      sstate := .accumulatingLength, fbuf := [0xB5, 0x62, 0x06, 0x01, 0x02] } 0x00 .framingError ∧
    rejects (speaking 2) { syncResetState with
      sstate := .awaitingChecksum, plen := some 0, fbuf := [0xD3, 0x00, 0x00, 0x47, 0xEA] } 0x4A
      .checksumMismatch :=
  ⟨⟨.inl rfl, by decide, .inr (.inl (by decide))⟩, rfl, 0, rfl, by decide,
    show (_ : Nat) ≠ _ by decide +kernel⟩

/-- `B5 B5` under LENPFX (R114), and a byte that rejects nothing. -/
theorem witness_RejectedBytesAreFedAgain_silent :
    breaksSync (speaking 1) { syncResetState with sstate := .seekingSync, fbuf := [0xB5] } 0xB5 ∧
    (∀ kind, ¬ rejects (speaking 1) syncResetState 0xB5 kind) ∧
    ¬ breaksSync (speaking 1) syncResetState 0xB5 := by
  refine ⟨⟨⟨.inr rfl, by decide⟩, by decide⟩, ?_, fun h => h.1.2 rfl⟩
  rintro (_ | _) h
  · rcases h with ⟨h | h, -⟩
    · exact absurd h (by decide)
    · exact h.1.2 rfl
  · exact absurd h.1 (by decide)

/-- V45: LOOKAHEAD 4 with 3 bytes already counted, and LOOKAHEAD 0. -/
theorem witness_GarbageCountedToLookahead :
    betweenFrames { syncResetState with sstate := .seekingSync, garb := 3 } ∧
    ([0x01#8] ≠ ([] : List Byte)) ∧
    (∀ b ∈ [0x01#8], ¬ opensCandidate { speaking 1 with lookahead := 4 } b) ∧
    (3#32).toNat < { speaking 1 with lookahead := 4 }.lookahead.toNat ∧
    { speaking 1 with lookahead := 0 }.lookahead = 0#32 := by
  refine ⟨⟨.inr rfl, rfl, rfl, rfl⟩, by simp, ?_, by decide, rfl⟩
  intro b hb
  have hb : b = 0x01#8 := by simpa using hb
  subst hb
  exact show ¬ (some 0xB5#8 = some 0x01#8) by decide

theorem reset_betweenFrames : betweenFrames syncResetState := ⟨.inl rfl, rfl, rfl, rfl⟩

/-- The identifier of the payload `A`, and of `GPG,`: the shortest that splits. -/
theorem asciiId_short : isAsciiId [0x41] (.ascii [] [0x41]) :=
  ⟨[0x41], .inl rfl, by decide, fun _ => rfl, fun _ => ⟨fun _ => rfl, fun _ _ _ h => by simp at h⟩⟩
theorem asciiId_split : isAsciiId [0x47, 0x50, 0x47, 0x2C] (.ascii [0x47, 0x50] [0x47]) := by
  refine ⟨[0x47, 0x50, 0x47], .inr ⟨[], rfl⟩, by decide, ?_, fun _ => ⟨fun h => absurd h (by decide), ?_⟩⟩
  · rintro ⟨b, rest, h, h1 | h1⟩ <;> subst h1 <;> simp at h
  · rintro c d formatter h -
    simp at h
    simp [h.1, h.2.1, h.2.2.symm]

/-- The payload `A` and its checksum 41, at ASCII_MAX_LEN 5, the least that admits it. -/
theorem witness_AsciiSentenceEmitted :
    grammar { State.reset with asciiCfg := 5 } = .ascii ∧ betweenFrames syncResetState ∧
    ∃ f, asciiSentence { State.reset with asciiCfg := 5 } [0x24, 0x41, 0x2A, 0x34, 0x31] f :=
  ⟨by decide, reset_betweenFrames, _, 0x24, 0x34, 0x31, [0x41], 4, 1, .inl rfl, by decide, by decide,
    by decide, by decide, by decide, rfl, _, asciiId_short, rfl⟩

/-- The payload `A` without a `*`, at ASCII_MAX_LEN 2, the least that admits it. -/
theorem witness_AsciiSentenceEmitted_unterminated :
    ∃ f, asciiUnterminated { State.reset with asciiCfg := 2 } [0x24, 0x41] f ∧ f.valid = false :=
  ⟨_, ⟨0x24, [0x41], .inl rfl, by decide, by decide, rfl, _, asciiId_short, rfl⟩, rfl⟩

/-- V7's frame, its payload of the least length LP_MIN admits. -/
theorem speaking_lenpfxWhole : ∃ f, lenpfxWhole (speaking 1)
    [0xB5, 0x62, 0x06, 0x01, 0x03, 0x00, 0xF0, 0x01, 0x00, 0xFB, 0x11] f :=
  ⟨_, 0x06, 0x01, [0xF0, 0x01, 0x00], by decide, by decide, by decide, by decide, rfl⟩

theorem witness_LenpfxFrameEmitted : grammar (speaking 1) = .binary .lenpfx ∧
    betweenFrames syncResetState ∧ ∃ f, lenpfxWhole (speaking 1)
      [0xB5, 0x62, 0x06, 0x01, 0x03, 0x00, 0xF0, 0x01, 0x00, 0xFB, 0x11] f :=
  ⟨by decide, reset_betweenFrames, speaking_lenpfxWhole⟩

/-- V40's empty frame, with BP_RSVD_CHK set and the reserved bits 0. -/
theorem witness_BitpackFrameEmitted :
    grammar { speaking 2 with bpCfg := 0x000C01D3 } = .binary .bitpack ∧
    configLegal { speaking 2 with bpCfg := 0x000C01D3 } = true ∧ betweenFrames syncResetState ∧
    ∃ f, bitpackWhole { speaking 2 with bpCfg := 0x000C01D3 } [0xD3, 0x00, 0x00, 0x47, 0xEA, 0x4B] f :=
  ⟨by decide, by decide, reset_betweenFrames, _, 0#6, [], fun _ => rfl, by decide, by decide,
    by decide, by decide +kernel, rfl⟩

/-- V44's empty frame with a big-endian trailer. -/
theorem witness_Hdr32FrameEmitted :
    grammar (speaking 0x103) = .binary .hdr32 ∧ configLegal (speaking 0x103) = true ∧
    betweenFrames syncResetState ∧ ∃ f, hdr32Whole (speaking 0x103)
      ([0xAA, 0x44, 0x12, 0x1C, 0x2A] ++ List.replicate 23 0 ++ [0xE4, 0x3E, 0x1F, 0x5C]) f :=
  ⟨by decide, by decide, reset_betweenFrames, _, [0xAA, 0x44, 0x12, 0x1C, 0x2A] ++ List.replicate 23 0,
    [], by decide, by decide, by decide, by decide, by decide, by decide, by decide +kernel, rfl⟩

/-- V7: the bytes 00 11 22 between two frames. -/
theorem witness_ResynchronisedAfterGarbage : configLegal (speaking 1) = true ∧
    (∃ f, wholeFrame (speaking 1)
      [0xB5, 0x62, 0x06, 0x01, 0x03, 0x00, 0xF0, 0x01, 0x00, 0xFB, 0x11] f) ∧
    ∀ b ∈ [0x00#8, 0x11, 0x22], ¬ opensCandidate (speaking 1) b := by
  refine ⟨by decide, speaking_lenpfxWhole, ?_⟩
  have h : ∀ b ∈ [0x00#8, 0x11, 0x22], ¬ (some 0xB5#8 = some b) := by decide
  exact h

/-- A step that changes the synchronizer (the sync byte of LENPFX), and a command that faults. -/
theorem witness_SynchronizerIsolated :
    (nextOf (step { speaking 1 with pending := [commandInput 0x30B50000#32] })).map
      (fun t => t.sync.fbuf) = some [0xB5] ∧
    after (.push 0xB5) { speaking 1 with lpLim := 0x00020003 } State.lastErr = some .configError := by
  decide +kernel

theorem witness_EventStreamAppendOnly :
    { State.reset with pending := [commandInput 0#32] }.pending.head? ≠ some .blockReset ∧
    nextOf (step { State.reset with pending := [commandInput 0#32] }) = some State.reset ∧
    after (.rdu 0) State.reset State.lastErr = some .illegalCommand := by decide +kernel

/-- Every clause of R127: the id field ends at bit 240, its width is 5, or 0, or 6; the view ends with
the unit or one byte before its end; the preamble, the set and the expected id match or not. -/
theorem witness_NavsfValidates :
    after (.navsf 3) { loaded (subframe3.take 29 ++ [0x03]) with navCfg0 := 0x0005EB8B }
      (fun t => (t.navid, t.lastErr)) = some (3, .none) ∧
    after (.navsf 0) { loaded subframe3 with navCfg0 := 0x00002B8B } State.lastErr = some .configError ∧
    after (.navsf 0) { loaded subframe3 with navCfg0 := 0x00062B8B } State.lastErr = some .configError ∧
    after (.navsf 0) { loaded subframe3 with navCfg0 := 0x0005EC8B } State.lastErr = some .configError ∧
    after (.navsf 0) (loaded (subframe3.take 29)) State.lastErr = some .truncatedInput ∧
    after (.navsf 0) { loaded subframe3 with navSfset := 0 } State.lastErr =
      some .structureMismatch := by decide +kernel

/-- The same for R128. -/
theorem witness_NavwdValidates :
    after (.navwd 3) { loaded (List.replicate 10 0 ++ [0x03]) with navCfg1 := 0x00000553 }
      (fun t => (t.navid, t.lastErr)) = some (3, .none) ∧
    after (.navwd 0) { State.reset with clen := 11, navCfg1 := 0x00000001 } State.lastErr =
      some .configError ∧
    after (.navwd 0) { State.reset with clen := 11, navCfg1 := 0x00000554 } State.lastErr =
      some .configError ∧
    after (.navwd 0) { State.reset with clen := 10 } State.lastErr = some .truncatedInput ∧
    after (.navwd 0) { State.reset with clen := 11 } State.lastErr = some .structureMismatch := by
  decide +kernel

/-- Both unit kinds at the view's end and one byte past it, the predicate true and false. -/
theorem witness_NavparChecksParity :
    after (.navpar 1) { State.reset with clen := 30, impl := withParity true } State.lastErr =
      some .none ∧
    after (.navpar 1) { State.reset with clen := 30, impl := withParity false } State.lastErr =
      some .structureMismatch ∧
    after (.navpar 1) { State.reset with clen := 29, impl := withParity true } State.lastErr =
      some .truncatedInput ∧
    after (.navpar 0) { State.reset with clen := 10, impl := withParity true } State.lastErr =
      some .truncatedInput := by decide +kernel

/-- The last byte and word of the window, the first index past it, and an unmapped offset. -/
theorem witness_AccessTargets :
    portTarget State.reset 8 (0x10000 + 65535) = .cbufByte 65535 ∧
    portTarget State.reset 32 (0x10000 + 65532) = .cbufWord 65532 ∧
    portTarget State.reset 32 (0x10000 + 65533) = .bad ∧
    portTarget State.reset 16 (0x10000 + 65532) = .bad ∧
    portTarget State.reset 8 (0x10000 + 65536) = .unmapped ∧
    portTarget State.reset 32 0x06C = .unmapped ∧ portTarget State.reset 32 0x17F = .bad := by
  decide +kernel

/-- The ends of the window from BLOCK_BASE, and the addresses next to them. -/
theorem witness_AccessTargets_base :
    let s := { State.reset with impl := { defaultImpl with base := .placed 0x1000 } }
    offsetOf s 0x1000 = some 0 ∧ offsetOf s 0x20FFF = some 0x1FFFF ∧ offsetOf s 0xFFF = none ∧
      offsetOf s 0x21000 = none := by decide +kernel

theorem witness_ReadsHaveNoSideEffect : portTarget State.reset 32 0x034 ≠ .bad ∧
    portTarget State.reset 8 0x180 = .unmapped := by decide +kernel

theorem witness_RegisterWritesReadBack : isPlainRw (.ktabHi 15) = true ∧ isPlainRw .navCfg0 = true ∧
    Reg.navCfg1 ≠ .navCfg0 ∧ isReadOnly .garbage = true := by decide

theorem witness_ConfigWriteResetsSynchronizer : isSyncConfig .scfg = true ∧
    isSyncConfig .lookahead = true ∧ Reg.lpSync ≠ .scfg ∧ Reg.lpSync ≠ .status ∧
    Reg.lpSync ≠ .syncFlen ∧ Reg.lpSync ≠ .garbage := by decide

theorem witness_WindowIsLittleEndian :
    (loaded abc).cbuf.wf = true ∧ 65532 + 3 < (loaded abc).impl.cbufCap ∧
    65535 < (loaded abc).impl.cbufCap := by decide

theorem witness_BlockResetValues :
    { loaded abc with pending := [.blockReset] }.pending = .blockReset :: [] := rfl

/-- A state with bytes, a cursor at the view's end and a command to come. -/
def readyToWrite : State :=
  { loaded abc with bitpos := 23, val := 1, pending := [commandInput 0x11010000#32] }

theorem witness_StepKeepsMemoryAndCursor : memoryInv readyToWrite ∧ cursorInv readyToWrite ∧
    (nextOf (step readyToWrite)).map (fun t => (t.bitpos, t.cbuf.readRange 2 1)) =
      some (24, [0x63]) := by
  unfold memoryInv cursorInv
  decide +kernel

theorem witness_StepKeepsRegisters : registerInv (speaking 0x103) ∧
    (nextOf (step (speaking 0x103))).isSome = true := by
  refine ⟨⟨?_, by decide, by decide⟩, by decide +kernel⟩
  intro r
  cases r with
  | ktabLo k => revert k; decide +kernel
  | ktabHi k => revert k; decide +kernel
  | _ => decide +kernel

/-- A sentence that lacks its last digit, which the next input gives. -/
def readyToEmit : State :=
  { State.reset with sync := lastDigitMissing, pending := [commandInput 0x30300000#32] }

theorem readyToEmit_syncInv : syncInv readyToEmit := by
  refine ⟨fun _ => ?_, fun h => absurd h (by decide)⟩
  refine ⟨rfl, ⟨⟨0x24, [0x2A, 0x30], rfl, by decide⟩, by decide⟩, 1, rfl, by decide, by decide,
    by decide, rfl, by decide⟩

theorem witness_StepKeepsSynchronizer : implLegal readyToEmit.impl ∧ syncInv readyToEmit ∧
    (nextOf (step readyToEmit)).map (fun t => t.sync) = some syncResetState :=
  ⟨⟨by decide, by decide, by decide⟩, readyToEmit_syncInv, by decide +kernel⟩

/-- A step that appends a HDR32 frame whose trailer is big-endian, as SCFG.H32_TRL_BE says (V44). -/
theorem witness_StepKeepsFramesSound_hdr32 :
    (nextOf (step { speaking 0x103 with
      sync := { syncResetState with
        sstate := .awaitingChecksum
        plen := some 0
        fbuf := [0xAA, 0x44, 0x12, 0x1C, 0x2A] ++ List.replicate 23 0 ++ [0xE4, 0x3E, 0x1F] }
      pending := [commandInput 0x305C0000#32] })).map (fun t => (t.evout.length, t.sync)) =
      some (1, syncResetState) := by decide +kernel

theorem witness_StepKeepsFramesSound : syncInv readyToEmit ∧ evoutSound readyToEmit ∧
    (nextOf (step readyToEmit)).map (fun t => t.evout) = some [emptySentence] :=
  ⟨readyToEmit_syncInv, fun _ h => absurd h (by simp [readyToEmit, State.reset]), by decide +kernel⟩

end Sys2Proof.Machine.Tests
end

section
/-! PROOF. The reflected CRC-32 (41_checksum_engine R90, R91). A word stands for a polynomial over the
two-element field; one bit step multiplies it by X modulo the divisor. The remainder law follows by
induction on the message, in the quotient ring by the divisor. -/

namespace Sys2Proof.Machine

open Polynomial

/-! ## Words and bytes as polynomials over the two-element field -/

/-- The polynomial a word stands for in a reflected CRC: its bit 0 is the coefficient of X^31. -/
noncomputable def wordPoly (w : Word) : (ZMod 2)[X] :=
  ∑ k ∈ Finset.range 32, if w.getLsbD (31 - k) then X ^ k else 0

/-- The polynomial of a byte of the message, whose bit 0 comes first. -/
noncomputable def bytePoly (d : Byte) : (ZMod 2)[X] :=
  ∑ j ∈ Finset.range 8, if d.getLsbD j then X ^ (7 - j) else 0

/-- The polynomial of a message, the first byte's bit 0 its leading coefficient. -/
noncomputable def messagePoly (bytes : List Byte) : (ZMod 2)[X] :=
  ∑ j ∈ Finset.range (8 * bytes.length),
    if (bytes.getD (j / 8) 0#8).getLsbD (j % 8) then X ^ (8 * bytes.length - 1 - j) else 0

/-- The divisor of CRC-32: X^32 and the polynomial of 0xEDB88320. -/
noncomputable def crc32Divisor : (ZMod 2)[X] := X ^ 32 + wordPoly 0xEDB88320#32

theorem crc32Remainder_iff (preset : Word) (bytes : List Byte) (c : Word) :
    crc32Remainder preset bytes c ↔
      wordPoly (c ^^^ preset) =
        (wordPoly preset * X ^ (8 * bytes.length) + messagePoly bytes * X ^ 32) %ₘ crc32Divisor :=
  Iff.rfl

/-- In characteristic two, the XOR of two coefficients is their sum. -/
theorem ite_xor_eq_add {R : Type} [Ring R] [CharP R 2] (a b : Bool) (p : R) :
    (if (a ^^ b) = true then p else 0) = (if a then p else 0) + (if b then p else 0) := by
  cases a <;> cases b <;> simp [CharTwo.add_self_eq_zero]

theorem wordPoly_xor (a b : Word) : wordPoly (a ^^^ b) = wordPoly a + wordPoly b := by
  simp only [wordPoly, BitVec.getLsbD_xor, ite_xor_eq_add, Finset.sum_add_distrib]

theorem degree_wordPoly_lt (w : Word) : (wordPoly w).degree < (32 : ℕ) := by
  rw [← mem_degreeLT]
  refine Submodule.sum_mem _ fun k hk => ?_
  have hk : k < 32 := Finset.mem_range.mp hk
  split
  · exact mem_degreeLT.mpr (by simpa using hk)
  · exact Submodule.zero_mem _

/-- Multiplying by X moves every bit down one place; bit 0 becomes the coefficient of X^32. -/
theorem X_mul_wordPoly (c : Word) :
    X * wordPoly c = wordPoly (c >>> 1) + if c.getLsbD 0 then X ^ 32 else 0 := by
  have hshift : wordPoly (c >>> 1) =
      ∑ k ∈ Finset.range 32, if c.getLsbD (32 - k) then X ^ k else 0 := by
    refine Finset.sum_congr rfl fun k hk => ?_
    have hk : 1 + (31 - k) = 32 - k := by have := Finset.mem_range.mp hk; omega
    rw [BitVec.getLsbD_ushiftRight, hk]
  calc X * wordPoly c
      = ∑ k ∈ Finset.range 33, if c.getLsbD (32 - k) then X ^ k else 0 := by
        rw [Finset.sum_range_succ', wordPoly, Finset.mul_sum]
        simp [pow_succ']
    _ = wordPoly (c >>> 1) + if c.getLsbD 0 then X ^ 32 else 0 := by
        rw [Finset.sum_range_succ, hshift]

/-- A byte widened to a word, the part of the register that a message byte changes. -/
theorem wordPoly_setWidth (d : Byte) : wordPoly (d.setWidth 32) = bytePoly d * X ^ 24 := by
  have hhigh : ∀ k ∈ Finset.range 24, (if d.getLsbD (31 - k) then X ^ k else 0 : (ZMod 2)[X]) = 0 := by
    intro k hk
    have hk := Finset.mem_range.mp hk
    rw [BitVec.getLsbD_of_ge d (31 - k) (by omega)]
    rfl
  calc wordPoly (d.setWidth 32)
      = ∑ k ∈ Finset.range (24 + 8), if d.getLsbD (31 - k) then X ^ k else 0 := by
        refine Finset.sum_congr rfl fun k _ => ?_
        rw [BitVec.getLsbD_setWidth, decide_eq_true (by omega), Bool.true_and]
    _ = ∑ j ∈ Finset.range 8, (if d.getLsbD j then X ^ (7 - j) else 0) * X ^ 24 := by
        rw [Finset.sum_range_add, Finset.sum_eq_zero hhigh, zero_add, ← Finset.sum_range_reflect]
        refine Finset.sum_congr rfl fun j hj => ?_
        have hj := Finset.mem_range.mp hj
        rw [show 31 - (24 + (8 - 1 - j)) = j by omega, show 24 + (8 - 1 - j) = 7 - j + 24 by omega,
          ite_mul, zero_mul, pow_add]
    _ = bytePoly d * X ^ 24 := by rw [bytePoly, Finset.sum_mul]

@[simp] theorem messagePoly_nil : messagePoly [] = 0 := rfl

theorem messagePoly_cons (d : Byte) (bytes : List Byte) :
    messagePoly (d :: bytes) = bytePoly d * X ^ (8 * bytes.length) + messagePoly bytes := by
  rw [messagePoly, List.length_cons, Nat.mul_succ, Nat.add_comm _ 8, Finset.sum_range_add, bytePoly,
    Finset.sum_mul]
  refine congrArg₂ (· + ·) (Finset.sum_congr rfl fun j hj => ?_) (Finset.sum_congr rfl fun j _ => ?_)
  · have hj := Finset.mem_range.mp hj
    rw [Nat.div_eq_of_lt hj, Nat.mod_eq_of_lt hj, List.getD_cons_zero,
      show 8 + 8 * bytes.length - 1 - j = 7 - j + 8 * bytes.length by omega, ite_mul, zero_mul, pow_add]
  · rw [Nat.add_div_left j (by omega), Nat.add_mod_left, List.getD_cons_succ,
      show 8 + 8 * bytes.length - 1 - (8 + j) = 8 * bytes.length - 1 - j by omega]

/-! ## The register steps modulo the divisor -/

theorem crc32Divisor_monic : crc32Divisor.Monic := monic_X_pow_add (degree_wordPoly_lt _)

/-- A word in the class of a polynomial is its remainder, having degree below 32. -/
theorem wordPoly_eq_modByMonic {w : Word} {p : (ZMod 2)[X]}
    (h : AdjoinRoot.mk crc32Divisor (wordPoly w) = AdjoinRoot.mk crc32Divisor p) :
    wordPoly w = p %ₘ crc32Divisor := by
  have hdeg : (wordPoly w).degree < crc32Divisor.degree := by
    rw [crc32Divisor, degree_add_eq_left_of_degree_lt, degree_X_pow]
    · exact degree_wordPoly_lt w
    · rw [degree_X_pow]
      exact degree_wordPoly_lt _
  rw [← (modByMonic_eq_self_iff crc32Divisor_monic).mpr hdeg]
  exact modByMonic_eq_of_dvd_sub crc32Divisor_monic (AdjoinRoot.mk_eq_mk.mp h)

/-- A bit step multiplies by X and takes off the divisor when bit 0 leaves the register. -/
theorem X_mul_wordPoly_eq_crc32Bit (c : Word) :
    X * wordPoly c = wordPoly (crc32Bit c) + if c.getLsbD 0 then crc32Divisor else 0 := by
  rw [X_mul_wordPoly, crc32Bit]
  split
  · rw [wordPoly_xor, crc32Divisor, add_assoc, add_left_comm (wordPoly _) (X ^ 32),
      CharTwo.add_self_eq_zero, add_zero]
  · rfl

theorem mk_crc32Bit (c : Word) : AdjoinRoot.mk crc32Divisor (wordPoly (crc32Bit c)) =
    AdjoinRoot.mk crc32Divisor (X * wordPoly c) := by
  rw [X_mul_wordPoly_eq_crc32Bit, map_add]
  split <;> simp

theorem mk_crc32Bit_iterate (c : Word) (n : Nat) :
    AdjoinRoot.mk crc32Divisor (wordPoly (crc32Bit^[n] c)) =
      AdjoinRoot.mk crc32Divisor (wordPoly c * X ^ n) := by
  induction n with
  | zero => simp
  | succ n ih =>
    rw [Function.iterate_succ_apply', mk_crc32Bit, map_mul, ih, ← map_mul]
    exact congrArg _ (by ring)

theorem crc32Byte_eq_iterate (c : Word) (d : Byte) :
    crc32Byte c d = crc32Bit^[8] (c ^^^ d.setWidth 32) := rfl

theorem mk_crc32Byte (c : Word) (d : Byte) :
    AdjoinRoot.mk crc32Divisor (wordPoly (crc32Byte c d)) =
      AdjoinRoot.mk crc32Divisor (wordPoly c * X ^ 8 + bytePoly d * X ^ 32) := by
  rw [crc32Byte_eq_iterate, mk_crc32Bit_iterate, wordPoly_xor, wordPoly_setWidth]
  exact congrArg _ (by ring)

/-- The register after a message, started from any word. -/
theorem mk_foldl_crc32Byte (bytes : List Byte) (c : Word) :
    AdjoinRoot.mk crc32Divisor (wordPoly (bytes.foldl crc32Byte c)) =
      AdjoinRoot.mk crc32Divisor
        (wordPoly c * X ^ (8 * bytes.length) + messagePoly bytes * X ^ 32) := by
  induction bytes generalizing c with
  | nil => simp
  | cons d bytes ih =>
    rw [List.foldl_cons, ih, map_add, map_mul, mk_crc32Byte, ← map_mul, ← map_add,
      messagePoly_cons, List.length_cons]
    exact congrArg _ (by ring)

theorem crc32_xor_preset (preset : Word) (bytes : List Byte) :
    crc32 preset bytes ^^^ preset = bytes.foldl crc32Byte preset := by
  rw [crc32, BitVec.xor_assoc, BitVec.xor_self, BitVec.xor_zero]

/-- R90 as a remainder, from any preset. -/
theorem crc32Remainder_crc32 (preset : Word) (bytes : List Byte) :
    crc32Remainder preset bytes (crc32 preset bytes) := by
  rw [crc32Remainder_iff, crc32_xor_preset]
  exact wordPoly_eq_modByMonic (mk_foldl_crc32Byte bytes preset)

/-! ## Empty input, leading zeros, residue -/

theorem crc32_nil (preset : Word) : crc32 preset [] = 0#32 := BitVec.xor_self

theorem crc32_zero_preset (bytes : List Byte) : crc32 0#32 bytes = bytes.foldl crc32Byte 0#32 :=
  BitVec.xor_zero

/-- The zero register stays zero under zero bytes. -/
theorem foldl_crc32Byte_replicate_zero (n : Nat) :
    (List.replicate n 0#8).foldl crc32Byte 0#32 = 0#32 := by
  induction n with
  | zero => rfl
  | succ n ih => exact ih

/-- While the bits that leave the register are 0, the bit steps only shift. -/
theorem crc32Bit_iterate_of_low_zero (y : Word) (n : Nat) (h : ∀ i < n, y.getLsbD i = false) :
    crc32Bit^[n] y = y >>> n := by
  induction n with
  | zero => simp
  | succ n ih =>
    have hbit : (y >>> n).getLsbD 0 = false := by
      rw [BitVec.getLsbD_ushiftRight]
      exact h n (by omega)
    rw [Function.iterate_succ_apply', ih fun i hi => h i (by omega), crc32Bit, hbit,
      BitVec.shiftRight_add]
    rfl

/-- Feeding the register its own low byte shifts that byte out. -/
theorem crc32Byte_low_byte (c : Word) : crc32Byte c (c.extractLsb' 0 8) = c >>> 8 := by
  rw [crc32Byte_eq_iterate, crc32Bit_iterate_of_low_zero]
  · apply BitVec.eq_of_getLsbD_eq
    intro i _
    simp
  · intro i hi
    simp [hi, show i < 32 by omega]

/-- The same with `n` bits already shifted out: the byte at bit `n` is then the low one. -/
theorem crc32Byte_ushiftRight (c : Word) (n : Nat) :
    crc32Byte (c >>> n) (c.extractLsb' n 8) = c >>> (n + 8) := by
  have hlow : c.extractLsb' n 8 = (c >>> n).extractLsb' 0 8 := by
    apply BitVec.eq_of_getLsbD_eq
    intro i _
    simp [BitVec.getLsbD_extractLsb']
  rw [hlow, crc32Byte_low_byte, BitVec.shiftRight_add]

/-- Feeding the register its own four bytes, least significant first, clears it. -/
theorem foldl_crc32Byte_own_bytes (c : Word) :
    [c.extractLsb' 0 8, c.extractLsb' 8 8, c.extractLsb' 16 8, c.extractLsb' 24 8].foldl
      crc32Byte c = 0#32 := by
  simp only [List.foldl_cons, List.foldl_nil, crc32Byte_low_byte, crc32Byte_ushiftRight]
  exact BitVec.ushiftRight_eq_zero (by omega)

/-- Settles O30: the remainder law by induction on the message modulo the divisor, the residue
because the register's own bytes shift it out. -/
theorem crc32ResidueAndZeros : Obligations.Crc32ResidueAndZeros := by
  unfold Obligations.Crc32ResidueAndZeros
  refine ⟨rfl, rfl, fun p => crc32Remainder_crc32 (presetWord p), fun p => crc32_nil _, ?zeros, ?residue⟩
  case zeros =>
    intro n bytes
    simp only [crc32_zero_preset, List.foldl_append, foldl_crc32Byte_replicate_zero]
  case residue =>
    intro bytes
    simp only [crc32_zero_preset, List.foldl_append, foldl_crc32Byte_own_bytes]

end Sys2Proof.Machine
end

section
/-! PROOF. What a command can do: one inversion lemma for `exec`, and what follows from it of faults,
of the frame of every command and of the bytes a command reads. -/

namespace Sys2Proof.Machine

/-! ## What a command leaves -/

/-- What a command that raises no fault leaves, with the checks it has passed. -/
inductive Completes (s : State) : Instr → State → Prop
  | nop : Completes s .nop { s with lastErr := .none }
  | rdu (w : Byte) (fits : cursorFits s w.toNat = true) :
      Completes s (.rdu w) { s with
        res := BitVec.ofNat 64 (cursorField s w.toNat)
        bitpos := s.bitpos + BitVec.ofNat 32 w.toNat, lastErr := .none }
  | wru (w : Byte) (fits : cursorFits s w.toNat = true) :
      Completes s (.wru w) { s with
        cbuf := s.cbuf.writeBits s.bitpos.toNat w.toNat (s.val.toNat % 2 ^ w.toNat)
        bitpos := s.bitpos + BitVec.ofNat 32 w.toNat, lastErr := .none }
  | rdsm (w : Byte) (fits : cursorFits s w.toNat = true) :
      Completes s (.rdsm w) { s with
        res := BitVec.ofNat 64 (cursorField s w.toNat)
        fres := signMagValue (cursorField s w.toNat) w.toNat
        bitpos := s.bitpos + BitVec.ofNat 32 w.toNat, lastErr := .none }
  | rdx38 (fits : cursorFits s 38 = true) :
      Completes s .rdx38 { s with
        res := extended38 (cursorField s 38)
        fres := f64 (extended38 (cursorField s 38)).toInt
        bitpos := s.bitpos + BitVec.ofNat 32 38, lastErr := .none }
  | scaleu (k : Byte) : Completes s (.scaleu k) { s with
      fres := mulf (f64 (s.res.toNat : Int)) (scaleConst s k), lastErr := .none }
  | scales (k : Byte) : Completes s (.scales k) { s with
      fres := mulf (f64 s.res.toInt) (scaleConst s k), lastErr := .none }
  | scalef (k : Byte) : Completes s (.scalef k) { s with
      fres := mulf s.fres (scaleConst s k), lastErr := .none }
  | xor8 : Completes s .xor8 { s with
      ckres := (xor8 (argBytes s)).setWidth 32
      ckhex := hexPair (xor8 (argBytes s)), lastErr := .none }
  | sum2 : Completes s .sum2 { s with ckres := sum2Word (argBytes s), lastErr := .none }
  | crc32 : Completes s .crc32 { s with
      ckres := crc32 (crc32Preset s) (argBytes s), lastErr := .none }
  | crc24q : Completes s .crc24q { s with
      ckres := (crc24qBytes (argBytes s)).setWidth 32, lastErr := .none }
  | crc24qb : Completes s .crc24qb { s with
      ckres := (crc24q (cbufBitList s s.arg0.toNat s.arg1.toNat)).setWidth 32, lastErr := .none }
  | push (b : Byte) (r : Sync × List Event) (legal : configLegal s = true)
      (fed : feedAll s [b] s.sync = some r) :
      Completes s (.push b) { s with sync := r.1, evout := s.evout ++ r.2, lastErr := .none }
  | pushn (r : Sync × List Event) (legal : configLegal s = true)
      (fed : feedAll s (argBytes s) s.sync = some r) :
      Completes s .pushn { s with sync := r.1, evout := s.evout ++ r.2, lastErr := .none }
  | sreset : Completes s .sreset { s with sync := syncResetState, lastErr := .none }
  | navsf (e : Byte) (legal : navSfLegal s = true) :
      Completes s (.navsf e) { s with
        navid := BitVec.ofNat 32 (subframeId s), lastErr := .none }
  | navwd (e : Byte) (legal : navWdLegal s = true) :
      Completes s (.navwd e) { s with navid := BitVec.ofNat 32 (wordId s), lastErr := .none }
  | navpar (u : Byte) : Completes s (.navpar u) { s with lastErr := .none }

/-- What a fault leaves: STATUS changes and nothing else (60_exceptions R136). -/
def Faults (s t : State) : Prop := ∃ code, code ≠ .none ∧ t = faulted code s

/-- A command's check: its fault, or what comes after it. -/
theorem check_cases {c : Prop} [Decidable c] {code : ErrCode} {s t : State} {r : Result} {P : Prop}
    (h : (if c then raise code s else r) = .next t) (hcode : code ≠ .none)
    (hr : ¬ c → r = .next t → Faults s t ∨ P) : Faults s t ∨ P := by
  split_ifs at h with hc
  · cases h
    exact .inl ⟨code, hcode, rfl⟩
  · exact hr hc h

/-- The check of a Bool condition. -/
theorem guard_cases {b : Bool} {code : ErrCode} {s t : State} {r : Result} {P : Prop}
    (h : (if !b then raise code s else r) = .next t) (hcode : code ≠ .none)
    (hr : b = true → r = .next t → Faults s t ∨ P) : Faults s t ∨ P :=
  check_cases h hcode fun hb => hr (by simpa using hb)

/-- A push of bytes completes with what FeedAll gives. -/
theorem pushBytes_next {bytes : List Byte} {s t : State} (h : pushBytes bytes s = .next t) :
    ∃ r, feedAll s bytes s.sync = some r ∧
      t = { s with sync := r.1, evout := s.evout ++ r.2, lastErr := .none } := by
  obtain ⟨r, hr, hp⟩ := pushBytes_spec bytes s
  rw [hp] at h
  cases h
  exact ⟨r, hr, rfl⟩

/-- The shared body of SUM2, CRC32 and CRC24Q faults, or writes CKRES. -/
theorem overArgBytes_cases {f : List Byte → Word} {s t : State}
    (h : overArgBytes f s = .next t) :
    Faults s t ∨ t = { s with ckres := f (argBytes s), lastErr := .none } := by
  unfold overArgBytes at h
  refine guard_cases h nofun fun _ h => ?_
  cases h
  exact .inr rfl

/-- One inversion lemma for every command: it faults, or completes. -/
theorem exec_cases {i : Instr} {s t : State} (h : exec i s = .next t) :
    Faults s t ∨ Completes s i t := by
  cases i with
  | nop => cases h; exact .inr .nop
  | rdu w =>
    unfold exec execRdu at h
    refine guard_cases h nofun fun _ h => guard_cases h nofun fun fits h => ?_
    cases h; exact .inr (.rdu w fits)
  | wru w =>
    unfold exec execWru at h
    refine guard_cases h nofun fun _ h => guard_cases h nofun fun fits h => ?_
    cases h; exact .inr (.wru w fits)
  | rdsm w =>
    unfold exec execRdsm at h
    refine guard_cases h nofun fun _ h => guard_cases h nofun fun fits h => ?_
    cases h; exact .inr (.rdsm w fits)
  | rdx38 =>
    unfold exec execRdx38 at h
    refine guard_cases h nofun fun fits h => ?_
    cases h; exact .inr (.rdx38 fits)
  | scaleu k =>
    unfold exec execScaleu at h
    refine guard_cases h nofun fun _ h => ?_
    cases h; exact .inr (.scaleu k)
  | scales k =>
    unfold exec execScales at h
    refine guard_cases h nofun fun _ h => ?_
    cases h; exact .inr (.scales k)
  | scalef k =>
    unfold exec execScalef at h
    refine guard_cases h nofun fun _ h => ?_
    cases h; exact .inr (.scalef k)
  | xor8 =>
    unfold exec execXor8 at h
    refine guard_cases h nofun fun _ h => ?_
    cases h; exact .inr .xor8
  | sum2 =>
    rcases overArgBytes_cases (f := sum2Word) h with hf | rfl
    · exact .inl hf
    · exact .inr .sum2
  | crc32 =>
    rcases overArgBytes_cases (f := crc32 (crc32Preset s)) h with hf | rfl
    · exact .inl hf
    · exact .inr .crc32
  | crc24q =>
    rcases overArgBytes_cases (f := fun bs => (crc24qBytes bs).setWidth 32) h with hf | rfl
    · exact .inl hf
    · exact .inr .crc24q
  | crc24qb =>
    unfold exec execCrc24qb at h
    refine guard_cases h nofun fun _ h => ?_
    cases h; exact .inr .crc24qb
  | push b =>
    unfold exec execPush at h
    refine guard_cases h nofun fun legal h => ?_
    obtain ⟨r, fed, rfl⟩ := pushBytes_next h
    exact .inr (.push b r legal fed)
  | pushn =>
    unfold exec execPushn at h
    refine guard_cases h nofun fun legal h => guard_cases h nofun fun _ h => ?_
    obtain ⟨r, fed, rfl⟩ := pushBytes_next h
    exact .inr (.pushn r legal fed)
  | sreset => cases h; exact .inr .sreset
  | navsf e =>
    unfold exec execNavsf at h
    refine guard_cases h nofun fun legal h => guard_cases h nofun fun _ h =>
      check_cases h nofun fun _ h => guard_cases h nofun fun _ h => ?_
    cases h; exact .inr (.navsf e legal)
  | navwd e =>
    unfold exec execNavwd at h
    refine guard_cases h nofun fun legal h => guard_cases h nofun fun _ h =>
      guard_cases h nofun fun _ h => ?_
    cases h; exact .inr (.navwd e legal)
  | navpar u =>
    unfold exec execNavpar at h
    refine guard_cases h nofun fun _ h => guard_cases h nofun fun _ h =>
      guard_cases h nofun fun _ h => ?_
    cases h; exact .inr (.navpar u)

theorem Completes.lastErr {s t : State} {i : Instr} (h : Completes s i t) : t.lastErr = .none := by
  cases h <;> rfl

theorem Completes.errSticky {s t : State} {i : Instr} (h : Completes s i t) :
    t.errSticky = s.errSticky := by
  cases h <;> rfl

/-- One inversion lemma for a write to CMD: a fault, or a decoded command that completes. -/
theorem runCommand_cases {w : Word} {s t : State} (h : runCommand w s = .next t) :
    Faults s t ∨ ∃ i, decode w = .ok i ∧ Completes s i t := by
  unfold runCommand at h
  cases hd : decode w with
  | error e =>
    rw [hd] at h
    cases h
    exact .inl ⟨.illegalCommand, nofun, rfl⟩
  | ok i =>
    rw [hd] at h
    exact (exec_cases h).imp_right fun hc => ⟨i, rfl, hc⟩

/-- LAST_ERR tells the two apart: a command that reports a code has faulted. -/
theorem runCommand_faulted {w : Word} {s t : State} (h : runCommand w s = .next t)
    (hne : t.lastErr ≠ .none) : t = faulted t.lastErr s := by
  rcases runCommand_cases h with ⟨code, _, rfl⟩ | ⟨i, _, hc⟩
  · rfl
  · exact absurd hc.lastErr hne

/-- Settles O8: a command that reports a code took `faulted`, and a bad access is served by it. -/
theorem faultChangesOnlyStatus : Obligations.FaultChangesOnlyStatus := by
  unfold Obligations.FaultChangesOnlyStatus
  refine ⟨fun w s t => runCommand_faulted, fun s bits offset v hbad => ⟨?write, ?read⟩⟩
  case write => simp [serveAccess, hbad, portWrite, raiseFault_eq]
  case read => simp [serveAccess, hbad, portRead, portValue, faultIfBad, raiseFault_eq]

/-- Settles O11: nothing but STATUS changes at a fault; the fields a completed command writes are those
of its case. -/
theorem commandFrame : Obligations.CommandFrame := by
  unfold Obligations.CommandFrame
  intro i s t h
  rcases exec_cases h with ⟨code, _, rfl⟩ | hc
  · simp [faulted]
  · cases hc <;> simp

/-- No command writes a parameter or a synchronizer configuration register. -/
theorem Completes.sameConfig {s t : State} {i : Instr} (h : Completes s i t) : sameConfig s t := by
  cases h <;> exact sameConfig_refl s

/-! ## What a command reads of CBUF -/

/-- A result with another CBUF in its state. -/
def withCbuf (m : Memory) : Result → Result
  | .next t => .next { t with cbuf := m }
  | .fault f => .fault f
  | .refused r => .refused r

/-- A check that does not look at CBUF. -/
theorem withCbuf_check {c : Prop} [Decidable c] {code : ErrCode} {m : Memory} {s : State}
    {r r' : Result} (h : ¬ c → r' = withCbuf m r) :
    (if c then raise code { s with cbuf := m } else r') =
      withCbuf m (if c then raise code s else r) := by
  split_ifs with hc
  · rfl
  · exact h hc

/-- The check of a Bool condition that does not look at CBUF. -/
theorem withCbuf_guard {b : Bool} {code : ErrCode} {m : Memory} {s : State} {r r' : Result}
    (h : b = true → r' = withCbuf m r) :
    (if !b then raise code { s with cbuf := m } else r') =
      withCbuf m (if !b then raise code s else r) :=
  withCbuf_check fun hb => h (by simpa using hb)

/-- A push looks at CBUF only through the bytes it is given. -/
theorem pushBytes_withCbuf (bytes : List Byte) (m : Memory) (s : State) :
    pushBytes bytes { s with cbuf := m } = withCbuf m (pushBytes bytes s) := by
  unfold pushBytes
  rw [feedAll_congr (s := { s with cbuf := m }) (t := s) (sameConfig_refl s)]
  cases feedAll s bytes s.sync <;> rfl

section View

variable {s : State} {m : Memory} (view : ∀ a, a < s.clen.toNat → m.read a = s.cbuf.read a)
include view

theorem cbufBits_view {p w : Nat} (h : p + w ≤ 8 * s.clen.toNat) :
    cbufBits { s with cbuf := m } p w = cbufBits s p w :=
  streamBits_view view h

theorem cursorField_view {w : Nat} (fits : cursorFits s w = true) :
    cursorField { s with cbuf := m } w = cursorField s w :=
  cbufBits_view view ((cursorFits_iff s w).mp fits)

theorem cbufBytes_view {start n : Nat} (h : start + n ≤ s.clen.toNat) :
    cbufBytes { s with cbuf := m } start n = cbufBytes s start n :=
  Memory.readRange_congr fun a _ ha => view a (by omega)

theorem argBytes_view (fits : byteRangeFits s = true) :
    argBytes { s with cbuf := m } = argBytes s :=
  cbufBytes_view view ((byteRangeFits_iff s).mp fits)

theorem cbufBitList_view {p n : Nat} (h : p + n ≤ 8 * s.clen.toNat) :
    cbufBitList { s with cbuf := m } p n = cbufBitList s p n := by
  rw [cbufBitList_eq, cbufBitList_eq]
  refine List.map_congr_left fun j hj => ?_
  have hj := List.mem_range.mp hj
  unfold streamBit
  rw [view _ (by omega)]

/-- The subframe id lies in its unit of 30 bytes (43_nav_validator R126). -/
theorem subframeId_view (legal : navSfLegal s = true) (fits : unitFits s 30 = true) :
    subframeId { s with cbuf := m } = subframeId s := by
  have hl := (navSfLegal_iff s).mp legal
  have hf := (unitFits_iff s 30).mp fits
  have inside : 8 * s.arg0.toNat + sfIdOff s + sfIdW s ≤ 8 * s.clen.toNat := by omega
  exact cbufBits_view view inside

/-- The word id lies in its unit of 11 bytes (43_nav_validator R126). -/
theorem wordId_view (legal : navWdLegal s = true) (fits : unitFits s 11 = true) :
    wordId { s with cbuf := m } = wordId s := by
  have hl := (navWdLegal_iff s).mp legal
  have hf := (unitFits_iff s 11).mp fits
  have inside : 8 * s.arg0.toNat + wdIdOff s + wdIdW s ≤ 8 * s.clen.toNat := by omega
  exact cbufBits_view view inside

theorem overArgBytes_view (f : List Byte → Word) :
    overArgBytes f { s with cbuf := m } = withCbuf m (overArgBytes f s) := by
  unfold overArgBytes
  refine withCbuf_guard fun fits => ?_
  rw [argBytes_view view fits]
  rfl

/-- A command other than WRU does the same on a CBUF that agrees on the view. -/
theorem exec_view {i : Instr} (hi : ∀ w, i ≠ .wru w) :
    exec i { s with cbuf := m } = withCbuf m (exec i s) := by
  cases i with
  | nop => rfl
  | rdu w =>
    unfold exec execRdu
    refine withCbuf_guard fun _ => withCbuf_guard fun fits => ?_
    rw [cursorField_view view fits]
    rfl
  | wru w => exact absurd rfl (hi w)
  | rdsm w =>
    unfold exec execRdsm
    refine withCbuf_guard fun _ => withCbuf_guard fun fits => ?_
    rw [cursorField_view view fits]
    rfl
  | rdx38 =>
    unfold exec execRdx38
    refine withCbuf_guard fun fits => ?_
    rw [cursorField_view view fits]
    rfl
  | scaleu k => exact withCbuf_guard fun _ => rfl
  | scales k => exact withCbuf_guard fun _ => rfl
  | scalef k => exact withCbuf_guard fun _ => rfl
  | xor8 =>
    unfold exec execXor8
    refine withCbuf_guard fun fits => ?_
    rw [argBytes_view view fits]
    rfl
  | sum2 => exact overArgBytes_view view _
  | crc32 => exact overArgBytes_view view _
  | crc24q => exact overArgBytes_view view fun bs => (crc24qBytes bs).setWidth 32
  | crc24qb =>
    unfold exec execCrc24qb
    refine withCbuf_guard fun fits => ?_
    rw [cbufBitList_view view ((bitRangeFits_iff s).mp fits)]
    rfl
  | push b => exact withCbuf_guard fun _ => pushBytes_withCbuf [b] m s
  | pushn =>
    unfold exec execPushn
    refine withCbuf_guard fun _ => withCbuf_guard fun fits => ?_
    rw [argBytes_view view fits]
    exact pushBytes_withCbuf _ m s
  | sreset => rfl
  | navsf e =>
    unfold exec execNavsf
    refine withCbuf_guard fun legal => withCbuf_guard fun fits => ?_
    have hread : cbufRead { s with cbuf := m } s.arg0.toNat = cbufRead s s.arg0.toNat :=
      view _ (by have := (unitFits_iff s 30).mp fits; omega)
    rw [hread, subframeId_view view legal fits]
    exact withCbuf_check fun _ => withCbuf_guard fun _ => rfl
  | navwd e =>
    unfold exec execNavwd
    refine withCbuf_guard fun legal => withCbuf_guard fun fits => ?_
    rw [wordId_view view legal fits]
    exact withCbuf_guard fun _ => rfl
  | navpar u =>
    unfold exec execNavpar
    refine withCbuf_guard fun _ => withCbuf_guard fun fits => ?_
    rw [cbufBytes_view view ((unitFits_iff s _).mp fits)]
    exact withCbuf_guard fun _ => rfl

end View

/-- Settles O12: by the commands' cases, each read of CBUF lying below CLEN by the check before it. -/
theorem commandsReadOnlyTheView : Obligations.CommandsReadOnlyTheView := by
  unfold Obligations.CommandsReadOnlyTheView
  intro i s t m view hi h
  rw [exec_view view hi, h]
  rfl

end Sys2Proof.Machine
end

section
/-! PROOF. The host port: what each access reaches, what a register reads after a write, and what a
write leaves. -/

namespace Sys2Proof.Machine

/-! ## The register map -/

theorem regOffset_eq_mapOffset (r : Reg) : regOffset r = mapOffset r := by
  cases r <;> rfl

theorem regOffset_mod_four (r : Reg) : regOffset r % 4 = 0 := by
  cases r with
  | ktabLo k => simp only [regOffset]; omega
  | ktabHi k => simp only [regOffset]; omega
  | _ => rfl

theorem regOffset_lt (r : Reg) : regOffset r < cbufBase := by
  cases r with
  | ktabLo k => simp only [regOffset, cbufBase]; omega
  | ktabHi k => simp only [regOffset, cbufBase]; omega
  | _ => decide

/-- The register an offset belongs to is the one at the offset rounded down to a word. -/
theorem regAt_eq_some_iff {offset : Nat} {r : Reg} :
    regAt offset = some r ↔ regOffset r = offset - offset % 4 := by
  refine ⟨regAt_some, fun h => ?_⟩
  have halign : offset - offset % 4 = regOffset r - regOffset r % 4 := by
    rw [regOffset_mod_four, h, Nat.sub_zero]
  calc regAt offset = regAt (regOffset r) := by unfold regAt; rw [halign]
    _ = some r := regAt_regOffset r

theorem regAt_eq_none {offset : Nat} (h : ∀ r, offset / 4 * 4 ≠ regOffset r) :
    regAt offset = none := by
  refine Option.eq_none_iff_forall_ne_some.mpr fun r hr => h r ?_
  have := regAt_some hr
  omega

/-! ## What an access reaches -/

/-- The four bytes of a register. -/
theorem portTarget_register (s : State) (r : Reg) (bits : Nat) {k : Nat} (hk : k ≤ 3) :
    portTarget s bits (regOffset r + k) = if bits = 32 ∧ k = 0 then .reg r else .bad := by
  have hmod := regOffset_mod_four r
  have hlt : regOffset r + k < cbufBase := by
    have := regOffset_lt r
    unfold cbufBase at this ⊢
    omega
  have hat : regAt (regOffset r + k) = some r := regAt_eq_some_iff.mpr (by omega)
  have hk0 : (regOffset r + k) % 4 = 0 ↔ k = 0 := by omega
  simp [portTarget, hlt, hat, hk0]

theorem portTarget_regOffset (s : State) (r : Reg) : portTarget s 32 (regOffset r) = .reg r :=
  portTarget_register s r 32 (k := 0) (by omega)

/-- The bytes of the CBUF window. -/
theorem portTarget_window (s : State) (bits : Nat) {i : Nat} (hi : i < s.impl.cbufCap) :
    portTarget s bits (0x10000 + i) = if bits = 8 then .cbufByte i
      else if bits = 32 ∧ i % 4 = 0 then .cbufWord i else .bad := by
  have hmod : (0x10000 + i) % 4 = i % 4 := by omega
  simp [portTarget, cbufBase, hi, hmod]

/-- A register is reached by a 32-bit access at its offset and in no other way. -/
theorem portTarget_eq_reg {s : State} {bits offset : Nat} {r : Reg}
    (h : portTarget s bits offset = .reg r) : bits = 32 ∧ offset = mapOffset r := by
  unfold portTarget at h
  split at h
  · split at h
    · cases h
    · next r' hr' =>
      split_ifs at h with hb
      cases h
      have := regAt_some hr'
      rw [← regOffset_eq_mapOffset]
      exact ⟨hb.1, by omega⟩
  · split_ifs at h

/-- Settles O49: the register map and the window by offset, the platform's addresses by R52. -/
theorem accessTargets : Obligations.AccessTargets := by
  unfold Obligations.AccessTargets
  intro s
  refine ⟨regOffset_eq_mapOffset, portTarget_regOffset s, ?inside, ?width, ?outside, ?window, ?above,
    ?addressed, ?elsewhere⟩
  case inside =>
    intro r k h1 h3 bits
    rw [portTarget_register s r bits h3, if_neg (by omega)]
  case width =>
    intro r bits hb
    rw [← Nat.add_zero (regOffset r), portTarget_register s r bits (by omega), if_neg (by omega)]
  case outside =>
    intro offset bits hlt hr
    simp [portTarget, cbufBase, hlt, regAt_eq_none hr]
  case window =>
    intro i hi
    simp +contextual [portTarget_window s _ hi]
  case above =>
    intro bits i hi
    simp [portTarget, cbufBase, hi]
  case addressed =>
    intro bits offset data rest hlt
    have ho : offsetOf s (baseAddress s + offset) = some offset :=
      (offsetOf_eq_some_iff s _ _).mpr ⟨rfl, hlt⟩
    simp [step, servePending, serveInput, offsetOf_pending, ho]
  case elsewhere =>
    intro bits address data rest hout
    have ho := (offsetOf_eq_none_iff s address).mpr hout
    simp [step, servePending, serveInput, offsetOf_pending, ho]

/-! ## What a register write leaves -/

@[simp] theorem writeReg_impl (r : Reg) (v : Word) (s : State) :
    (writeReg r v s).impl = s.impl := by
  cases r <;> rfl

@[simp] theorem writeReg_lastErr (r : Reg) (v : Word) (s : State) :
    (writeReg r v s).lastErr = s.lastErr := by
  cases r <;> rfl

@[simp] theorem writeReg_cbuf (r : Reg) (v : Word) (s : State) :
    (writeReg r v s).cbuf = s.cbuf := by
  cases r <;> rfl

@[simp] theorem writeReg_evout (r : Reg) (v : Word) (s : State) :
    (writeReg r v s).evout = s.evout := by
  cases r <;> rfl

@[simp] theorem writeReg_pending (r : Reg) (v : Word) (s : State) :
    (writeReg r v s).pending = s.pending := by
  cases r <;> rfl

@[simp] theorem writeReg_readLog (r : Reg) (v : Word) (s : State) :
    (writeReg r v s).readLog = s.readLog := by
  cases r <;> rfl

@[simp] theorem writeReg_ckhex (r : Reg) (v : Word) (s : State) :
    (writeReg r v s).ckhex = s.ckhex := by
  cases r <;> rfl

@[simp] theorem writeReg_navid (r : Reg) (v : Word) (s : State) :
    (writeReg r v s).navid = s.navid := by
  cases r <;> rfl

theorem writeReg_errSticky {r : Reg} (h : r ≠ .status) (v : Word) (s : State) :
    (writeReg r v s).errSticky = s.errSticky := by
  cases r with
  | status => exact absurd rfl h
  | _ => rfl

theorem writeReg_sync (r : Reg) (v : Word) (s : State) :
    (writeReg r v s).sync = if isSyncConfig r then syncResetState else s.sync := by
  cases r <;> rfl

/-- A write outside 0x040 to 0x064 changes no synchronizer configuration register. -/
theorem writeReg_sameConfig {r : Reg} (h : isSyncConfig r = false) (v : Word) (s : State) :
    sameConfig s (writeReg r v s) := by
  cases r with
  | scfg | lpSync | lpLim | bpCfg | bpLim | h32Sync | h32Cfg | h32Lim | asciiCfg | lookahead =>
    cases h
  | _ => exact sameConfig_refl s

theorem writeReg_readOnly {r : Reg} (h : isReadOnly r = true) (v : Word) (s : State) :
    writeReg r v s = s := by
  cases r with
  | resLo | resHi | fresLo | fresHi | ckres | ckhex | navid | syncFlen | garbage => rfl
  | ktabLo k => simp [isReadOnly] at h
  | ktabHi k => simp [isReadOnly] at h
  | _ => cases h

/-! ## What a register reads -/

theorem lowWord_append (hi lo : Word) : lowWord (hi ++ lo) = lo :=
  BitVec.extractLsb'_append_eq_right

theorem highWord_append (hi lo : Word) : highWord (hi ++ lo) = hi :=
  BitVec.extractLsb'_append_eq_left

theorem highWord_append_lowWord (d : DWord) : highWord d ++ lowWord d = d := by
  apply BitVec.eq_of_getLsbD_eq
  intro i hi
  simp only [highWord, lowWord, BitVec.getLsbD_append, BitVec.getLsbD_extractLsb']
  grind

theorem ktab_get_set_same (t : Vector DWord 16) (k : Fin 16) (d : DWord) :
    (t.set k d).get k = d :=
  Vector.getElem_set_self k.isLt

theorem ktab_get_set_ne (t : Vector DWord 16) {k j : Fin 16} (h : k ≠ j) (d : DWord) :
    (t.set k d).get j = t.get j :=
  Vector.getElem_set_ne k.isLt j.isLt (Fin.val_ne_of_ne h)

theorem fieldMask_eq_namedBits (r : Reg) : fieldMask r = namedBits r := by
  cases r <;> rfl

theorem readReg_eq (s : State) (r : Reg) : readReg s r = regValue s r &&& namedBits r := by
  rw [readReg, fieldMask_eq_namedBits]

theorem and_all_named (v : Word) : v &&& 0xFFFFFFFF#32 = v := BitVec.and_allOnes

/-- A register without reserved bits reads its own state. -/
theorem readReg_whole {r : Reg} (h : namedBits r = 0xFFFFFFFF#32) (s : State) :
    readReg s r = regValue s r := by
  rw [readReg_eq, h, and_all_named]

/-- The registers a host write stores a value in, the clamped ones and STATUS apart. -/
def storesValue (r : Reg) : Bool := isPlainRw r || isSyncConfig r

/-- What a register holds after a write of it: the value, its reserved bits 0. -/
theorem regValue_writeReg_same {r : Reg} (h : storesValue r = true) (v : Word) (s : State) :
    regValue (writeReg r v s) r = v &&& namedBits r := by
  cases r with
  | arg0 | arg1 => exact (and_all_named v).symm
  | valLo => exact (lowWord_append _ _).trans (and_all_named v).symm
  | valHi => exact (highWord_append _ _).trans (and_all_named v).symm
  | ktabLo k =>
    change lowWord ((s.ktab.set k (withLowWord (s.ktab.get k) v)).get k) = v &&& 0xFFFFFFFF#32
    rw [ktab_get_set_same, and_all_named, withLowWord, lowWord_append]
  | ktabHi k =>
    change highWord ((s.ktab.set k (withHighWord (s.ktab.get k) v)).get k) = v &&& 0xFFFFFFFF#32
    rw [ktab_get_set_same, and_all_named, withHighWord, highWord_append]
  | navCfg0 | navCfg1 | navSfset | navWdset => rfl
  | scfg | lpSync | lpLim | bpCfg | bpLim | h32Sync | h32Cfg | h32Lim | asciiCfg | lookahead => rfl
  | _ => cases h

/-- What another register holds after a write. A CLEN write may pull BITPOS down (10_state R19); a
configuration write resets the synchronizer, of which STATUS, SYNC_FLEN and GARBAGE tell (R31). -/
theorem regValue_writeReg_ne {r r' : Reg} (hne : r' ≠ r) (hclen : r = .clen → r' ≠ .bitpos)
    (hsync : isSyncConfig r = true → r' ≠ .status ∧ r' ≠ .syncFlen ∧ r' ≠ .garbage)
    (v : Word) (s : State) : regValue (writeReg r v s) r' = regValue s r' := by
  cases r with
  | valLo =>
    cases r' with
    | valLo => exact absurd rfl hne
    | valHi => exact highWord_append _ _
    | _ => rfl
  | valHi =>
    cases r' with
    | valLo => exact lowWord_append _ _
    | valHi => exact absurd rfl hne
    | _ => rfl
  | clen =>
    cases r' with
    | bitpos => exact absurd rfl (hclen rfl)
    | clen => exact absurd rfl hne
    | _ => rfl
  | ktabLo k =>
    cases r' with
    | ktabLo j =>
      have e : k ≠ j := fun e => hne (congrArg Reg.ktabLo e.symm)
      exact congrArg lowWord (ktab_get_set_ne _ e _)
    | ktabHi j =>
      change highWord ((s.ktab.set k (withLowWord (s.ktab.get k) v)).get j) = _
      by_cases e : k = j
      · subst e
        rw [ktab_get_set_same, withLowWord, highWord_append, regValue]
      · rw [ktab_get_set_ne _ e, regValue]
    | _ => rfl
  | ktabHi k =>
    cases r' with
    | ktabLo j =>
      change lowWord ((s.ktab.set k (withHighWord (s.ktab.get k) v)).get j) = _
      by_cases e : k = j
      · subst e
        rw [ktab_get_set_same, withHighWord, lowWord_append, regValue]
      · rw [ktab_get_set_ne _ e, regValue]
    | ktabHi j =>
      have e : k ≠ j := fun e => hne (congrArg Reg.ktabHi e.symm)
      exact congrArg highWord (ktab_get_set_ne _ e _)
    | _ => rfl
  | status | arg0 | arg1 | bitpos | navCfg0 | navCfg1 | navSfset | navWdset =>
    cases r' <;> trivial
  | scfg | lpSync | lpLim | bpCfg | bpLim | h32Sync | h32Cfg | h32Lim | asciiCfg | lookahead =>
    obtain ⟨hstatus, hflen, hgarbage⟩ := hsync rfl
    cases r' <;> trivial
  | cmd | resLo | resHi | fresLo | fresHi | ckres | ckhex | navid | syncFlen | garbage => rfl

theorem isSyncConfig_of_isPlainRw {r : Reg} (h : isPlainRw r = true) : isSyncConfig r = false := by
  cases r with
  | scfg | lpSync | lpLim | bpCfg | bpLim | h32Sync | h32Cfg | h32Lim | asciiCfg | lookahead =>
    cases h
  | ktabLo k => simp [isSyncConfig]
  | ktabHi k => simp [isSyncConfig]
  | _ => rfl

/-- A register that stores a value reads it back, its reserved bits 0. -/
theorem readReg_writeReg_same {r : Reg} (h : storesValue r = true) (v : Word) (s : State) :
    readReg (writeReg r v s) r = v &&& namedBits r := by
  rw [readReg_eq, regValue_writeReg_same h, BitVec.and_assoc, BitVec.and_self]

/-- Settles O51: the register's own value by its case, every other by the frame of a register write. -/
theorem registerWritesReadBack : Obligations.RegisterWritesReadBack := by
  unfold Obligations.RegisterWritesReadBack
  intro r v s
  refine ⟨fun hplain => ?plain, fun hro => writeReg_readOnly hro v s⟩
  have hsync := isSyncConfig_of_isPlainRw hplain
  have hstatus : r ≠ .status := by rintro rfl; cases hplain
  have hclen : r ≠ .clen := by rintro rfl; cases hplain
  refine ⟨readReg_writeReg_same (by simp [storesValue, hplain]) v s, fun r' hne => ?_, ?_⟩
  · rw [readReg_eq, readReg_eq,
      regValue_writeReg_ne hne (fun e => absurd e hclen) (fun e => by simp [hsync] at e)]
  · simp [writeReg_sync, hsync, writeReg_errSticky hstatus]

/-- Settles O53: the ten registers by their offsets, then the frame of a register write. -/
theorem configWriteResetsSynchronizer : Obligations.ConfigWriteResetsSynchronizer := by
  unfold Obligations.ConfigWriteResetsSynchronizer
  refine ⟨fun r => ?offsets, fun r v s hsync => ?write⟩
  case offsets =>
    cases r with
    | ktabLo k => simp [isSyncConfig, regOffset]; omega
    | ktabHi k => simp [isSyncConfig, regOffset]; omega
    | _ => decide
  case write =>
    have hstatus : r ≠ .status := by rintro rfl; cases hsync
    have hclen : r ≠ .clen := by rintro rfl; cases hsync
    refine ⟨by simp [writeReg_sync, hsync], readReg_writeReg_same (by simp [storesValue, hsync]) v s,
      by simp, by simp, by simp, writeReg_errSticky hstatus v s, by simp, by simp, by simp,
      fun r' hne hst hfl hga => ?_⟩
    rw [readReg_eq, readReg_eq,
      regValue_writeReg_ne hne (fun e => absurd e hclen) (fun _ => ⟨hst, hfl, hga⟩)]

/-! ## The clamps -/

/-- A word clamped from above. -/
theorem toNat_ofNat_min (v : Word) (n : Nat) :
    (BitVec.ofNat 32 (min v.toNat n)).toNat = min v.toNat n := by
  have := v.isLt
  rw [BitVec.toNat_ofNat]
  omega

/-- Settles O52: neither clamp wraps, for it is at most a 32-bit word. -/
theorem cursorAndViewClamp : Obligations.CursorAndViewClamp := by
  unfold Obligations.CursorAndViewClamp
  exact fun v s => ⟨⟨_, toNat_ofNat_min v _, rfl⟩,
    ⟨_, _, toNat_ofNat_min v _, toNat_ofNat_min s.bitpos _, rfl⟩⟩

/-! ## Block reset -/

theorem readReg_reset (r : Reg) : readReg State.reset r = resetWord r := by
  cases r with
  | ktabLo k => revert k; decide
  | ktabHi k => revert k; decide
  | _ => rfl

/-- No register depends on what a block reset keeps. -/
theorem regValue_blockReset (s : State) (r : Reg) :
    regValue (blockReset s) r = regValue State.reset r := by
  cases r <;> rfl

theorem readReg_blockReset (s : State) (r : Reg) : readReg (blockReset s) r = resetWord r := by
  rw [← readReg_reset]
  exact congrArg (· &&& fieldMask r) (regValue_blockReset s r)

/-- Settles O55: each register by its reset column. -/
theorem blockResetValues : Obligations.BlockResetValues := by
  unfold Obligations.BlockResetValues
  intro s rest hp
  refine ⟨blockReset { s with pending := rest }, ?_, readReg_blockReset _, fun _ => rfl, rfl, rfl, rfl,
    rfl, rfl⟩
  simp [step, servePending, hp, serveInput]

/-! ## Reads -/

/-- A 64-bit register is its two words side by side. -/
theorem readReg_pair {s : State} {lo hi : Reg} {d : DWord} (hlo : readReg s lo = lowWord d)
    (hhi : readReg s hi = highWord d) : readReg s hi ++ readReg s lo = d := by
  rw [hlo, hhi, highWord_append_lowWord]

/-- STATUS by its three fields. -/
theorem statusWord_toNat (s : State) : (statusWord s).toNat =
    errNumber s.lastErr + 2 ^ 4 * s.errSticky.toNat + 2 ^ 8 * parserNumber s.sync.sstate := by
  unfold statusWord
  generalize s.lastErr = e, s.errSticky = b, s.sync.sstate = p
  cases e <;> cases b <;> cases p <;> rfl

/-- One spec lemma for a read: a bad one faults and returns 0, any other returns its value. -/
theorem portRead_eq (bits offset : Nat) (s : State) : portRead bits offset s =
    if portTarget s bits offset = .bad then
      faulted .badAccess { s with readLog := s.readLog ++ [0#32] }
    else { s with readLog := s.readLog ++ [portValue s (portTarget s bits offset)] } := by
  unfold portRead faultIfBad
  by_cases h : portTarget s bits offset = .bad
  · simp [h, portValue, raiseFault_eq]
  · simp [h]

/-- A read that is not bad only appends the value it returns to the log. -/
theorem serveAccess_read {s : State} {bits offset : Nat} (h : portTarget s bits offset ≠ .bad) :
    serveAccess (.read bits offset) s =
      .next { s with readLog := s.readLog ++ [portValue s (portTarget s bits offset)] } := by
  simp [serveAccess, portRead_eq, h]

/-- A write that reaches no command is served by its target. -/
theorem serveAccess_write {s : State} {bits offset : Nat} (v : Word)
    (h : portTarget s bits offset ≠ .reg .cmd) :
    serveAccess (.write bits offset v) s = .next (portWrite (portTarget s bits offset) v s) := by
  simp [serveAccess, h]

/-- Settles O50: an access by its target, a register by its read image. -/
theorem readsHaveNoSideEffect : Obligations.ReadsHaveNoSideEffect := by
  unfold Obligations.ReadsHaveNoSideEffect
  intro s
  have whole {r : Reg} (h : namedBits r = 0xFFFFFFFF#32) : readReg s r = regValue s r :=
    readReg_whole h s
  refine ⟨fun bits offset => ⟨serveAccess_read, fun hu => ⟨?_, fun v => ?_⟩⟩, fun _ => rfl, ?_,
    whole rfl, ?_, whole rfl, readReg_pair (whole rfl) (whole rfl), readReg_pair (whole rfl) (whole rfl),
    readReg_pair (whole rfl) (whole rfl), fun k => readReg_pair (whole rfl) (whole rfl),
    whole rfl, whole rfl, whole rfl, whole rfl, whole rfl, whole rfl, whole rfl, rfl, rfl, whole rfl,
    rfl, rfl, whole rfl, rfl, whole rfl, rfl, whole rfl, rfl, rfl, whole rfl, whole rfl⟩
  · rw [serveAccess_read (by simp [hu]), hu]; rfl
  · rw [serveAccess_write v (by simp [hu]), hu]; rfl
  · rw [whole rfl]; exact statusWord_toNat s
  · rw [whole rfl]; exact BitVec.toNat_ofNat _ _

/-! ## Serving an access -/

/-- A read of a register returns its image. -/
theorem serveAccess_read_reg (s : State) (r : Reg) : serveAccess (.read 32 (regOffset r)) s =
    .next { s with readLog := s.readLog ++ [readReg s r] } := by
  have ht := portTarget_regOffset s r
  rw [serveAccess_read (by simp [ht]), ht]
  rfl

theorem serveAccess_write_reg (s : State) {r : Reg} (h : r ≠ .cmd) (v : Word) :
    serveAccess (.write 32 (regOffset r) v) s = .next (writeReg r v s) := by
  have ht := portTarget_regOffset s r
  rw [serveAccess_write v (by simp [ht, h]), ht]
  rfl

theorem serveAccess_write_cmd (s : State) (w : Word) :
    serveAccess (.write 32 (regOffset .cmd) w) s = runCommand w s := by
  simp [serveAccess, portTarget_regOffset]

/-- A decoded instruction is well formed: its row admits its immediate. -/
theorem wf_of_decode {w : Word} {i : Instr} (h : decode w = .ok i) : i.wf = true := by
  obtain ⟨_, r, hr, _, hadmits, rfl⟩ := decode_ok_cases h
  exact (opRows_build hr hadmits).2.2

/-- Settles O6: each access by what its offset reaches. -/
theorem stepRunsDecodedCommand : Obligations.StepRunsDecodedCommand := by
  unfold Obligations.StepRunsDecodedCommand
  refine ⟨?command, fun _ _ _ => rfl, fun s hp => by simp [step, servePending, hp], ?access⟩
  case command =>
    intro s w rest i hp hd
    refine ⟨wf_of_decode hd, ?_⟩
    simp [step, servePending, hp, commandInput, serveInput, serveAccess_write_cmd, runCommand, hd]
  case access =>
    intro s v
    refine ⟨serveAccess_write_cmd s v, fun r hr => ?_, fun r => ?_, fun i hi => ?window⟩
    · rw [← regOffset_eq_mapOffset, serveAccess_write_reg s hr]
    · rw [← regOffset_eq_mapOffset, serveAccess_read_reg]
    have hbyte : portTarget s 8 (0x10000 + i) = .cbufByte i := by simp [portTarget_window s 8 hi]
    refine ⟨?_, ?_, fun hmod => ?word⟩
    · rw [serveAccess_write v (by simp [hbyte]), hbyte]
    · rw [serveAccess_read (by simp [hbyte]), hbyte]
      simp [portValue, windowByte, hi]
    have hword : portTarget s 32 (0x10000 + i) = .cbufWord i := by
      simp [portTarget_window s 32 hi, hmod]
    refine ⟨?_, fun h3 => ?_⟩
    · rw [serveAccess_write v (by simp [hword]), hword]
    · have h1 : i + 1 < s.impl.cbufCap := by omega
      have h2 : i + 2 < s.impl.cbufCap := by omega
      rw [serveAccess_read (by simp [hword]), hword]
      simp [portValue, windowByte, hi, h1, h2, h3]

end Sys2Proof.Machine
end

section
/-! PROOF. What every step keeps: one induction over what a step does, then the implementation's
parameters, EVOUT, ERR_STICKY, CBUF with its cursor, and the registers. -/

namespace Sys2Proof.Machine

/-! ## One step -/

/-- A predicate that every part of a step but the block reset keeps: the queue moving on, the log, a
fault, a completed command, and a write of a register or of a byte of the window. -/
structure KeptByAccess (P : State → Prop) : Prop where
  pending : ∀ {s : State} (rest : List HostInput), P s → P { s with pending := rest }
  readLog : ∀ {s : State} (log : List Word), P s → P { s with readLog := log }
  fault : ∀ {s : State} (code : ErrCode), P s → P (faulted code s)
  command : ∀ {s t : State} {i : Instr}, Completes s i t → P s → P t
  register : ∀ {s : State} (r : Reg) (v : Word), P s → P (writeReg r v s)
  window : ∀ {s : State} (i : Nat) (v : Byte), P s → P (writeWindowByte i v s)

namespace KeptByAccess

variable {P : State → Prop} (h : KeptByAccess P)
include h

theorem portRead {s : State} (bits offset : Nat) (hs : P s) : P (portRead bits offset s) := by
  rw [portRead_eq]
  split
  · exact h.fault _ (h.readLog _ hs)
  · exact h.readLog _ hs

theorem portWrite {s : State} (target : PortTarget) (v : Word) (hs : P s) :
    P (portWrite target v s) := by
  cases target with
  | unmapped => exact hs
  | bad => exact h.fault _ hs
  | reg r => exact h.register r v hs
  | cbufByte i => exact h.window i _ hs
  | cbufWord i => exact h.window _ _ (h.window _ _ (h.window _ _ (h.window _ _ hs)))

theorem runCommand {w : Word} {s t : State} (hrun : runCommand w s = .next t) (hs : P s) : P t := by
  rcases runCommand_cases hrun with ⟨code, _, rfl⟩ | ⟨i, _, hc⟩
  · exact h.fault code hs
  · exact h.command hc hs

theorem serveAccess {a : PortAccess} {s t : State} (hserve : serveAccess a s = .next t)
    (hs : P s) : P t := by
  rcases serveAccess_cases a s with ⟨bits, offset, _, e⟩ | ⟨_, _, v, _, _, e⟩ |
    ⟨bits, offset, v, _, _, e⟩
  · rw [e] at hserve
    cases hserve
    exact h.portRead _ _ hs
  · exact h.runCommand (e ▸ hserve) hs
  · rw [e] at hserve
    cases hserve
    exact h.portWrite _ _ hs

/-- Every step keeps such a predicate, if a block reset does where the step serves one. -/
theorem step {s t : State} (hstep : step s = .next t)
    (hreset : ∀ rest, s.pending = .blockReset :: rest → P (blockReset { s with pending := rest }))
    (hs : P s) : P t := by
  rcases step_cases hstep with ⟨_, rfl⟩ | ⟨rest, hp, rfl⟩ | ⟨_, rest, _, _, rfl⟩ |
    ⟨a, _, rest, _, _, hserve⟩
  · exact hs
  · exact hreset rest hp
  · exact h.pending rest hs
  · exact h.serveAccess hserve (h.pending rest hs)

end KeptByAccess

/-! ## The implementation's parameters -/

/-- No step changes a parameter. -/
theorem step_impl {s t : State} (h : step s = .next t) : t.impl = s.impl := by
  have kept : KeptByAccess (fun u => u.impl = s.impl) :=
    { pending := fun _ hu => hu
      readLog := fun _ hu => hu
      fault := fun _ hu => hu
      command := fun hc hu => hc.sameConfig.1.symm.trans hu
      register := fun r v hu => (writeReg_impl r v _).trans hu
      window := fun _ _ hu => hu }
  exact kept.step h (fun _ _ => rfl) rfl

/-! ## EVOUT -/

theorem Completes.evout {s t : State} {i : Instr} (h : Completes s i t) :
    ∃ events, t.evout = s.evout ++ events := by
  cases h with
  | push b r _ _ => exact ⟨r.2, rfl⟩
  | pushn r _ _ => exact ⟨r.2, rfl⟩
  | _ => exact ⟨[], (List.append_nil _).symm⟩

theorem evout_keptByAccess (old : List Event) :
    KeptByAccess (fun u => ∃ events, u.evout = old ++ events) where
  pending _ h := h
  readLog _ h := h
  fault _ h := h
  command hc h := by
    obtain ⟨more, hmore⟩ := hc.evout
    obtain ⟨events, hevents⟩ := h
    exact ⟨events ++ more, by rw [hmore, hevents, List.append_assoc]⟩
  register r v h := by rwa [writeReg_evout]
  window _ _ h := h

/-- Settles O44: only the pushes write EVOUT, appending; a fault changes only STATUS. -/
theorem eventStreamAppendOnly : Obligations.EventStreamAppendOnly := by
  unfold Obligations.EventStreamAppendOnly
  refine ⟨fun s t hhead hstep => ?_, fun w s t h hne => ?_⟩
  · refine (evout_keptByAccess s.evout).step hstep (fun rest hp => ?_)
      ⟨[], (List.append_nil _).symm⟩
    exact absurd (by rw [hp]; rfl) hhead
  · rw [runCommand_faulted h hne]
    rfl

/-! ## ERR_STICKY -/

theorem runCommand_errSticky {w : Word} {s t : State} (h : runCommand w s = .next t) :
    t.errSticky = (s.errSticky || decide (t.lastErr ≠ .none)) := by
  rcases runCommand_cases h with ⟨code, hne, rfl⟩ | ⟨i, _, hc⟩
  · simp [faulted, hne]
  · simp [hc.lastErr, hc.errSticky]

theorem portRead_errSticky (bits offset : Nat) (s : State) : (portRead bits offset s).errSticky =
    (s.errSticky || decide (portTarget s bits offset = .bad)) := by
  rw [portRead_eq]
  split <;> simp [faulted, *]

/-- Of the writes that are no command, a bad one sets ERR_STICKY and one of STATUS may clear it. -/
theorem portWrite_errSticky {target : PortTarget} {v : Word} {s : State} (hs : s.errSticky = true)
    (hclear : (portWrite target v s).errSticky = false) :
    target = .reg .status ∧ v.getLsbD 4 = true := by
  cases target with
  | unmapped => simp [portWrite, hs] at hclear
  | bad => simp [portWrite] at hclear
  | reg r =>
    by_cases hr : r = .status
    · subst hr
      simp only [portWrite, writeReg, writeStatus_errSticky, hs] at hclear
      exact ⟨rfl, by simpa using hclear⟩
    · simp [portWrite, writeReg_errSticky hr, hs] at hclear
  | cbufByte i => simp [portWrite, hs] at hclear
  | cbufWord i => simp [portWrite, writeWindowWord, hs] at hclear

/-- Settles O10: the commands by their two endings, the accesses by their targets. -/
theorem stickyErrorBit : Obligations.StickyErrorBit := by
  unfold Obligations.StickyErrorBit
  refine ⟨fun w s t => runCommand_errSticky, fun bits offset s hbad => ⟨?_, fun v => ?_⟩,
    fun _ _ => rfl, fun _ => rfl, rfl, fun s t hstep hs ht => ?clears⟩
  · simp [portRead_errSticky, hbad]
  · simp [portWrite, hbad]
  case clears =>
    rcases step_cases hstep with ⟨_, rfl⟩ | ⟨rest, hp, _⟩ | ⟨_, _, _, _, rfl⟩ |
      ⟨a, input, rest, hp, hpresented, hserve⟩
    · simp [hs] at ht
    · exact ⟨_, rest, hp, .inl rfl⟩
    · simp [hs] at ht
    · refine ⟨input, rest, hp, .inr ?_⟩
      rcases serveAccess_cases a { s with pending := rest } with ⟨bits, offset, _, e⟩ |
        ⟨_, _, w, _, _, e⟩ | ⟨bits, offset, v, ha, _, e⟩
      · rw [e] at hserve
        cases hserve
        simp [portRead_errSticky, hs] at ht
      · rw [e] at hserve
        simp [runCommand_errSticky hserve, hs] at ht
      · rw [e] at hserve
        cases hserve
        obtain ⟨htarget, hbit⟩ := portWrite_errSticky (by exact hs) ht
        obtain ⟨rfl, rfl⟩ := portTarget_eq_reg htarget
        exact ⟨v, ha ▸ hpresented, hbit⟩

/-! ## CBUF and the cursor -/

/-- The advance of a cursor whose field lies inside the view, a wrap included. -/
theorem cursor_advance_le {s : State} {n : Nat} (fits : cursorFits s n = true) :
    (s.bitpos + BitVec.ofNat 32 n).toNat ≤ 8 * s.clen.toNat := by
  have := (cursorFits_iff s n).mp fits
  have := s.bitpos.isLt
  rw [BitVec.toNat_add, BitVec.toNat_ofNat]
  omega

theorem memoryInv_writeBits {s : State} (hm : memoryInv s) (hc : cursorInv s) {w v : Nat}
    (fits : cursorFits s w = true) :
    memoryInv { s with cbuf := s.cbuf.writeBits s.bitpos.toNat w v } := by
  obtain ⟨hwf, hbelow⟩ := hm
  obtain ⟨_, hcap⟩ := hc
  have := (cursorFits_iff s w).mp fits
  exact ⟨s.cbuf.wf_writeBits _ hwf w v, s.cbuf.below_writeBits hbelow w v (by omega)⟩

theorem memoryInv_writeWindowByte {s : State} (hm : memoryInv s) (i : Nat) (v : Byte) :
    memoryInv (writeWindowByte i v s) := by
  obtain ⟨hwf, hbelow⟩ := hm
  unfold memoryInv
  rw [writeWindowByte_cbuf, writeWindowByte_impl]
  split
  · next hi => exact ⟨s.cbuf.wf_write i v hwf, s.cbuf.below_write v hi hbelow⟩
  · exact ⟨hwf, hbelow⟩

theorem cursorInv_writeReg {s : State} (hc : cursorInv s) (r : Reg) (v : Word) :
    cursorInv (writeReg r v s) := by
  obtain ⟨hpos, hcap⟩ := hc
  cases r with
  | bitpos =>
    have := toNat_ofNat_min v (viewBits s)
    refine ⟨?_, hcap⟩
    simp only [writeReg, writeBitpos_bitpos, writeBitpos_clen, viewBits] at this ⊢
    omega
  | clen =>
    have hn := toNat_ofNat_min v s.impl.cbufCap
    have hp := toNat_ofNat_min s.bitpos (8 * (BitVec.ofNat 32 (min v.toNat s.impl.cbufCap)).toNat)
    refine ⟨?_, ?_⟩
    · simp only [writeReg, writeClen_bitpos, writeClen_clen]
      omega
    · simp only [writeReg, writeClen_clen, writeClen_impl]
      omega
  | _ => exact ⟨hpos, hcap⟩

theorem memoryInv_writeReg {s : State} (hm : memoryInv s) (r : Reg) (v : Word) :
    memoryInv (writeReg r v s) := by
  unfold memoryInv
  rwa [writeReg_cbuf, writeReg_impl]

theorem memoryAndCursor_keptByAccess : KeptByAccess (fun s => memoryInv s ∧ cursorInv s) where
  pending _ h := h
  readLog _ h := h
  fault _ h := h
  command hc h := by
    obtain ⟨hm, hcur⟩ := h
    cases hc with
    | rdu w fits => exact ⟨hm, cursor_advance_le fits, hcur.2⟩
    | wru w fits => exact ⟨memoryInv_writeBits hm hcur fits, cursor_advance_le fits, hcur.2⟩
    | rdsm w fits => exact ⟨hm, cursor_advance_le fits, hcur.2⟩
    | rdx38 fits => exact ⟨hm, cursor_advance_le fits, hcur.2⟩
    | _ => exact ⟨hm, hcur⟩
  register r v h := ⟨memoryInv_writeReg h.1 r v, cursorInv_writeReg h.2 r v⟩
  window i v h := ⟨memoryInv_writeWindowByte h.1 i v, h.2⟩

theorem blockReset_memoryAndCursor (s : State) :
    memoryInv (blockReset s) ∧ cursorInv (blockReset s) :=
  ⟨⟨rfl, rfl⟩, Nat.zero_le _, Nat.zero_le _⟩

/-- Settles O57: the commands that move the cursor check their field first, and writes clamp. -/
theorem stepKeepsMemoryAndCursor : Obligations.StepKeepsMemoryAndCursor := by
  unfold Obligations.StepKeepsMemoryAndCursor
  exact fun s t hm hc h =>
    memoryAndCursor_keptByAccess.step h (fun _ _ => blockReset_memoryAndCursor _) ⟨hm, hc⟩

/-! ## Registers -/

/-- A register of which every bit is named has no reserved bit. -/
theorem reserved_of_whole {r : Reg} (h : namedBits r = 0xFFFFFFFF#32) (v : Word) :
    v &&& ~~~namedBits r = 0#32 := by
  rw [h]
  exact BitVec.and_zero (x := v)

theorem reserved_of_masked (v m : Word) : v &&& m &&& ~~~m = 0#32 := by
  rw [BitVec.and_assoc, BitVec.and_not_self]
  exact BitVec.and_zero (x := v)

/-- Only the configuration registers have reserved bits (10_state R31, R32). -/
theorem regValue_reserved_congr {s t : State} (hcfg : sameConfig s t) (h0 : s.navCfg0 = t.navCfg0)
    (h1 : s.navCfg1 = t.navCfg1) {r : Reg} (h : regValue s r &&& ~~~namedBits r = 0#32) :
    regValue t r &&& ~~~namedBits r = 0#32 := by
  by_cases hall : namedBits r = 0xFFFFFFFF#32
  · exact reserved_of_whole hall _
  have hsame : regValue s r = regValue t r := by
    obtain ⟨_, hscfg, hlpSync, _, hbpCfg, hbpLim, _, hh32Cfg, _, hasciiCfg, _⟩ := hcfg
    cases r with
    | scfg | lpSync | bpCfg | bpLim | h32Cfg | asciiCfg | navCfg0 | navCfg1 => assumption
    | _ => exact absurd rfl hall
  rwa [← hsame]

/-- A register write clears the reserved bits of what it stores. -/
theorem regValue_reserved_writeReg {s : State} (h : ∀ r, regValue s r &&& ~~~namedBits r = 0#32)
    (r : Reg) (v : Word) (r' : Reg) : regValue (writeReg r v s) r' &&& ~~~namedBits r' = 0#32 := by
  by_cases hall : namedBits r' = 0xFFFFFFFF#32
  · exact reserved_of_whole hall _
  have hne (q : Reg) (hq : namedBits q = 0xFFFFFFFF#32) : r' ≠ q := fun e => hall (e ▸ hq)
  by_cases hr : r' = r
  · subst hr
    have hstores : storesValue r' = true := by
      cases r' with
      | scfg | lpSync | bpCfg | bpLim | h32Cfg | asciiCfg | navCfg0 | navCfg1 => rfl
      | _ => exact absurd rfl hall
    rw [regValue_writeReg_same hstores]
    exact reserved_of_masked v _
  · rw [regValue_writeReg_ne hr (fun _ => hne _ rfl) (fun _ => ⟨hne _ rfl, hne _ rfl, hne _ rfl⟩)]
    exact h r'

theorem hexPair_lt (c : Byte) : (hexPair c).toNat < 2 ^ 16 := by
  have hhi := (hexDigit (c.extractLsb' 0 4)).isLt
  have hlo := (hexDigit (c.extractLsb' 4 4)).isLt
  unfold hexPair
  rw [BitVec.toNat_append, BitVec.toNat_append, BitVec.toNat_ofNat,
    ← Nat.shiftLeft_add_eq_or_of_lt hlo]
  simp only [Nat.shiftLeft_eq, Nat.zero_mod, Nat.zero_mul, Nat.zero_or]
  omega

/-- A navigation id of at most 5 bits (43_nav_validator R126). -/
theorem cbufBits_id_lt (s : State) (p : Nat) {w : Nat} (hw : w ≤ 5) :
    (BitVec.ofNat 32 (cbufBits s p w)).toNat < 32 := by
  have hlt : cbufBits s p w < 2 ^ w := streamBits_lt _ _ _
  have hle : 2 ^ w ≤ 2 ^ 5 := Nat.pow_le_pow_right (by omega) hw
  rw [BitVec.toNat_ofNat]
  omega

theorem registerInv_congr {s t : State} (hcfg : sameConfig s t) (h0 : s.navCfg0 = t.navCfg0)
    (h1 : s.navCfg1 = t.navCfg1) (hckhex : t.ckhex.toNat < 2 ^ 16) (hnavid : t.navid.toNat < 32)
    (h : registerInv s) : registerInv t :=
  ⟨fun r => regValue_reserved_congr hcfg h0 h1 (h.1 r), hckhex, hnavid⟩

theorem Completes.registerInv {s t : State} {i : Instr} (hc : Completes s i t)
    (h : registerInv s) : registerInv t := by
  have ⟨_, hckhex, hnavid⟩ := h
  cases hc with
  | xor8 => exact registerInv_congr (sameConfig_refl s) rfl rfl (hexPair_lt _) hnavid h
  | navsf e legal =>
    have hid := cbufBits_id_lt s (8 * s.arg0.toNat + sfIdOff s) ((navSfLegal_iff s).mp legal).2.1
    exact registerInv_congr (sameConfig_refl s) rfl rfl hckhex hid h
  | navwd e legal =>
    have hid := cbufBits_id_lt s (8 * s.arg0.toNat + wdIdOff s) ((navWdLegal_iff s).mp legal).2.1
    exact registerInv_congr (sameConfig_refl s) rfl rfl hckhex hid h
  | _ => exact registerInv_congr (sameConfig_refl s) rfl rfl hckhex hnavid h

theorem registerInv_keptByAccess : KeptByAccess registerInv where
  pending {s} _ h := registerInv_congr (sameConfig_refl s) rfl rfl h.2.1 h.2.2 h
  readLog {s} _ h := registerInv_congr (sameConfig_refl s) rfl rfl h.2.1 h.2.2 h
  fault {s} _ h := registerInv_congr (sameConfig_refl s) rfl rfl h.2.1 h.2.2 h
  command hc h := hc.registerInv h
  register r v h := ⟨regValue_reserved_writeReg h.1 r v, by simpa using h.2⟩
  window {s} _ _ h := registerInv_congr (sameConfig_refl s) rfl rfl h.2.1 h.2.2 h

theorem reset_registerInv : registerInv State.reset := by
  refine ⟨fun r => ?_, by decide, by decide⟩
  cases r with
  | scfg | lpSync | bpCfg | bpLim | h32Cfg | asciiCfg | navCfg0 | navCfg1 => rfl
  | _ => exact reserved_of_whole rfl _

theorem blockReset_registerInv (s : State) : registerInv (blockReset s) := by
  obtain ⟨hreserved, hrest⟩ := reset_registerInv
  refine ⟨fun r => ?_, hrest⟩
  rw [regValue_blockReset]
  exact hreserved r

/-- Settles O58: a register write clears the reserved bits, and the commands that write CKHEX and NAVID
write two digits and an id. -/
theorem stepKeepsRegisters : Obligations.StepKeepsRegisters := by
  unfold Obligations.StepKeepsRegisters
  exact fun s t h hstep =>
    registerInv_keptByAccess.step hstep (fun _ _ => blockReset_registerInv _) h

end Sys2Proof.Machine
end

section
/-! PROOF. The synchronizer's invariant (10_state R40, 42_frame_synchronizer R102): each step function
keeps the shape of its grammar, so Feed does, and so does every step of the block. -/

namespace Sys2Proof.Machine

/-! ## What a legal configuration gives -/

theorem asciiMaxLen_pos {s : State} (legal : configLegal s = true) (hg : grammar s = .ascii) :
    1 ≤ asciiMaxLen s := by
  simpa [configLegal, hg] using legal

/-- A legal binary grammar has a sync sequence, which its header holds, and a header of more than one
byte (42_frame_synchronizer R96, R101). -/
structure SyncFitsHeader (s : State) (g : BinGrammar) : Prop where
  pos : 0 < (syncSeq s g).length
  le : (syncSeq s g).length ≤ headerLen s g
  two : 2 ≤ headerLen s g

theorem syncFitsHeader {s : State} {g : BinGrammar} (legal : configLegal s = true)
    (hg : grammar s = .binary g) : SyncFitsHeader s g := by
  cases g with
  | lenpfx => constructor <;> simp [syncSeq, headerLen]
  | bitpack => constructor <;> simp [syncSeq, headerLen]
  | hdr32 =>
    simp only [configLegal, hg, binConfigLegal, Bool.and_eq_true, decide_eq_true_eq] at legal
    have hlen : (syncSeq s .hdr32).length = min (h32SyncLen s) 4 := by
      simp [syncSeq, h32SyncBytes]
    constructor <;> simp only [hlen, headerLen] <;> omega

/-! ## Candidates -/

theorem prefix_snoc {xs seq : List Byte} {b : Byte} (h : xs <+: seq)
    (hb : seq[xs.length]? = some b) : xs ++ [b] <+: seq := by
  obtain ⟨rest, rfl⟩ := h
  rw [List.getElem?_append_right (Nat.le_refl _), Nat.sub_self] at hb
  obtain ⟨rest', rfl⟩ : ∃ rest', rest = b :: rest' := by
    cases rest with
    | nil => cases hb
    | cons c rest' => exact ⟨rest', by simpa using hb⟩
  exact ⟨rest', by simp⟩

theorem prefix_singleton {seq : List Byte} {b : Byte} (h : seq.head? = some b) : [b] <+: seq :=
  prefix_snoc List.nil_prefix (List.head?_eq_getElem? ▸ h)

theorem prefix_snoc_right {xs seq : List Byte} (b : Byte) (h : seq <+: xs) : seq <+: xs ++ [b] :=
  h.trans (List.prefix_append xs [b])

theorem asciiCandidate_snoc {s : State} {bytes : List Byte} (b : Byte) (h : asciiCandidate s bytes)
    (hlen : bytes.length + 1 ≤ asciiMaxLen s) : asciiCandidate s (bytes ++ [b]) := by
  obtain ⟨⟨c, rest, rfl, hmarker⟩, _⟩ := h
  exact ⟨⟨c, rest ++ [b], rfl, hmarker⟩, by simpa using hlen⟩

/-! ## The shape between frames -/

theorem asciiShape_seeking (s : State) (garb : Word) :
    asciiShape s { syncResetState with sstate := .seekingSync, garb := garb } :=
  ⟨rfl, rfl, rfl⟩

theorem binShape_seeking {s : State} {g : BinGrammar} (pos : 0 < (syncSeq s g).length) (garb : Word) :
    binShape s g { syncResetState with sstate := .seekingSync, garb := garb } :=
  ⟨rfl, List.nil_prefix, pos, rfl⟩

theorem syncShape_reset (s : State) : syncShape s syncResetState := by
  unfold syncShape
  split
  · exact ⟨rfl, rfl, rfl, rfl⟩
  · exact ⟨rfl, rfl, rfl, rfl⟩

/-! ## ASCII sentences -/

theorem asciiHunt_shape {s : State} {y : Sync} (b : Byte) (hmax : 1 ≤ asciiMaxLen s)
    (hplen : y.plen = none) (hstar : y.star = none) (hfbuf : y.fbuf = []) :
    asciiShape s (asciiHunt s y b).sync := by
  unfold asciiHunt
  split
  · next hm => exact ⟨hplen, ⟨⟨b, [], rfl, hm⟩, hmax⟩, hstar⟩
  · exact ⟨hplen, hfbuf, hstar⟩

theorem asciiBody_shape {s : State} {y : Sync} (b : Byte) (hstate : y.sstate = .accumulatingBody)
    (hplen : y.plen = none) (hstar : y.star = none) (hcand : asciiCandidate s y.fbuf) :
    asciiShape s (asciiBody s y b).sync := by
  unfold asciiBody
  split_ifs with hend hm hlong hb
  · exact ⟨rfl, rfl, rfl, rfl⟩
  · exact asciiShape_seeking s _
  · exact asciiShape_seeking s _
  · have hpos : 1 ≤ y.fbuf.length := by
      obtain ⟨⟨c, rest, e, _⟩, _⟩ := hcand
      simp [e]
    exact ⟨hplen, asciiCandidate_snoc b hcand (by omega), y.fbuf.length, rfl, hpos, by simp, by simp,
      by simp [hb], by simp⟩
  · simp only [asciiShape, keepGoing_sync, hstate]
    exact ⟨hplen, asciiCandidate_snoc b hcand (by omega), hstar⟩

theorem asciiChecksum_shape {s : State} {y : Sync} (b : Byte) (hstate : y.sstate = .awaitingChecksum)
    (h : asciiShape s y) : asciiShape s (asciiChecksum s y b).sync := by
  simp only [asciiShape, hstate] at h
  obtain ⟨hplen, hcand, star, hstar, hpos, hlt, hle, hat, hhex⟩ := h
  unfold asciiChecksum
  split_ifs with hb hlong
  · exact asciiShape_seeking s _
  · exact asciiShape_seeking s _
  · simp only [asciiDigit, hstar]
    split_ifs with hlast hsum
    · exact ⟨rfl, rfl, rfl, rfl⟩
    · exact asciiShape_seeking s _
    · have hdigits : ∀ c ∈ (y.fbuf ++ [b]).drop (star + 1), (hexVal c).isSome = true := by
        rw [List.drop_append_of_le_length (by omega)]
        intro c hc
        rcases List.mem_append.mp hc with hc | hc
        · exact hhex c hc
        · rw [List.mem_singleton.mp hc]
          simpa [Option.isSome_iff_ne_none] using hb
      simp only [asciiShape, keepGoing_sync, hstate]
      simp only [List.length_append, List.length_singleton] at hlast ⊢
      exact ⟨hplen, asciiCandidate_snoc b hcand (by omega), star, rfl, hpos, by omega, by omega,
        by rw [List.getElem?_append_left hlt]; exact hat, hdigits⟩

theorem stepAscii_shape {s : State} {y : Sync} (b : Byte) (hmax : 1 ≤ asciiMaxLen s)
    (h : asciiShape s y) : asciiShape s (stepAscii s y b).sync := by
  unfold stepAscii
  split
  case h_1 hstate | h_2 hstate =>
    simp only [asciiShape, hstate] at h
    exact asciiHunt_shape b hmax h.1 (by tauto) (by tauto)
  case h_3 hstate => simp [asciiShape, hstate] at h
  case h_4 hstate =>
    simp only [asciiShape, hstate] at h
    obtain ⟨hplen, hcand, hstar⟩ := h
    exact asciiBody_shape b hstate hplen hstar hcand
  case h_5 hstate => exact asciiChecksum_shape b hstate h

/-! ## Binary frames -/

theorem trailerLen_pos (g : BinGrammar) : 0 < trailerLen g := by
  cases g <;> decide

theorem headerAccepted_fits {s : State} {g : BinGrammar} {bytes : List Byte}
    (h : headerAccepted s g bytes = true) :
    headerLen s g + headerPayloadLen s g bytes + trailerLen g ≤ s.impl.fbufCap := by
  simp only [headerAccepted, Bool.and_eq_true, decide_eq_true_eq] at h
  exact h.2

/-- An accepted header is at its end, and its whole frame fits in FBUF. -/
theorem headerDone_shape {s : State} {g : BinGrammar} {y : Sync} {bytes : List Byte}
    (pos : 0 < (syncSeq s g).length) (hstar : y.star = none) (hsync : syncSeq s g <+: bytes)
    (hlen : bytes.length = headerLen s g) : binShape s g (headerDone s g y bytes).sync := by
  unfold headerDone
  split_ifs with hacc hzero
  · have htrailer : headerLen s g + headerPayloadLen s g bytes ≤ bytes.length ∧
        bytes.length < headerLen s g + headerPayloadLen s g bytes + trailerLen g := by
      have := trailerLen_pos g
      omega
    exact ⟨hstar, hsync, _, rfl, htrailer.1, htrailer.2, headerAccepted_fits hacc⟩
  · have hbody : bytes.length < headerLen s g + headerPayloadLen s g bytes := by omega
    exact ⟨hstar, hsync, _, rfl, hlen.ge, hbody, headerAccepted_fits hacc⟩
  · exact binShape_seeking pos _

/-- The hunt with a part of the sync sequence held. -/
theorem binHunt_shape {s : State} {g : BinGrammar} {y : Sync} (b : Byte) (fit : SyncFitsHeader s g)
    (hstate : y.fbuf ≠ [] → y.sstate = .seekingSync) (hstar : y.star = none) (hplen : y.plen = none)
    (hprefix : y.fbuf <+: syncSeq s g) : binShape s g (binHunt s g y b).sync := by
  obtain ⟨hpos, hle, htwo⟩ := fit
  unfold binHunt
  split_ifs with hnil hhead hone hnext hlast hheader
  · have hseq := prefix_singleton hhead
    exact ⟨hstar, (hseq.eq_of_length hone.symm) ▸ List.prefix_rfl, htwo, hplen⟩
  · have hlong : 1 < (syncSeq s g).length := by omega
    exact ⟨hstar, prefix_singleton hhead, hlong, hplen⟩
  · have hempty : y.fbuf.length < (syncSeq s g).length := by rwa [hnil]
    exact ⟨hstar, hprefix, hempty, hplen⟩
  · have heq := (prefix_snoc hprefix hnext).eq_of_length (by simpa using hlast)
    exact headerDone_shape hpos hstar (heq ▸ List.prefix_rfl) (by simpa using hheader)
  · have heq := (prefix_snoc hprefix hnext).eq_of_length (by simpa using hlast)
    have hshort : (y.fbuf ++ [b]).length < headerLen s g := by
      rw [List.length_append, List.length_singleton]
      omega
    exact ⟨hstar, heq ▸ List.prefix_rfl, hshort, hplen⟩
  · have hseq := prefix_snoc hprefix hnext
    have hshort := hseq.length_le
    simp only [binShape, keepGoing_sync, hstate hnil, List.length_append,
      List.length_singleton] at hshort ⊢
    exact ⟨hstar, hseq, by omega, hplen⟩
  · exact binShape_seeking hpos _

theorem binHeader_shape {s : State} {g : BinGrammar} {y : Sync} (b : Byte) (fit : SyncFitsHeader s g)
    (hstate : y.sstate = .accumulatingLength) (h : binShape s g y) :
    binShape s g (binHeader s g y b).sync := by
  simp only [binShape, hstate] at h
  obtain ⟨hstar, hsync, hlen, hplen⟩ := h
  have hsync' := prefix_snoc_right b hsync
  unfold binHeader
  split_ifs with hlast
  · exact headerDone_shape fit.pos hstar hsync' (by simpa using hlast)
  · simp only [binShape, keepGoing_sync, hstate, List.length_append, List.length_singleton]
    exact ⟨hstar, hsync', by omega, hplen⟩

theorem binBody_shape {s : State} {g : BinGrammar} {y : Sync} (b : Byte)
    (hstate : y.sstate = .accumulatingBody) (h : binShape s g y) :
    binShape s g (binBody s g y b).sync := by
  simp only [binShape, hstate] at h
  obtain ⟨hstar, hsync, l, hplen, hge, hlt, hcap⟩ := h
  have hsync' := prefix_snoc_right b hsync
  have htrailer := trailerLen_pos g
  unfold binBody
  simp only [hplen, Option.map_some, Option.some.injEq]
  split_ifs with hlast
  · simp only [binShape, keepGoing_sync, List.length_append, List.length_singleton]
    exact ⟨hstar, hsync', l, rfl, by omega, by omega, hcap⟩
  · simp only [binShape, keepGoing_sync, hstate, List.length_append, List.length_singleton]
    exact ⟨hstar, hsync', l, rfl, by omega, by omega, hcap⟩

theorem binTrailer_shape {s : State} {g : BinGrammar} {y : Sync} (b : Byte)
    (pos : 0 < (syncSeq s g).length) (hstate : y.sstate = .awaitingChecksum) (h : binShape s g y) :
    binShape s g (binTrailer s g y b).sync := by
  simp only [binShape, hstate] at h
  obtain ⟨hstar, hsync, l, hplen, hge, hlt, hcap⟩ := h
  simp only [binTrailer, hplen, checkDone]
  split_ifs with hlast hholds
  · exact ⟨rfl, rfl, rfl, rfl⟩
  · exact binShape_seeking pos _
  · simp only [binShape, keepGoing_sync, hstate, List.length_append, List.length_singleton]
    exact ⟨hstar, prefix_snoc_right b hsync, l, rfl, by omega, by omega, hcap⟩

theorem stepBin_shape {s : State} {g : BinGrammar} {y : Sync} (b : Byte) (fit : SyncFitsHeader s g)
    (h : binShape s g y) : binShape s g (stepBin s g y b).sync := by
  unfold stepBin
  split
  case h_1 hstate =>
    simp only [binShape, hstate] at h
    obtain ⟨hstar, hfbuf, hplen, _⟩ := h
    exact binHunt_shape b fit (absurd hfbuf) hstar hplen (hfbuf ▸ List.nil_prefix)
  case h_2 hstate =>
    have h' := h
    simp only [binShape, hstate] at h'
    obtain ⟨hstar, hprefix, _, hplen⟩ := h'
    exact binHunt_shape b fit (fun _ => hstate) hstar hplen hprefix
  case h_3 hstate => exact binHeader_shape b fit hstate h
  case h_4 hstate => exact binBody_shape b hstate h
  case h_5 hstate => exact binTrailer_shape b fit.pos hstate h

/-! ## Feed -/

theorem syncStep_shape {s : State} {y : Sync} (b : Byte) (legal : configLegal s = true)
    (h : syncShape s y) : syncShape s (syncStep s y b).sync := by
  unfold syncShape syncStep at *
  cases hg : grammar s with
  | ascii =>
    simp only [hg] at h ⊢
    exact stepAscii_shape b (asciiMaxLen_pos legal hg) h
  | binary g =>
    simp only [hg] at h ⊢
    exact stepBin_shape b (syncFitsHeader legal hg) h

/-- What every step of the synchronizer keeps, the loop keeps. -/
theorem feedLoop_keeps {s : State} {P : Sync → Prop} (hstep : ∀ y b, P y → P (syncStep s y b).sync) :
    ∀ (n : Nat) {queue : List Byte} {y : Sync} {events : List Event} {r : Sync × List Event},
      P y → feedLoop s n queue y events = some r → P r.1
  | n, [], y, events, r, hy, h => by
    have : (y, events) = r := by cases n <;> simpa [feedLoop] using h
    exact this ▸ hy
  | 0, _ :: _, _, _, _, _, h => by simp [feedLoop] at h
  | n + 1, c :: queue, y, events, r, hy, h => by
    rw [feedLoop] at h
    exact feedLoop_keeps hstep n (hstep y c hy) h

/-- What every step of the synchronizer keeps, the feed of a byte sequence keeps. -/
theorem feedAll_keeps {s : State} {P : Sync → Prop} (hstep : ∀ y b, P y → P (syncStep s y b).sync) :
    ∀ {bytes : List Byte} {y : Sync} {r : Sync × List Event},
      P y → feedAll s bytes y = some r → P r.1
  | [], y, r, hy, h => by
    cases h
    exact hy
  | b :: bs, y, r, hy, h => by
    obtain ⟨u, hu⟩ := Option.isSome_iff_exists.mp (feed_isSome s y b)
    simp only [feedAll, hu, Option.map_eq_some_iff] at h
    obtain ⟨v, hv, rfl⟩ := h
    exact feedAll_keeps hstep (r := v) (feedLoop_keeps hstep _ hy hu) hv

/-! ## FBUF_CAP -/

/-- No candidate of the invariant's shape is longer than the least FBUF_CAP, or its own frame. -/
theorem syncShape_length_le {s : State} {y : Sync} (himpl : implLegal s.impl)
    (legal : configLegal s = true) (h : syncShape s y) : y.fbuf.length ≤ s.impl.fbufCap := by
  obtain ⟨_, _, hcap⟩ := himpl
  unfold syncShape at h
  cases hg : grammar s with
  | ascii =>
    have hmax : asciiMaxLen s < 2 ^ 16 := (s.asciiCfg.extractLsb' 0 16).isLt
    simp only [hg, asciiShape, asciiCandidate] at h
    cases hstate : y.sstate <;> simp only [hstate] at h
    case idle | seekingSync => simp [h]
    case accumulatingLength => exact h.2.elim
    case accumulatingBody | awaitingChecksum => omega
  | binary g =>
    have hheader : headerLen s g < 256 := by
      cases g with
      | lenpfx | bitpack => simp [headerLen]
      | hdr32 => exact (s.h32Cfg.extractLsb' 8 8).isLt
    have hle := (syncFitsHeader legal hg).le
    simp only [hg, binShape] at h
    cases hstate : y.sstate <;> simp only [hstate] at h
    case idle => simp [h]
    case seekingSync | accumulatingLength => omega
    case accumulatingBody | awaitingChecksum =>
      obtain ⟨_, _, l, _, _, _, _⟩ := h
      omega

/-! ## The step -/

theorem syncShape_congr {s t : State} (h : sameConfig s t) (y : Sync) :
    syncShape s y ↔ syncShape t y := by
  cases s
  cases t
  obtain ⟨h1, h2, h3, h4, h5, h6, h7, h8, h9, h10, h11⟩ := h
  simp only at h1 h2 h3 h4 h5 h6 h7 h8 h9 h10 h11
  subst h1 h2 h3 h4 h5 h6 h7 h8 h9 h10 h11
  rfl

theorem syncInv_congr {s t : State} (hcfg : sameConfig s t) (hsync : t.sync = s.sync)
    (h : syncInv s) : syncInv t := by
  unfold syncInv at h ⊢
  rwa [hsync, ← configLegal_congr hcfg, ← syncShape_congr hcfg]

theorem syncInv_of_reset {s : State} (h : s.sync = syncResetState) : syncInv s :=
  ⟨fun _ => h ▸ syncShape_reset s, fun _ => h⟩

/-- Bytes fed under a legal configuration. -/
theorem syncInv_fed {s : State} {bytes : List Byte} {r : Sync × List Event} (h : syncInv s)
    (legal : configLegal s = true) (fed : feedAll s bytes s.sync = some r) (events : List Event) :
    syncInv { s with sync := r.1, evout := events, lastErr := .none } := by
  have hshape : syncShape s r.1 :=
    feedAll_keeps (fun y b => syncStep_shape b legal) (h.1 legal) fed
  refine ⟨fun _ => (syncShape_congr (sameConfig_refl s) _).mp hshape, fun hillegal => ?_⟩
  have : configLegal s = false := hillegal
  simp [legal] at this

theorem syncInv_keptByAccess : KeptByAccess syncInv where
  pending {s} _ h := syncInv_congr (sameConfig_refl s) rfl h
  readLog {s} _ h := syncInv_congr (sameConfig_refl s) rfl h
  fault {s} _ h := syncInv_congr (sameConfig_refl s) rfl h
  command {s} _ _ hc h := by
    cases hc with
    | push b r legal fed => exact syncInv_fed h legal fed _
    | pushn r legal fed => exact syncInv_fed h legal fed _
    | sreset => exact syncInv_of_reset rfl
    | _ => exact syncInv_congr (sameConfig_refl s) rfl h
  register r v h := by
    cases hr : isSyncConfig r with
    | true => exact syncInv_of_reset (by rw [writeReg_sync, hr]; rfl)
    | false => exact syncInv_congr (writeReg_sameConfig hr v _) (by rw [writeReg_sync, hr]; rfl) h
  window {s} _ _ h := syncInv_congr (sameConfig_refl s) rfl h

theorem syncInv_length_le {s : State} (himpl : implLegal s.impl) (h : syncInv s) :
    s.sync.fbuf.length ≤ s.impl.fbufCap := by
  cases legal : configLegal s with
  | true => exact syncShape_length_le himpl legal (h.1 legal)
  | false =>
    rw [h.2 legal]
    exact Nat.zero_le _

/-- Settles O59: Feed keeps the shape of the selected grammar, and a configuration write resets the
synchronizer. -/
theorem stepKeepsSynchronizer : Obligations.StepKeepsSynchronizer := by
  unfold Obligations.StepKeepsSynchronizer
  intro s t himpl hs hstep
  have ht := syncInv_keptByAccess.step hstep (fun _ _ => syncInv_of_reset rfl) hs
  exact ⟨ht, syncInv_length_le (step_impl hstep ▸ himpl) ht⟩

/-! ## Reset -/

/-- Settles O56: every invariant holds of the empty buffer, stream and synchronizer. -/
theorem resetMeetsInvariants : Obligations.ResetMeetsInvariants := by
  unfold Obligations.ResetMeetsInvariants
  exact ⟨⟨by decide, by decide, by decide⟩, ⟨rfl, rfl⟩, ⟨Nat.zero_le _, Nat.zero_le _⟩, reset_registerInv,
    syncInv_of_reset rfl, fun _ => nofun⟩

end Sys2Proof.Machine
end

section
/-! PROOF. The synchronizer's configuration: its fields by the bit positions of 10_state R31, and the
legality of 42_frame_synchronizer R101. -/

namespace Sys2Proof.Machine

/-! ## Fields of a register word -/

/-- The field of `n` bits from bit `i`. -/
theorem extractLsb'_toNat (w : Word) (i n : Nat) :
    (w.extractLsb' i n).toNat = w.toNat / 2 ^ i % 2 ^ n := by
  rw [BitVec.extractLsb'_toNat, Nat.shiftRight_eq_div_pow]

/-- The field of `n` bits from bit 0. -/
theorem extractLsb'_zero_toNat (w : Word) (n : Nat) :
    (w.extractLsb' 0 n).toNat = w.toNat % 2 ^ n := by
  rw [extractLsb'_toNat, Nat.pow_zero, Nat.div_one]

/-- A field up to bit 31. -/
theorem extractLsb'_top_toNat (w : Word) {i n : Nat} (h : i + n = 32) :
    (w.extractLsb' i n).toNat = w.toNat / 2 ^ i := by
  rw [extractLsb'_toNat]
  refine Nat.mod_eq_of_lt (Nat.div_lt_of_lt_mul ?_)
  rw [← Nat.pow_add, h]
  exact w.isLt

/-! ## The fields of 10_state R31 -/

theorem grammar_eq (s : State) : grammar s = match s.scfg.toNat % 4 with
    | 0 => .ascii
    | 1 => .binary .lenpfx
    | 2 => .binary .bitpack
    | _ => .binary .hdr32 := by
  unfold grammar
  rw [extractLsb'_zero_toNat] <;> rfl

theorem asciiMaxLen_eq (s : State) : asciiMaxLen s = s.asciiCfg.toNat % 2 ^ 16 :=
  extractLsb'_zero_toNat _ _

theorem lpMin_eq (s : State) : lpMin s = s.lpLim.toNat % 2 ^ 16 := extractLsb'_zero_toNat _ _

theorem lpMax_eq (s : State) : lpMax s = s.lpLim.toNat / 2 ^ 16 := extractLsb'_top_toNat _ rfl

theorem bpTypeBits_eq (s : State) : bpTypeBits s = s.bpCfg.toNat / 2 ^ 16 % 2 ^ 6 :=
  extractLsb'_toNat _ _ _

theorem bpMin_eq (s : State) : bpMin s = s.bpLim.toNat % 2 ^ 10 := extractLsb'_zero_toNat _ _

theorem bpMax_eq (s : State) : bpMax s = s.bpLim.toNat / 2 ^ 16 % 2 ^ 10 := extractLsb'_toNat _ _ _

theorem h32SyncLen_eq (s : State) : h32SyncLen s = s.h32Cfg.toNat % 2 ^ 3 := extractLsb'_zero_toNat _ _

theorem h32HdrLen_eq (s : State) : h32HdrLen s = s.h32Cfg.toNat / 2 ^ 8 % 2 ^ 8 :=
  extractLsb'_toNat _ _ _

theorem h32LenOff_eq (s : State) : h32LenOff s = s.h32Cfg.toNat / 2 ^ 16 % 2 ^ 8 :=
  extractLsb'_toNat _ _ _

theorem h32IdOff_eq (s : State) : h32IdOff s = s.h32Cfg.toNat / 2 ^ 24 := extractLsb'_top_toNat _ rfl

theorem h32Min_eq (s : State) : h32Min s = s.h32Lim.toNat % 2 ^ 16 := extractLsb'_zero_toNat _ _

theorem h32Max_eq (s : State) : h32Max s = s.h32Lim.toNat / 2 ^ 16 := extractLsb'_top_toNat _ rfl

theorem h32SyncBytes_toNat (s : State) : (h32SyncBytes s).map BitVec.toNat =
    [s.h32Sync.toNat % 2 ^ 8, s.h32Sync.toNat / 2 ^ 8 % 2 ^ 8, s.h32Sync.toNat / 2 ^ 16 % 2 ^ 8,
      s.h32Sync.toNat / 2 ^ 24] := by
  simp only [h32SyncBytes, List.map_cons, List.map_nil, extractLsb'_zero_toNat,
    extractLsb'_toNat _ 8, extractLsb'_toNat _ 16, extractLsb'_top_toNat _ (i := 24) (n := 8) rfl]

/-- The fields are those of R31, and the grammar constants those of R96. -/
theorem fields_as_tabled (s : State) : fieldsAsTabled s := by
  refine ⟨grammar_eq s, rfl, ?lenpfxSync, lpMin_eq s, lpMax_eq s, ?bitpackSync, rfl, bpTypeBits_eq s,
    bpMin_eq s, bpMax_eq s, ?hdr32Sync, h32LenOff_eq s, h32IdOff_eq s, h32Min_eq s, h32Max_eq s, rfl,
    rfl, h32HdrLen_eq s, rfl, rfl, rfl, asciiMaxLen_eq s⟩
  case lenpfxSync =>
    simp only [syncSeq, lpS0, lpS1, List.map_cons, List.map_nil, extractLsb'_zero_toNat,
      extractLsb'_toNat _ 8]
  case bitpackSync =>
    simp only [syncSeq, bpPre, List.map_cons, List.map_nil, extractLsb'_zero_toNat]
  case hdr32Sync =>
    rw [syncSeq, List.map_take, h32SyncBytes_toNat, h32SyncLen_eq]

/-! ## Legality -/

/-- ConfigLegal() is R101's conditions on the register words. -/
theorem configLegal_iff (s : State) : configLegal s = true ↔ legalConfiguration s := by
  have hlt : s.scfg.toNat % 4 < 4 := Nat.mod_lt _ (by decide)
  unfold configLegal legalConfiguration
  rw [grammar_eq]
  generalize s.scfg.toNat % 4 = n at hlt ⊢
  match n, hlt with
  | 0, _ => simp only [decide_eq_true_eq, asciiMaxLen_eq]
  | 1, _ => simp only [binConfigLegal, decide_eq_true_eq, lpMin_eq, lpMax_eq]
  | 2, _ =>
    simp only [binConfigLegal, Bool.and_eq_true, decide_eq_true_eq, bpMin_eq, bpMax_eq, bpTypeBits_eq]
  | 3, _ =>
    simp only [binConfigLegal, Bool.and_eq_true, decide_eq_true_eq, h32SyncLen_eq, h32HdrLen_eq,
      h32LenOff_eq, h32IdOff_eq, h32Min_eq, h32Max_eq, Nat.reducePow, and_assoc]

/-- Settles O31: the conditions grammar by grammar, each field by its bit position. -/
theorem configurationChecked : Obligations.ConfigurationChecked := by
  unfold Obligations.ConfigurationChecked
  intro s
  refine ⟨configLegal_iff s, fun hillegal => ?illegal, fun hlegal hg => ?header, fields_as_tabled s⟩
  case illegal =>
    have hfalse : configLegal s = false :=
      Bool.eq_false_iff.mpr (mt (configLegal_iff s).mp hillegal)
    exact ⟨fun b => by simp [exec, execPush, hfalse, raise_eq],
      by simp [exec, execPushn, hfalse, raise_eq]⟩
  case header =>
    have hgrammar : grammar s = .binary .hdr32 := by simp only [grammar_eq, hg]
    have fit := syncFitsHeader ((configLegal_iff s).mpr hlegal) hgrammar
    exact h32HdrLen_eq s ▸ fit.two

end Sys2Proof.Machine
end

section
/-! PROOF. The CBUF window (20_memory R45): one rule for a byte of the window after a byte is
written, and from it both widths and both directions. -/

namespace Sys2Proof.Machine

/-! ## One byte written -/

theorem writeWindowByte_wf {s : State} (hwf : s.cbuf.wf = true) (i : Nat) (v : Byte) :
    (writeWindowByte i v s).cbuf.wf = true := by
  rw [writeWindowByte_cbuf]
  split
  · exact s.cbuf.wf_write i v hwf
  · exact hwf

theorem read_writeWindowByte_same {s : State} (hwf : s.cbuf.wf = true) {i : Nat}
    (hi : i < s.impl.cbufCap) (v : Byte) : (writeWindowByte i v s).cbuf.read i = v := by
  rw [writeWindowByte_cbuf, if_pos hi, s.cbuf.read_write_same i v hwf]

theorem read_writeWindowByte_ne {i a : Nat} (h : a ≠ i) (v : Byte) (s : State) :
    (writeWindowByte i v s).cbuf.read a = s.cbuf.read a := by
  rw [writeWindowByte_cbuf]
  split
  · exact s.cbuf.read_write_ne v h
  · rfl

theorem windowByte_writeWindowByte_same {s : State} (hwf : s.cbuf.wf = true) {i : Nat}
    (hi : i < s.impl.cbufCap) (v : Byte) : windowByte (writeWindowByte i v s) i = v := by
  rw [windowByte, writeWindowByte_impl, if_pos hi, read_writeWindowByte_same hwf hi]

theorem windowByte_writeWindowByte_ne {i j : Nat} (h : j ≠ i) (v : Byte) (s : State) :
    windowByte (writeWindowByte i v s) j = windowByte s j := by
  rw [windowByte, windowByte, writeWindowByte_impl, read_writeWindowByte_ne h]

theorem writeWindowByte_onlyCbuf {s u : State} (h : ∃ m, u = { s with cbuf := m }) (i : Nat)
    (v : Byte) : ∃ m, writeWindowByte i v u = { s with cbuf := m } := by
  obtain ⟨m, rfl⟩ := h
  exact ⟨_, rfl⟩

/-- A byte write, seen from the port: it reads back. -/
theorem portValue_portWrite_cbufByte {s : State} (hwf : s.cbuf.wf = true) {i : Nat}
    (hi : i < s.impl.cbufCap) (v : Word) :
    portValue (portWrite (.cbufByte i) v s) (.cbufByte i) = (v.extractLsb' 0 8).setWidth 32 :=
  congrArg (BitVec.setWidth 32) (windowByte_writeWindowByte_same hwf hi _)

/-! ## Four bytes written -/

/-- The window with the bytes `c 0` to `c 3` written at `i` to `i + 3`, the lowest index first. -/
def writeFourBytes (i : Nat) (c : Nat → Byte) (s : State) : State :=
  writeWindowByte (i + 3) (c 3) (writeWindowByte (i + 2) (c 2)
    (writeWindowByte (i + 1) (c 1) (writeWindowByte i (c 0) s)))

theorem portWrite_cbufWord (i : Nat) (v : Word) (s : State) :
    portWrite (.cbufWord i) v s = writeFourBytes i (fun k => v.extractLsb' (8 * k) 8) s := rfl

@[simp] theorem writeFourBytes_impl (i : Nat) (c : Nat → Byte) (s : State) :
    (writeFourBytes i c s).impl = s.impl := by
  simp only [writeFourBytes, writeWindowByte_impl]

theorem writeFourBytes_wf {s : State} (hwf : s.cbuf.wf = true) (i : Nat) (c : Nat → Byte) :
    (writeFourBytes i c s).cbuf.wf = true :=
  writeWindowByte_wf (writeWindowByte_wf (writeWindowByte_wf (writeWindowByte_wf hwf _ _) _ _) _ _)
    _ _

theorem read_writeFourBytes_outside {i a : Nat} (h : a < i ∨ i + 4 ≤ a) (c : Nat → Byte)
    (s : State) : (writeFourBytes i c s).cbuf.read a = s.cbuf.read a := by
  rw [writeFourBytes, read_writeWindowByte_ne (by omega), read_writeWindowByte_ne (by omega),
    read_writeWindowByte_ne (by omega), read_writeWindowByte_ne (by omega)]

theorem writeFourBytes_onlyCbuf (i : Nat) (c : Nat → Byte) (s : State) :
    writeFourBytes i c s = { s with cbuf := (writeFourBytes i c s).cbuf } := by
  obtain ⟨m, hm⟩ : ∃ m, writeFourBytes i c s = { s with cbuf := m } :=
    writeWindowByte_onlyCbuf (writeWindowByte_onlyCbuf (writeWindowByte_onlyCbuf
      (writeWindowByte_onlyCbuf ⟨s.cbuf, rfl⟩ _ _) _ _) _ _) _ _
  rw [hm]

/-- Each of the four bytes is in the window: the later writes are at other indices. -/
theorem windowByte_writeFourBytes {s : State} (hwf : s.cbuf.wf = true) {i : Nat}
    (hi : i + 3 < s.impl.cbufCap) (c : Nat → Byte) {k : Nat} (hk : k < 4) :
    windowByte (writeFourBytes i c s) (i + k) = c k := by
  have hwf0 := writeWindowByte_wf hwf i (c 0)
  have hwf1 := writeWindowByte_wf hwf0 (i + 1) (c 1)
  have hwf2 := writeWindowByte_wf hwf1 (i + 2) (c 2)
  unfold writeFourBytes
  match k, hk with
  | 3, _ => exact windowByte_writeWindowByte_same hwf2 hi _
  | 2, _ =>
    rw [windowByte_writeWindowByte_ne (by omega)]
    exact windowByte_writeWindowByte_same hwf1 (Nat.lt_of_succ_lt hi) _
  | 1, _ =>
    rw [windowByte_writeWindowByte_ne (by omega), windowByte_writeWindowByte_ne (by omega)]
    exact windowByte_writeWindowByte_same hwf0 (by rw [writeWindowByte_impl]; omega) _
  | 0, _ =>
    rw [windowByte_writeWindowByte_ne (by omega), windowByte_writeWindowByte_ne (by omega),
      windowByte_writeWindowByte_ne (by omega)]
    exact windowByte_writeWindowByte_same hwf (by omega) _

theorem portValue_cbufWord_writeFourBytes {s : State} (hwf : s.cbuf.wf = true) {i : Nat}
    (hi : i + 3 < s.impl.cbufCap) (c : Nat → Byte) :
    portValue (writeFourBytes i c s) (.cbufWord i) = c 3 ++ c 2 ++ c 1 ++ c 0 := by
  have byteAt {k : Nat} (hk : k < 4) := windowByte_writeFourBytes hwf hi c hk
  rw [portValue, byteAt (k := 3) (by decide), byteAt (k := 2) (by decide),
    byteAt (k := 1) (by decide), show windowByte _ i = c 0 from byteAt (k := 0) (by decide)]

theorem append_bytes_of_word (v : Word) : v.extractLsb' 24 8 ++ v.extractLsb' 16 8 ++
    v.extractLsb' 8 8 ++ v.extractLsb' 0 8 = v := by
  rw [BitVec.extractLsb'_append_extractLsb'_eq_extractLsb' (by rfl),
    BitVec.extractLsb'_append_extractLsb'_eq_extractLsb' (by rfl),
    BitVec.extractLsb'_append_extractLsb'_eq_extractLsb' (by rfl)]
  exact BitVec.extractLsb'_eq_self

/-! ## The window -/

/-- Settles O54: both widths write through the one byte rule, the word as its four bytes. -/
theorem windowIsLittleEndian : Obligations.WindowIsLittleEndian := by
  unfold Obligations.WindowIsLittleEndian
  intro s i v hwf
  refine ⟨fun hi => ?word, fun hi => ?byte⟩
  case byte =>
    exact ⟨read_writeWindowByte_same hwf hi _, fun a ha => read_writeWindowByte_ne ha _ s, rfl⟩
  case word =>
    dsimp only
    rw [portWrite_cbufWord]
    refine ⟨fun k hk => ?bytesRead, ?wordRead, fun a ha => read_writeFourBytes_outside ha _ s,
      fun k b hk => ?byteWritten, writeFourBytes_onlyCbuf i _ s, fun b0 b1 b2 b3 => ?bytesWritten⟩
    case bytesRead => exact congrArg (BitVec.setWidth 32) (windowByte_writeFourBytes hwf hi _ hk)
    case wordRead => rw [portValue_cbufWord_writeFourBytes hwf hi]; exact append_bytes_of_word v
    case byteWritten =>
      exact portValue_portWrite_cbufByte (writeFourBytes_wf hwf i _)
        (by rw [writeFourBytes_impl]; omega) b
    case bytesWritten =>
      exact portValue_cbufWord_writeFourBytes hwf hi
        (fun k => ([b0, b1, b2, b3].getD k 0#32).extractLsb' 0 8)

end Sys2Proof.Machine
end

section
/-! PROOF. The encoding (30_encoding): the decoder and the encoder undo each other, and the clauses of
R65 are what the opcode map leaves out. A word is taken apart by its three fields, a command by the row
of its opcode. -/

namespace Sys2Proof.Machine

/-! ## The fields of an encoded command -/

theorem opField_encode (i : Instr) : opField (encode i) = i.opcode := opField_append _ _ _

theorem immField_encode (i : Instr) : immField (encode i) = i.imm8 := immField_append _ _ _

theorem rsvField_encode (i : Instr) : rsvField (encode i) = 0#16 := rsvField_append _ _ _

/-- The fields of 30_encoding R61 as the digits of the word's value. -/
theorem toNat_eq_fields (w : Word) : w.toNat =
    (opField w).toNat * 2 ^ 24 + (immField w).toNat * 2 ^ 16 + (rsvField w).toNat := by
  rw [opField_toNat, immField_toNat, rsvField_toNat]
  omega

theorem encode_toNat (i : Instr) :
    (encode i).toNat = i.opcode.toNat * 2 ^ 24 + i.imm8.toNat * 2 ^ 16 := by
  rw [toNat_eq_fields, opField_encode, immField_encode, rsvField_encode, BitVec.toNat_zero,
    Nat.add_zero]

/-! ## The row of an opcode -/

/-- The search by opcode finds every row: none hides behind another of its opcode. -/
theorem opRows_find_of_mem {r : OpRow} (hr : r ∈ opRows) :
    opRows.find? (fun r' => r'.op == r.op) = some r := by
  cases hfind : opRows.find? (fun r' => r'.op == r.op) with
  | none => exact absurd (List.find?_eq_none.mp hfind r hr) (by simp)
  | some r' =>
    have hop : r'.op = r.op := by simpa using List.find?_some hfind
    exact congrArg some
      (List.inj_on_of_nodup_map opRows_distinct (List.mem_of_find?_eq_some hfind) hr hop)

/-- The converse of `decode_ok_cases`: a word whose row admits its IMM8 decodes to what the row builds. -/
theorem decode_of_row {w : Word} {r : OpRow} (hr : r ∈ opRows) (hop : r.op = opField w)
    (hadmits : r.admits (immField w) = true) (hrsv : rsvField w = 0#16) :
    decode w = .ok (r.build (immField w)) := by
  simp [decode, hrsv, ← hop, opRows_find_of_mem hr, hadmits]

/-- Settles O1: the row of the command's opcode reads the fields back. -/
theorem decodeOfEncode : Obligations.DecodeOfEncode := by
  unfold Obligations.DecodeOfEncode
  intro i hwf
  obtain ⟨r, hfind, hadmits, hbuild⟩ := opRows_find_opcode i
  have hop : r.op = opField (encode i) := by
    simpa [opField_encode] using List.find?_some hfind
  rw [decode_of_row (List.mem_of_find?_eq_some hfind) hop
    (by rw [immField_encode, hadmits, hwf]) (rsvField_encode i), immField_encode, hbuild]

/-- Settles O2: what a row builds carries the word's opcode and IMM8, and RSV is 0 in both. -/
theorem encodeOfDecode : Obligations.EncodeOfDecode := by
  unfold Obligations.EncodeOfDecode
  intro w i h
  obtain ⟨hrsv, r, hr, hop, hadmits, rfl⟩ := decode_ok_cases h
  obtain ⟨hopcode, himm, hwf⟩ := opRows_build hr hadmits
  refine ⟨?_, hwf⟩
  calc encode (r.build (immField w))
      = opField w ++ immField w ++ rsvField w := by rw [encode, hopcode, hop, himm, hrsv]
    _ = w := word_eq_fields w

/-! ## Illegal words -/

/-- The clauses (c) to (g) of 30_encoding R65, on the values of OP and IMM8. -/
def illegalImmediate (op imm : Nat) : Prop :=
  (op ∈ [0x00, 0x13, 0x20, 0x21, 0x22, 0x23, 0x24, 0x31, 0x32] ∧ imm ≠ 0) ∨
  (op ∈ [0x10, 0x11] ∧ ¬ (1 ≤ imm ∧ imm ≤ 32)) ∨
  (op = 0x12 ∧ ¬ (2 ≤ imm ∧ imm ≤ 32)) ∨
  (op ∈ [0x14, 0x15, 0x16] ∧ 15 < imm) ∨
  (op = 0x42 ∧ 1 < imm)

/-- A row admits the immediates that no clause names for its opcode. -/
theorem admits_iff {r : OpRow} (hr : r ∈ opRows) (imm : Byte) :
    r.admits imm = true ↔ ¬ illegalImmediate r.op.toNat imm.toNat := by
  simp only [opRows, List.mem_cons, List.not_mem_nil, or_false] at hr
  rcases hr with rfl | rfl | rfl | rfl | rfl | rfl | rfl | rfl | rfl | rfl | rfl | rfl | rfl | rfl |
    rfl | rfl | rfl | rfl | rfl <;>
  simp [illegalImmediate, OpRow.plain, fieldWidthOk, signMagWidthOk, scaleIndexOk, unitKindOk,
    BitVec.toNat_eq]

/-- Clause (b) of 30_encoding R65 against the opcode map. -/
theorem exists_row_iff (op : Byte) : (∃ r ∈ opRows, r.op = op) ↔
    op.toNat ∈ [0x00, 0x10, 0x11, 0x12, 0x13, 0x14, 0x15, 0x16, 0x20, 0x21, 0x22, 0x23, 0x24,
      0x30, 0x31, 0x32, 0x40, 0x41, 0x42] := by
  rw [← List.mem_map]
  exact (List.mem_map_of_injective BitVec.toNat_injective).symm

/-- 30_encoding R65 on the fields. -/
theorem illegalWord_iff_fields (w : Word) : illegalWord w ↔
    rsvField w ≠ 0#16 ∨ (¬ ∃ r ∈ opRows, r.op = opField w) ∨
      illegalImmediate (opField w).toNat (immField w).toNat := by
  rw [exists_row_iff, opField_toNat, immField_toNat, ne_eq, BitVec.toNat_eq, rsvField_toNat]
  rfl

/-- The clauses name exactly the words the decoder rejects. -/
theorem not_illegalWord_iff (w : Word) : ¬ illegalWord w ↔ ∃ i, decode w = .ok i := by
  rw [illegalWord_iff_fields]
  push Not
  constructor
  · rintro ⟨hrsv, ⟨r, hr, hop⟩, himm⟩
    exact ⟨_, decode_of_row hr hop ((admits_iff hr _).mpr (hop ▸ himm)) hrsv⟩
  · rintro ⟨i, hi⟩
    obtain ⟨hrsv, r, hr, hop, hadmits, -⟩ := decode_ok_cases hi
    exact ⟨hrsv, ⟨r, hr, hop⟩, hop ▸ (admits_iff hr _).mp hadmits⟩

theorem decode_error_of_illegalWord {w : Word} (h : illegalWord w) : ∃ e, decode w = .error e := by
  cases hd : decode w with
  | error e => exact ⟨e, rfl⟩
  | ok i => exact absurd h ((not_illegalWord_iff w).mpr ⟨i, hd⟩)

theorem runCommand_of_illegalWord {w : Word} (h : illegalWord w) (s : State) :
    runCommand w s = .next (faulted .illegalCommand s) := by
  obtain ⟨e, he⟩ := decode_error_of_illegalWord h
  rw [runCommand, he]
  exact raise_eq _ s

/-- A step that finds a CMD write at the head of the queue runs its word. -/
theorem step_commandInput {s : State} {w : Word} {rest : List HostInput}
    (h : s.pending = commandInput w :: rest) :
    step s = runCommand w { s with pending := rest } := by
  rw [step, servePending, h]
  exact serveAccess_write_cmd _ w

/-- Settles O3: the decoder rejects an illegal word before anything of the state is read. -/
theorem illegalWordsFault : Obligations.IllegalWordsFault := by
  unfold Obligations.IllegalWordsFault
  refine fun w => ⟨fun h s rest hp => ?illegal, fun h => ?legal⟩
  case illegal => rw [step_commandInput hp, runCommand_of_illegalWord h]
  case legal =>
    obtain ⟨i, hi⟩ := (not_illegalWord_iff w).mp h
    exact ⟨i, hi, wf_of_decode hi⟩

/-! ## The words written out -/

/-- Settles O4: the general value, the words of R69 by evaluation, and the decoder's rejection. -/
theorem commandWordValue : Obligations.CommandWordValue := by
  unfold Obligations.CommandWordValue
  refine ⟨encode_toNat, rfl, rfl, rfl, rfl, rfl, rfl, rfl, rfl, rfl, rfl, rfl, rfl, ?_, ?_, ?_, ?_,
    fun _ => decode_error_of_illegalWord⟩
  all_goals simp [illegalWord]

/-- Settles O5: each word is the encoding of its command. -/
theorem sampleWordsDecode : Obligations.SampleWordsDecode :=
  ⟨decodeOfEncode .nop rfl, decodeOfEncode (.rdu 12) rfl, decodeOfEncode (.wru 10) rfl,
    decodeOfEncode (.scalef 15) rfl, decodeOfEncode .crc24qb rfl, decodeOfEncode (.push 0xB5) rfl,
    decodeOfEncode (.navwd 255) rfl, decodeOfEncode (.navpar 1) rfl⟩

end Sys2Proof.Machine
end

section
/-! PROOF. Binary64 rounding (40_bitfield_codec R81). A magnitude g * 2^52 + r stands for r units of
2^(g - 1074), and the model rounds a value to the nearest whole number r of such units. No finite
encoding is nearer: its value is a whole number of these units as well, or lies below the binade. -/

namespace Sys2Proof.Machine

/-! ## The fields of an encoding -/

/-- An encoding without its sign: the exponent field above the fraction field. -/
def f64Mag (x : DWord) : Nat := (x.extractLsb' 0 63).toNat

theorem f64Mag_eq_mod (x : DWord) : f64Mag x = x.toNat % 2 ^ 63 := by
  simp [f64Mag, BitVec.extractLsb'_toNat]

theorem f64Mag_lt (x : DWord) : f64Mag x < 2 ^ 63 := BitVec.isLt _

theorem f64Exp_eq (x : DWord) : f64Exp x = f64Mag x / 2 ^ 52 := by
  rw [f64Mag_eq_mod, f64Exp, BitVec.extractLsb'_toNat, Nat.shiftRight_eq_div_pow]
  omega

theorem f64Exp_lt_iff (x : DWord) : f64Exp x < 2047 ↔ f64Mag x < infMag := by
  have hinf : infMag = 2047 * 2 ^ 52 := rfl
  rw [f64Exp_eq]
  omega

theorem f64Frac_eq (x : DWord) : f64Frac x = f64Mag x % 2 ^ 52 := by
  rw [f64Mag_eq_mod, f64Frac, BitVec.extractLsb'_toNat, Nat.shiftRight_zero]
  omega

@[simp] theorem f64Sign_packSign (neg : Bool) (mag : Nat) : f64Sign (packSign neg mag) = neg := by
  rw [f64Sign, packSign, BitVec.getLsbD_append]
  cases neg <;> rfl

theorem f64Mag_packSign (neg : Bool) {mag : Nat} (h : mag < 2 ^ 63) :
    f64Mag (packSign neg mag) = mag := by
  rw [f64Mag, packSign, BitVec.extractLsb'_append_eq_right, BitVec.toNat_ofNat, Nat.mod_eq_of_lt h]

theorem packSign_inj {a b : Bool} {m n : Nat} (hm : m < 2 ^ 63) (hn : n < 2 ^ 63) :
    packSign a m = packSign b n ↔ a = b ∧ m = n := by
  refine ⟨fun h => ⟨?_, ?_⟩, fun ⟨ha, hm⟩ => by rw [ha, hm]⟩
  · rw [← f64Sign_packSign a m, h, f64Sign_packSign]
  · rw [← f64Mag_packSign a hm, h, f64Mag_packSign b hn]

theorem packSign_f64Mag (x : DWord) : packSign (f64Sign x) (f64Mag x) = x := by
  refine BitVec.eq_of_getLsbD_eq fun i hi => ?_
  rw [packSign, f64Mag, BitVec.ofNat_toNat, BitVec.setWidth_eq, BitVec.getLsbD_append,
    BitVec.getLsbD_extractLsb']
  by_cases h : i < 63
  · simp [h]
  · have : i = 63 := by omega
    subst this
    simp [f64Sign]

theorem getLsbD_zero_packSign (neg : Bool) {mag : Nat} (h : mag % 2 = 0) :
    (packSign neg mag).getLsbD 0 = false := by
  rw [packSign, BitVec.getLsbD_append, if_pos (by decide), BitVec.getLsbD_ofNat]
  simp [h]

/-! ## The value of an encoding -/

/-- The factor of a sign. -/
def signFactor (neg : Bool) : ℚ := if neg then -1 else 1

theorem signFactor_mul_self (neg : Bool) : signFactor neg * signFactor neg = 1 := by
  cases neg <;> norm_num [signFactor]

theorem abs_signFactor (neg : Bool) : |signFactor neg| = 1 := by
  cases neg <;> norm_num [signFactor]

theorem signFactor_xor (a b : Bool) : signFactor (a ^^ b) = signFactor a * signFactor b := by
  cases a <;> cases b <;> norm_num [signFactor]

/-- The value of a finite magnitude in units of 2^-1074, the least subnormal. -/
def magUnits (mag : Nat) : Nat :=
  if mag < 2 ^ 52 then mag else (2 ^ 52 + mag % 2 ^ 52) * 2 ^ (mag / 2 ^ 52 - 1)

/-- Significand and exponent of an encoding, in units of 2^-1074. -/
theorem signif_mul_scale (x : DWord) :
    f64Signif x * 2 ^ (f64Scale x + 1074).toNat = magUnits (f64Mag x) := by
  rw [f64Signif, f64Scale, f64Exp_eq, f64Frac_eq, magUnits]
  by_cases h : f64Mag x < 2 ^ 52
  · have hexp : f64Mag x / 2 ^ 52 = 0 := by omega
    rw [if_pos hexp, if_pos hexp, if_pos h, Nat.mod_eq_of_lt h]
    simp
  · have hexp : f64Mag x / 2 ^ 52 ≠ 0 := by omega
    rw [if_neg hexp, if_neg hexp, if_neg h]
    congr 2
    omega

theorem f64Scale_ge (x : DWord) : -1074 ≤ f64Scale x := by
  unfold f64Scale
  split_ifs <;> omega

theorem signif_mul_zpow_scale (x : DWord) :
    (f64Signif x : ℚ) * 2 ^ f64Scale x = magUnits (f64Mag x) * 2 ^ (-1074 : ℤ) := by
  obtain ⟨n, hn⟩ := Int.eq_ofNat_of_zero_le (a := f64Scale x + 1074) (by have := f64Scale_ge x; omega)
  have hscale : f64Scale x = n + (-1074) := by omega
  rw [← signif_mul_scale, hn, hscale, zpow_add₀ two_ne_zero, Int.toNat_natCast, zpow_natCast,
    Nat.cast_mul, Nat.cast_pow, Nat.cast_ofNat, mul_assoc]

theorem f64Value_eq (x : DWord) :
    f64Value x = signFactor (f64Sign x) * (magUnits (f64Mag x) * 2 ^ (-1074 : ℤ)) := by
  rw [← signif_mul_zpow_scale, ← mul_assoc]
  rfl

/-- `r` units of 2^g, at the bottom of the range or with the significand's top bit set. A significand of
2^53 is the next binade's first. -/
theorem magUnits_of_units {g r : Nat} (hr : r ≤ 2 ^ 53) (hg : g = 0 ∨ 2 ^ 52 ≤ r) :
    magUnits (g * 2 ^ 52 + r) = r * 2 ^ g := by
  unfold magUnits
  by_cases hlow : g * 2 ^ 52 + r < 2 ^ 52
  · obtain rfl : g = 0 := by omega
    rw [if_pos hlow]
    simp
  · rw [if_neg hlow]
    rcases Nat.eq_or_lt_of_le hr with rfl | hlt
    · have hdiv : (g * 2 ^ 52 + 2 ^ 53) / 2 ^ 52 - 1 = g + 1 := by omega
      have hmod : (g * 2 ^ 52 + 2 ^ 53) % 2 ^ 52 = 0 := by omega
      rw [hdiv, hmod, Nat.pow_succ]
      ring
    · have hdiv : (g * 2 ^ 52 + r) / 2 ^ 52 - 1 = g := by omega
      have hmod : 2 ^ 52 + (g * 2 ^ 52 + r) % 2 ^ 52 = r := by omega
      rw [hdiv, hmod]

theorem magUnits_value_of_units {g r : Nat} (hr : r ≤ 2 ^ 53) (hg : g = 0 ∨ 2 ^ 52 ≤ r) :
    (magUnits (g * 2 ^ 52 + r) : ℚ) * 2 ^ (-1074 : ℤ) = r * 2 ^ ((g : ℤ) - 1074) := by
  rw [magUnits_of_units hr hg, sub_eq_add_neg, zpow_add₀ two_ne_zero, zpow_natCast, Nat.cast_mul,
    Nat.cast_pow, Nat.cast_ofNat, mul_assoc]

/-- Against any unit 2^g, a finite value is a whole number of units or lies below 2^52 units. -/
theorem magUnits_grid (mag g : Nat) :
    (∃ n, magUnits mag = n * 2 ^ g) ∨ g ≠ 0 ∧ magUnits mag < 2 ^ 52 * 2 ^ g := by
  by_cases hg : g = 0
  · subst hg
    exact .inl ⟨magUnits mag, by simp⟩
  by_cases hlow : mag < 2 ^ 52
  · right
    rw [magUnits, if_pos hlow]
    exact ⟨hg, hlow.trans_le (Nat.le_mul_of_pos_right _ (Nat.two_pow_pos g))⟩
  rw [magUnits, if_neg hlow]
  by_cases hexp : g ≤ mag / 2 ^ 52 - 1
  · left
    exact ⟨(2 ^ 52 + mag % 2 ^ 52) * 2 ^ (mag / 2 ^ 52 - 1 - g),
      by rw [Nat.mul_assoc, ← Nat.pow_add, Nat.sub_add_cancel hexp]⟩
  · right
    refine ⟨hg, ?_⟩
    calc (2 ^ 52 + mag % 2 ^ 52) * 2 ^ (mag / 2 ^ 52 - 1)
        < 2 ^ 53 * 2 ^ (mag / 2 ^ 52 - 1) := Nat.mul_lt_mul_of_pos_right (by omega) (Nat.two_pow_pos _)
      _ = 2 ^ 52 * 2 ^ (mag / 2 ^ 52 - 1 + 1) := by ring
      _ ≤ 2 ^ 52 * 2 ^ g := Nat.mul_le_mul_left _ (Nat.pow_le_pow_right (by omega) (by omega))

/-! ## Rounding to an integer -/

/-- `r` is the number `t` rounded to the nearest integer, ties to even. -/
structure NearestEven (t : ℚ) (r : Nat) : Prop where
  near : |r - t| ≤ 1 / 2
  even : |r - t| = 1 / 2 → r % 2 = 0

namespace NearestEven

variable {t : ℚ} {r : Nat}

theorem of_nat (n : Nat) : NearestEven n n := ⟨by simp, by simp⟩

theorem le_of_le {n : Nat} (h : NearestEven t r) (ht : t ≤ n) : r ≤ n := by
  have hr := (abs_le.mp h.near).2
  have : (r : ℚ) < (n + 1 : Nat) := by push_cast; linarith
  exact Nat.lt_succ_iff.mp (by exact_mod_cast this)

theorem ge_of_ge {n : Nat} (h : NearestEven t r) (ht : n ≤ t) : n ≤ r := by
  have hr := (abs_le.mp h.near).1
  have : (n : ℚ) < (r + 1 : Nat) := by push_cast; linarith
  exact Nat.lt_succ_iff.mp (by exact_mod_cast this)

/-- An integer rounds to itself alone. -/
theorem eq_of_nat {n : Nat} (h : NearestEven n r) : r = n :=
  Nat.le_antisymm (h.le_of_le le_rfl) (h.ge_of_ge le_rfl)

/-- The midpoint below an even integer is where rounding to it begins. -/
theorem lt_iff_of_even {n : Nat} (h : NearestEven t r) (hn : n % 2 = 0) :
    r < n ↔ t < n - 1 / 2 := by
  have hr := abs_le.mp h.near
  constructor
  · intro hlt
    have hle : (r : ℚ) ≤ n - 1 := by
      rw [le_sub_iff_add_le]
      exact_mod_cast hlt
    refine lt_of_le_of_ne (by linarith) fun heq => ?_
    have hrn : (r : ℚ) = n - 1 := by linarith
    have hodd := h.even (by rw [hrn, heq, abs_of_nonpos] <;> linarith)
    have : r + 1 = n := by exact_mod_cast (by linarith : (r : ℚ) + 1 = n)
    omega
  · intro hlt
    exact_mod_cast (by linarith : (r : ℚ) < n)

/-- No other integer is nearer, and if one is as near, `r` is even. -/
theorem le_dist_int (h : NearestEven t r) (z : ℤ) :
    |r - t| ≤ |z - t| ∧ (|r - t| = |z - t| → (z : ℚ) ≠ r → r % 2 = 0) := by
  by_cases hz : z = (r : ℤ)
  · subst hz
    simp
  have hgap : (1 : ℚ) ≤ |(z : ℚ) - r| := by
    exact_mod_cast Int.one_le_abs (sub_ne_zero.mpr hz)
  have htri : |(z : ℚ) - r| ≤ |z - t| + |r - t| := by
    rw [abs_sub_comm (r : ℚ) t]
    exact abs_sub_le _ _ _
  have := h.near
  exact ⟨by linarith, fun heq _ => h.even (by linarith)⟩

/-- Nor is a number nearer that lies below an integer that `t` has reached. -/
theorem le_dist {k : ℚ} {n : Nat} (h : NearestEven t r) (hk : (∃ z : ℤ, k = z) ∨ k < n ∧ n ≤ t) :
    |r - t| ≤ |k - t| ∧ (|r - t| = |k - t| → k ≠ r → r % 2 = 0) := by
  rcases hk with ⟨z, rfl⟩ | ⟨hkn, hnt⟩
  · exact h.le_dist_int z
  · have hn := (h.le_dist_int n).1
    rw [Int.cast_natCast, abs_of_nonpos (a := (n : ℚ) - t) (by linarith)] at hn
    rw [abs_of_nonpos (a := k - t) (by linarith)]
    exact ⟨by linarith, fun heq => by linarith⟩

end NearestEven

/-- The shift of a significand rounds the quotient to nearest, ties to even: the fraction it drops is
below 1/2, above it, or 1/2. -/
theorem roundShift_nearest (m d : Nat) : NearestEven (m / 2 ^ d) (roundShift m d) := by
  have hpos : (0 : ℚ) < 2 ^ d := by positivity
  have hquot : (m : ℚ) / 2 ^ d = (m / 2 ^ d : Nat) + (m % 2 ^ d : Nat) / 2 ^ d := by
    rw [div_eq_iff hpos.ne', add_mul, div_mul_cancel₀ _ hpos.ne']
    exact_mod_cast (Nat.div_add_mod' m (2 ^ d)).symm
  have hfrac : (0 : ℚ) ≤ (m % 2 ^ d : Nat) / 2 ^ d := by positivity
  have hfrac_lt : ((m % 2 ^ d : Nat) : ℚ) / 2 ^ d < 1 := by
    rw [div_lt_one hpos]
    exact_mod_cast Nat.mod_lt m (Nat.two_pow_pos d)
  have hlow : 2 * (m % 2 ^ d) < 2 ^ d ↔ ((m % 2 ^ d : Nat) : ℚ) / 2 ^ d < 1 / 2 := by
    rw [div_lt_div_iff₀ hpos two_pos, one_mul, mul_comm]
    exact_mod_cast Iff.rfl
  have hhigh : 2 ^ d < 2 * (m % 2 ^ d) ↔ 1 / 2 < ((m % 2 ^ d : Nat) : ℚ) / 2 ^ d := by
    rw [div_lt_div_iff₀ two_pos hpos, one_mul, mul_comm _ (2 : ℚ)]
    exact_mod_cast Iff.rfl
  unfold roundShift
  dsimp only
  rw [hquot]
  generalize ((m % 2 ^ d : Nat) : ℚ) / 2 ^ d = frac at *
  generalize m / 2 ^ d = q
  split_ifs with h1 h2
  case pos =>
    have hdist : |(q : ℚ) - (q + frac)| = frac := by rw [abs_of_nonpos] <;> linarith
    have := hlow.mp h1
    exact ⟨by linarith, fun h => by linarith⟩
  case pos =>
    have hdist : |((q + 1 : Nat) : ℚ) - (q + frac)| = 1 - frac := by
      push_cast
      rw [abs_of_nonneg] <;> linarith
    have := hhigh.mp h2
    exact ⟨by linarith, fun h => by linarith⟩
  case neg =>
    have hhalf : frac = 1 / 2 := le_antisymm (not_lt.mp (mt hhigh.mpr h2)) (not_lt.mp (mt hlow.mpr h1))
    refine ⟨?_, fun _ => by omega⟩
    rcases Nat.mod_two_eq_zero_or_one q with hq | hq <;> rw [hq, hhalf] <;> norm_num

/-! ## The model's rounding -/

/-- The value m * 2^e in units of its last kept bit. -/
def unitsAt (m : Nat) (e : ℤ) (g : Nat) : ℚ := m * 2 ^ (e + 1074 - g)

theorem unitsAt_mul (m : Nat) (e : ℤ) (g : Nat) :
    unitsAt m e g * 2 ^ ((g : ℤ) - 1074) = m * 2 ^ e := by
  rw [unitsAt, mul_assoc, ← zpow_add₀ two_ne_zero]
  congr 2
  ring

theorem roundToQuantum_nearest (m : Nat) (e : ℤ) :
    NearestEven (unitsAt m e (quantum m e)) (roundToQuantum m e) := by
  unfold roundToQuantum
  dsimp only
  split_ifs with hd
  · obtain ⟨d, hd⟩ := Int.eq_ofNat_of_zero_le hd
    have hexp : e + 1074 - quantum m e = -(d : ℤ) := by omega
    rw [hd, Int.toNat_natCast, unitsAt, hexp, zpow_neg, zpow_natCast, ← div_eq_mul_inv]
    exact roundShift_nearest m d
  · obtain ⟨d, hd⟩ := Int.eq_ofNat_of_zero_le (a := e + 1074 - quantum m e) (by omega)
    have hexp : -((quantum m e : ℤ) - (e + 1074)) = d := by omega
    rw [hexp, Int.toNat_natCast, unitsAt, hd, zpow_natCast]
    exact_mod_cast NearestEven.of_nat (m * 2 ^ d)

theorem quantum_eq (m : Nat) (e : ℤ) : quantum m e = (e + Nat.log2 m + 1022).toNat := by
  rw [quantum]
  congr 1
  ring

/-- 53 bits hold a significand in units of its quantum. -/
theorem unitsAt_quantum_lt (m : Nat) (e : ℤ) : unitsAt m e (quantum m e) < 2 ^ 53 := by
  have hm : (m : ℚ) < 2 ^ ((m.log2 + 1 : Nat) : ℤ) := by exact_mod_cast Nat.lt_log2_self
  calc unitsAt m e (quantum m e)
      < 2 ^ ((m.log2 + 1 : Nat) : ℤ) * 2 ^ (e + 1074 - quantum m e) :=
        mul_lt_mul_of_pos_right hm (by positivity)
    _ = 2 ^ ((m.log2 + 1 : Nat) + (e + 1074 - quantum m e)) := (zpow_add₀ two_ne_zero _ _).symm
    _ ≤ 2 ^ (53 : ℤ) := zpow_le_zpow_right₀ one_le_two (by rw [quantum_eq]; omega)
    _ = 2 ^ 53 := by norm_cast

/-- Above the bottom of the range they are all used. -/
theorem le_unitsAt_quantum {m : Nat} (hm : m ≠ 0) (e : ℤ) :
    quantum m e = 0 ∨ 2 ^ 52 ≤ unitsAt m e (quantum m e) := by
  refine or_iff_not_imp_left.mpr fun hg => ?_
  have hm : (2 : ℚ) ^ (m.log2 : ℤ) ≤ m := by exact_mod_cast Nat.log2_self_le hm
  rw [quantum_eq] at hg
  calc (2 : ℚ) ^ 52 = 2 ^ (52 : ℤ) := by norm_cast
    _ ≤ 2 ^ (m.log2 + (e + 1074 - quantum m e)) :=
        zpow_le_zpow_right₀ one_le_two (by rw [quantum_eq]; omega)
    _ = 2 ^ (m.log2 : ℤ) * 2 ^ (e + 1074 - quantum m e) := zpow_add₀ two_ne_zero _ _
    _ ≤ unitsAt m e (quantum m e) := mul_le_mul_of_nonneg_right hm (by positivity)

/-! ## Rounding to an encoding -/

theorem overflow_bound : (2 : ℚ) ^ 1024 - 2 ^ 970 = (2 ^ 53 - 1 / 2) * 2 ^ ((2045 : ℕ) - 1074 : ℤ) := by
  have h971 : ((2045 : ℕ) - 1074 : ℤ) = (971 : ℕ) := by norm_num
  rw [h971, zpow_natCast, show 1024 = 53 + (970 + 1) by rfl, show 971 = 970 + 1 by rfl]
  generalize 970 = n
  ring

theorem unit_mul_two_le {g k : Nat} (h : g < k) :
    (2 : ℚ) ^ ((g : ℤ) - 1074) * 2 ≤ 2 ^ ((k : ℤ) - 1074) := by
  rw [← zpow_add_one₀ two_ne_zero]
  exact zpow_le_zpow_right₀ one_le_two (by omega)

/-- What the rounding of `t` units of 2^(g - 1074) is made from: `t` is that of a normal number, or at the
bottom of the range. -/
structure InBinade (t : ℚ) (g r : Nat) : Prop where
  nearest : NearestEven t r
  nonneg : 0 ≤ t
  lt : t < 2 ^ 53
  le : g = 0 ∨ 2 ^ 52 ≤ t

namespace InBinade

variable {t : ℚ} {g r : Nat}

theorem signif_le (h : InBinade t g r) : r ≤ 2 ^ 53 := h.nearest.le_of_le (by exact_mod_cast h.lt.le)

theorem le_signif (h : InBinade t g r) : g = 0 ∨ 2 ^ 52 ≤ r :=
  h.le.imp_right fun hle => h.nearest.ge_of_ge (by exact_mod_cast hle)

/-- The rounded magnitude is finite exactly below the midpoint between the greatest finite number and
2^1024. -/
theorem lt_infMag_iff (h : InBinade t g r) :
    g * 2 ^ 52 + r < infMag ↔ t * 2 ^ ((g : ℤ) - 1074) < 2 ^ 1024 - 2 ^ 970 := by
  have hr := h.signif_le
  have hinf : infMag = 2047 * 2 ^ 52 := rfl
  rw [overflow_bound, hinf]
  rcases lt_trichotomy g 2045 with hg | rfl | hg
  · have hmag : g * 2 ^ 52 + r < 2047 * 2 ^ 52 := by omega
    refine iff_of_true hmag ?_
    have hpow := unit_mul_two_le hg
    calc t * 2 ^ ((g : ℤ) - 1074)
        < 2 ^ 53 * 2 ^ ((g : ℤ) - 1074) := mul_lt_mul_of_pos_right h.lt (by positivity)
      _ = 2 ^ 52 * (2 ^ ((g : ℤ) - 1074) * 2) := by ring
      _ ≤ 2 ^ 52 * 2 ^ ((2045 : ℕ) - 1074 : ℤ) := by gcongr
      _ ≤ (2 ^ 53 - 1 / 2) * 2 ^ ((2045 : ℕ) - 1074 : ℤ) := by gcongr; norm_num
  · rw [mul_lt_mul_iff_left₀ (by positivity)]
    have hmid := h.nearest.lt_iff_of_even (n := 2 ^ 53) (by norm_num)
    rw [Nat.cast_pow, Nat.cast_ofNat] at hmid
    rw [← hmid]
    omega
  · have hle := h.le_signif
    have hmag : ¬ g * 2 ^ 52 + r < 2047 * 2 ^ 52 := by omega
    refine iff_of_false hmag (not_lt.mpr ?_)
    have hpow := unit_mul_two_le hg
    calc ((2 : ℚ) ^ 53 - 1 / 2) * 2 ^ ((2045 : ℕ) - 1074 : ℤ)
        ≤ 2 ^ 53 * 2 ^ ((2045 : ℕ) - 1074 : ℤ) := by gcongr; norm_num
      _ = 2 ^ 52 * (2 ^ ((2045 : ℕ) - 1074 : ℤ) * 2) := by ring
      _ ≤ 2 ^ 52 * 2 ^ ((g : ℤ) - 1074) := by gcongr
      _ ≤ t * 2 ^ ((g : ℤ) - 1074) := by gcongr; exact h.le.resolve_left (by omega)

end InBinade

/-- A finite value against any unit and sign: it is a whole number of units, or lies below 2^52 of them. -/
theorem f64Value_grid (y : DWord) (neg : Bool) (g : Nat) : ∃ k : ℚ,
    f64Value y = signFactor neg * (k * 2 ^ ((g : ℤ) - 1074)) ∧
      ((∃ z : ℤ, k = z) ∨ g ≠ 0 ∧ k < 2 ^ 52) := by
  have hpow : (0 : ℚ) < 2 ^ g := by positivity
  obtain ⟨u, hu⟩ : ∃ u : ℚ, (magUnits (f64Mag y) : ℚ) = u * 2 ^ g :=
    ⟨_, (div_mul_cancel₀ _ hpow.ne').symm⟩
  refine ⟨signFactor (neg ^^ f64Sign y) * u, ?value, ?grid⟩
  case value =>
    rw [f64Value_eq, hu, sub_eq_add_neg, zpow_add₀ two_ne_zero, zpow_natCast, signFactor_xor]
    linear_combination (-(signFactor (f64Sign y) * u * 2 ^ g * 2 ^ (-1074 : ℤ))) *
        (signFactor_mul_self neg)
  case grid =>
    refine (magUnits_grid (f64Mag y) g).imp (fun ⟨n, hn⟩ => ?_) fun ⟨hg, hlt⟩ => ⟨hg, ?_⟩
    · have hun : u = n := mul_right_cancel₀ hpow.ne' (hu.symm.trans (by exact_mod_cast hn))
      exact ⟨(if neg ^^ f64Sign y then -1 else 1) * n, by rw [hun, signFactor]; push_cast; rfl⟩
    · have hunit : u < 2 ^ 52 := lt_of_mul_lt_mul_right (hu ▸ by exact_mod_cast hlt) hpow.le
      have hnonneg : 0 ≤ u := nonneg_of_mul_nonneg_left (hu ▸ Nat.cast_nonneg _) hpow
      rw [signFactor]
      split_ifs <;> linarith

/-- The one rounding lemma: an encoding made from the nearest number of units is the value rounded. -/
theorem InBinade.roundsTo {t : ℚ} {g r : Nat} (h : InBinade t g r) (neg : Bool) :
    roundsTo (signFactor neg * (t * 2 ^ ((g : ℤ) - 1074))) neg
      (packSign neg (min infMag (g * 2 ^ 52 + r))) := by
  have habs : |signFactor neg * (t * 2 ^ ((g : ℤ) - 1074))| = t * 2 ^ ((g : ℤ) - 1074) := by
    rw [abs_mul, abs_signFactor, one_mul, abs_of_nonneg (mul_nonneg h.nonneg (by positivity))]
  have hdist (k : ℚ) : |signFactor neg * (k * 2 ^ ((g : ℤ) - 1074)) -
      signFactor neg * (t * 2 ^ ((g : ℤ) - 1074))| = |k - t| * 2 ^ ((g : ℤ) - 1074) := by
    rw [← mul_sub, ← sub_mul, abs_mul, abs_mul, abs_signFactor, one_mul,
      abs_of_pos (a := (2 : ℚ) ^ _) (by positivity)]
  rw [Machine.roundsTo, habs, ← h.lt_infMag_iff, ← not_lt, ← h.lt_infMag_iff]
  refine ⟨f64Sign_packSign _ _, fun hfin => ?finite, fun hover => ?infinite⟩
  case infinite => rw [min_eq_left (not_lt.mp hover)]; rfl
  case finite =>
    have hmag : g * 2 ^ 52 + r < 2 ^ 63 := hfin.trans (by decide)
    have hvalue : f64Value (packSign neg (g * 2 ^ 52 + r)) =
        signFactor neg * (r * 2 ^ ((g : ℤ) - 1074)) := by
      rw [f64Value_eq, f64Sign_packSign, f64Mag_packSign neg hmag,
        magUnits_value_of_units h.signif_le h.le_signif]
    rw [min_eq_right hfin.le]
    refine ⟨?_, fun y _ => ?_⟩
    · rwa [f64Exp_lt_iff, f64Mag_packSign neg hmag]
    · obtain ⟨k, hk, hgrid⟩ := f64Value_grid y neg g
      have hbelow : (∃ z : ℤ, k = z) ∨ k < (2 ^ 52 : Nat) ∧ (2 ^ 52 : Nat) ≤ t := by
        rw [Nat.cast_pow, Nat.cast_ofNat]
        exact hgrid.imp_right fun ⟨hg, hlt⟩ => ⟨hlt, h.le.resolve_left hg⟩
      obtain ⟨hle, htie⟩ := h.nearest.le_dist hbelow
      have hpos : (0 : ℚ) < 2 ^ ((g : ℤ) - 1074) := by positivity
      rw [hvalue, hk, hdist, hdist]
      refine ⟨mul_le_mul_of_nonneg_right hle hpos.le, fun heq hne => getLsbD_zero_packSign neg ?_⟩
      have heven := htie (mul_right_cancel₀ hpos.ne' heq) (fun e => hne (by rw [e]))
      omega

/-- The value m * 2^e of either sign, rounded by the model. -/
theorem roundMag_roundsTo (neg : Bool) (m : Nat) (e : ℤ) :
    roundsTo (signFactor neg * (m * 2 ^ e)) neg (packSign neg (roundMag m e)) := by
  by_cases hm : m = 0
  · subst hm
    have hzero : InBinade 0 0 0 := ⟨by exact_mod_cast NearestEven.of_nat 0, le_rfl, by norm_num, .inl rfl⟩
    simpa [roundMag] using hzero.roundsTo neg
  · have hbinade : InBinade (unitsAt m e (quantum m e)) (quantum m e) (roundToQuantum m e) :=
      ⟨roundToQuantum_nearest m e, mul_nonneg (Nat.cast_nonneg _) (by positivity),
        unitsAt_quantum_lt m e, le_unitsAt_quantum hm e⟩
    rw [← unitsAt_mul, roundMag, if_neg hm]
    exact hbinade.roundsTo neg

theorem f64_roundsTo (n : ℤ) : roundsTo (n : ℚ) (decide (n < 0)) (f64 n) := by
  have hvalue : (n : ℚ) = signFactor (decide (n < 0)) * (n.natAbs * 2 ^ (0 : ℤ)) := by
    rw [zpow_zero, mul_one, signFactor, Nat.cast_natAbs]
    by_cases hn : n < 0
    · simp [hn, abs_of_neg hn]
    · simp [hn, abs_of_nonneg (not_lt.mp hn)]
  have := roundMag_roundsTo (decide (n < 0)) n.natAbs 0
  rwa [← hvalue] at this

/-! ## The product -/

theorem f64IsInf_iff (x : DWord) : f64IsInf x = true ↔ f64Mag x = infMag := by
  have := f64Mag_lt x
  have hinf : infMag = 2047 * 2 ^ 52 := rfl
  simp only [f64IsInf, Bool.and_eq_true, beq_iff_eq, f64Exp_eq, f64Frac_eq]
  omega

theorem f64IsZero_iff (x : DWord) : f64IsZero x = true ↔ f64Mag x = 0 := by
  simp only [f64IsZero, Bool.and_eq_true, beq_iff_eq, f64Exp_eq, f64Frac_eq]
  omega

theorem f64IsNaN_iff (x : DWord) : f64IsNaN x = true ↔ infMag < f64Mag x := by
  have := f64Mag_lt x
  have hinf : infMag = 2047 * 2 ^ 52 := rfl
  simp only [f64IsNaN, Bool.and_eq_true, beq_iff_eq, bne_iff_ne, f64Exp_eq, f64Frac_eq]
  omega

theorem mulf_comm (a b : DWord) : mulf a b = mulf b a := by
  unfold mulf
  rw [Bool.xor_comm, Bool.or_comm (f64IsNaN a), Bool.or_comm (f64IsInf a), Bool.or_comm (_ && _),
    Bool.and_comm (f64IsInf a), Bool.and_comm (f64IsZero a), Nat.mul_comm, Int.add_comm]

theorem mulf_of_nan {a b : DWord} (h : f64IsNaN a = true ∨ f64IsNaN b = true) :
    mulf a b = canonicalNaN := by
  rw [mulf, if_pos (by rwa [Bool.or_eq_true])]

theorem mulf_inf_zero {a b : DWord} (ha : f64IsInf a = true) (hb : f64IsZero b = true) :
    mulf a b = canonicalNaN := by
  simp [mulf, ha, hb]

/-- Infinity times a number that is not zero. -/
theorem mulf_inf {a b : DWord} (ha : f64IsInf a = true) (hnan : f64IsNaN b = false)
    (hzero : f64IsZero b = false) : mulf a b = packSign (f64Sign a ^^ f64Sign b) infMag := by
  have ha' := (f64IsInf_iff a).mp ha
  have hnan' : f64IsNaN a = false := by
    rw [← Bool.not_eq_true, f64IsNaN_iff, ha']
    exact lt_irrefl _
  have hzero' : f64IsZero a = false := by
    rw [← Bool.not_eq_true, f64IsZero_iff, ha']
    decide
  simp [mulf, ha, hnan, hzero, hnan', hzero']

/-- The product of finite numbers is the exact product, rounded once. -/
theorem mulf_finite {a b : DWord} (ha : f64Mag a < infMag) (hb : f64Mag b < infMag) :
    mulf a b = packSign (f64Sign a ^^ f64Sign b)
      (roundMag (f64Signif a * f64Signif b) (f64Scale a + f64Scale b)) := by
  have finite_cases {x : DWord} (hx : f64Mag x < infMag) : f64IsNaN x = false ∧ f64IsInf x = false := by
    rw [← Bool.not_eq_true, ← Bool.not_eq_true, f64IsNaN_iff, f64IsInf_iff]
    omega
  simp [mulf, finite_cases ha, finite_cases hb]

theorem mulf_roundsTo {a b : DWord} (ha : f64Exp a < 2047) (hb : f64Exp b < 2047) :
    roundsTo (f64Value a * f64Value b) (f64Sign a ^^ f64Sign b) (mulf a b) := by
  have hvalue : f64Value a * f64Value b = signFactor (f64Sign a ^^ f64Sign b) *
      ((f64Signif a * f64Signif b : Nat) * 2 ^ (f64Scale a + f64Scale b)) := by
    rw [signFactor_xor, zpow_add₀ two_ne_zero, Nat.cast_mul]
    simp only [f64Value, signFactor]
    ring
  rw [hvalue, mulf_finite ((f64Exp_lt_iff a).mp ha) ((f64Exp_lt_iff b).mp hb)]
  exact roundMag_roundsTo _ _ _

/-- Settles O22: `roundMag` rounds every value, and a conversion or a product is one such rounding. -/
theorem roundingNearestEven : Obligations.RoundingNearestEven := by
  unfold Obligations.RoundingNearestEven
  refine ⟨f64_roundsTo, fun _ _ => mulf_roundsTo, fun m d => ?shift⟩
  have hdist : |(roundShift m d : ℚ) * 2 ^ d - m| ≤ 1 / 2 * 2 ^ d := by
    have hpow : (0 : ℚ) < 2 ^ d := by positivity
    rw [← div_mul_cancel₀ (m : ℚ) hpow.ne', ← sub_mul, abs_mul, abs_of_pos hpow]
    exact mul_le_mul_of_nonneg_right (roundShift_nearest m d).near hpow.le
  obtain ⟨hlow, hhigh⟩ := abs_le.mp hdist
  refine ⟨?_, ?_, fun htie => ?_⟩
  · exact_mod_cast (by linarith : 2 * (m : ℚ) ≤ 2 * (roundShift m d * 2 ^ d) + 2 ^ d)
  · exact_mod_cast (by linarith : 2 * (roundShift m d * 2 ^ d : ℚ) ≤ 2 * m + 2 ^ d)
  · have hshift : roundShift m d = m / 2 ^ d + m / 2 ^ d % 2 := by
      rw [roundShift, if_neg (by omega), if_neg (by omega)]
    omega

/-- Settles O23: the special operands one by one; the other order by commutativity. -/
theorem mulfSpecialOperands : Obligations.MulfSpecialOperands := by
  unfold Obligations.MulfSpecialOperands
  refine fun a b => ⟨mulf_of_nan, fun ha hb => ?infZero, fun ha hnan hb => ?inf, fun ha hb => ?zero⟩
  case infZero => exact ⟨mulf_inf_zero ha hb, mulf_comm b a ▸ mulf_inf_zero ha hb⟩
  case inf => exact ⟨mulf_inf ha hnan hb, mulf_comm b a ▸ mulf_inf ha hnan hb⟩
  case zero =>
    have ha := (f64IsZero_iff a).mp ha
    have hsignif : f64Signif a = 0 := by rw [f64Signif, f64Exp_eq, f64Frac_eq, ha]; rfl
    have hprod : mulf a b = packSign (f64Sign a ^^ f64Sign b) 0 := by
      rw [mulf_finite (by rw [ha]; decide) ((f64Exp_lt_iff b).mp hb), hsignif, Nat.zero_mul]
      rfl
    exact ⟨hprod, mulf_comm b a ▸ hprod⟩

/-! ## Exact results -/

/-- Two ways to write a value in units, each with the top bit of its significand set or at the bottom of
the range, use the same unit. -/
theorem unit_le {t u : ℚ} {g k : Nat} (hg : g = 0 ∨ 2 ^ 52 ≤ t) (hu : u < 2 ^ 53)
    (h : t * 2 ^ ((g : ℤ) - 1074) = u * 2 ^ ((k : ℤ) - 1074)) : g ≤ k := by
  by_contra hlt
  have ht := hg.resolve_left (by omega)
  have hpow := unit_mul_two_le (not_le.mp hlt)
  refine lt_irrefl (u * 2 ^ ((k : ℤ) - 1074)) ?_
  calc u * 2 ^ ((k : ℤ) - 1074)
      < 2 ^ 53 * 2 ^ ((k : ℤ) - 1074) := mul_lt_mul_of_pos_right hu (by positivity)
    _ = 2 ^ 52 * (2 ^ ((k : ℤ) - 1074) * 2) := by ring
    _ ≤ t * 2 ^ ((g : ℤ) - 1074) := mul_le_mul ht hpow (by positivity) (by linarith)
    _ = u * 2 ^ ((k : ℤ) - 1074) := h

/-- Every magnitude is a significand above its unit. -/
theorem exists_units (mag : Nat) : ∃ g r, mag = g * 2 ^ 52 + r ∧ r < 2 ^ 53 ∧ (g = 0 ∨ 2 ^ 52 ≤ r) := by
  by_cases h : mag < 2 ^ 52
  · exact ⟨0, mag, by omega⟩
  · exact ⟨mag / 2 ^ 52 - 1, 2 ^ 52 + mag % 2 ^ 52, by omega⟩

/-- A value that a finite magnitude has is rounded to that magnitude. -/
theorem roundMag_of_value {m mag : Nat} {e : ℤ} (hfin : mag < infMag)
    (h : (m : ℚ) * 2 ^ e = magUnits mag * 2 ^ (-1074 : ℤ)) : roundMag m e = mag := by
  obtain ⟨g, r, rfl, hr, hg⟩ := exists_units mag
  have hunits : (m : ℚ) * 2 ^ e = r * 2 ^ ((g : ℤ) - 1074) :=
    h.trans (magUnits_value_of_units hr.le hg)
  by_cases hm : m = 0
  · have hr0 : r = 0 := by
      rw [hm, Nat.cast_zero, zero_mul, eq_comm, mul_eq_zero, Nat.cast_eq_zero] at hunits
      exact hunits.resolve_right (zpow_ne_zero _ two_ne_zero)
    obtain rfl : g = 0 := by omega
    simp [roundMag, hm, hr0]
  · have hsame := (unitsAt_mul m e (quantum m e)).trans hunits
    have hlt : (r : ℚ) < 2 ^ 53 := by exact_mod_cast hr
    have hle : g = 0 ∨ (2 : ℚ) ^ 52 ≤ r := hg.imp_right fun h => by exact_mod_cast h
    have hquantum : quantum m e = g := Nat.le_antisymm (unit_le (le_unitsAt_quantum hm e) hlt hsame)
      (unit_le hle (unitsAt_quantum_lt m e) hsame.symm)
    have hround := roundToQuantum_nearest m e
    rw [hquantum] at hsame hround
    rw [mul_right_cancel₀ (by positivity) hsame] at hround
    rw [roundMag, if_neg hm, hquantum, hround.eq_of_nat, min_eq_right hfin.le]

/-- Every integer of at most 53 bits, and 2^53, is the value of a finite encoding. -/
theorem exists_mag_of_le {n : Nat} (hn : n ≤ 2 ^ 53) :
    ∃ mag < infMag, magUnits mag = n * 2 ^ 1074 := by
  have hinf : infMag = 2047 * 2 ^ 52 := rfl
  by_cases h0 : n = 0
  · exact ⟨0, by decide, by rw [h0, Nat.zero_mul]; rfl⟩
  rcases Nat.eq_or_lt_of_le hn with rfl | hlt
  · refine ⟨(1074 + 1) * 2 ^ 52 + 2 ^ 52, by omega, ?_⟩
    generalize 1074 = k
    rw [magUnits_of_units (by decide) (.inr le_rfl)]
    ring
  · have hlog : n.log2 < 53 := (Nat.log2_lt h0).mpr hlt
    have hle : 2 ^ 52 ≤ n * 2 ^ (52 - n.log2) := by
      calc 2 ^ 52 = 2 ^ n.log2 * 2 ^ (52 - n.log2) := by rw [← Nat.pow_add]; congr 1; omega
        _ ≤ n * 2 ^ (52 - n.log2) := Nat.mul_le_mul_right _ (Nat.log2_self_le h0)
    have hle' : n * 2 ^ (52 - n.log2) ≤ 2 ^ 53 := by
      calc n * 2 ^ (52 - n.log2)
          ≤ 2 ^ (n.log2 + 1) * 2 ^ (52 - n.log2) := Nat.mul_le_mul_right _ Nat.lt_log2_self.le
        _ = 2 ^ 53 := by rw [← Nat.pow_add]; congr 1; omega
    refine ⟨(1022 + n.log2) * 2 ^ 52 + n * 2 ^ (52 - n.log2), by omega, ?_⟩
    rw [magUnits_of_units hle' (.inr hle), Nat.mul_assoc, ← Nat.pow_add]
    congr 2
    omega

/-- `f64` of an integer of magnitude up to 2^53: no rounding takes place. -/
theorem f64Mag_f64_exact {n : ℤ} (hn : n.natAbs ≤ 2 ^ 53) :
    f64Mag (f64 n) < infMag ∧ magUnits (f64Mag (f64 n)) = n.natAbs * 2 ^ 1074 := by
  obtain ⟨mag, hfin, hunits⟩ := exists_mag_of_le hn
  have hround : roundMag n.natAbs 0 = mag := by
    refine roundMag_of_value hfin ?_
    rw [hunits, Nat.cast_mul, mul_assoc, Nat.cast_pow, Nat.cast_ofNat, ← zpow_natCast,
      ← zpow_add₀ two_ne_zero]
    rfl
  rw [f64, hround, f64Mag_packSign _ (hfin.trans (by decide))]
  exact ⟨hfin, hunits⟩

theorem magUnits_eq_zero_iff (mag : Nat) : magUnits mag = 0 ↔ mag = 0 := by
  rw [magUnits]
  split_ifs with h
  · rfl
  · exact iff_of_false (Nat.mul_pos (by omega) (Nat.two_pow_pos _)).ne' (by omega)

/-- A small integer's encoding is finite, and a zero for 0 alone. -/
theorem f64Mag_f64_small {n : Nat} (hn : n ≤ 2 ^ 53) :
    f64Mag (f64 n) < infMag ∧ (f64Mag (f64 n) = 0 ↔ n = 0) := by
  obtain ⟨hfin, hunits⟩ := f64Mag_f64_exact (n := n) (by rwa [Int.natAbs_natCast])
  refine ⟨hfin, ?_⟩
  rw [← magUnits_eq_zero_iff, hunits, Int.natAbs_natCast, Nat.mul_eq_zero]
  generalize 1074 = k
  exact or_iff_left (Nat.two_pow_pos k).ne'

/-- Settles O21: the encoding of such an integer has its units. -/
theorem f64ExactUpTo53Bits : Obligations.F64ExactUpTo53Bits := by
  unfold Obligations.F64ExactUpTo53Bits
  intro n hn
  obtain ⟨hfin, hunits⟩ := f64Mag_f64_exact hn
  exact ⟨f64Sign_packSign _ _, (f64Exp_lt_iff _).mpr hfin, (signif_mul_scale _).trans hunits⟩

/-- Settles O24: infinity keeps its magnitude, and a finite product with 1.0 is a value the other operand
has. -/
theorem mulfByOne : Obligations.MulfByOne := by
  unfold Obligations.MulfByOne
  intro a hnan
  have hsign : (f64Sign a ^^ f64Sign 0x3FF0000000000000#64) = f64Sign a := Bool.xor_false _
  rw [← Bool.not_eq_true, f64IsNaN_iff] at hnan
  rcases Nat.eq_or_lt_of_le (not_lt.mp hnan) with hinf | hfin
  · rw [mulf_inf ((f64IsInf_iff a).mpr hinf) (by decide) (by decide), hsign, ← hinf, packSign_f64Mag]
  · have hone : f64Mag 0x3FF0000000000000#64 < infMag := by decide
    have hvalue : ((f64Signif a * f64Signif 0x3FF0000000000000#64 : Nat) : ℚ) *
        2 ^ (f64Scale a + f64Scale 0x3FF0000000000000#64) =
          magUnits (f64Mag a) * 2 ^ (-1074 : ℤ) := by
      have hsignif : f64Signif 0x3FF0000000000000#64 = 2 ^ 52 := by decide
      have hscale : f64Scale 0x3FF0000000000000#64 = -52 := by decide
      rw [← signif_mul_zpow_scale, hsignif, hscale, zpow_add₀ two_ne_zero]
      push_cast
      norm_num
      ring
    rw [mulf_finite hfin hone, roundMag_of_value hfin hvalue, hsign, packSign_f64Mag]

end Sys2Proof.Machine
end

section
/-! PROOF. The bit-field codec's commands (40_bitfield_codec R73 to R84): their words, one equation for
what each does to the state, and the laws of the fields they read and write. -/

namespace Sys2Proof.Machine

/-! ## Words -/

/-- The decoder on the words of a row's opcode. -/
theorem decode_row {r : OpRow} (hr : r ∈ opRows) (imm : Byte) (rsv : BitVec 16) :
    decode (r.op ++ imm ++ rsv) =
      if rsv ≠ 0#16 then .error .reservedBits
      else if r.admits imm then .ok (r.build imm) else .error r.reject := by
  rw [decode, opField_append, immField_append, rsvField_append, opRows_find_of_mem hr]

theorem encodedWith_of_row {op : Byte} {admits : Byte → Bool} {build : Byte → Instr}
    (reject : DecodeReject) {admitted : Nat → Prop}
    (hr : (⟨op, admits, reject, build⟩ : OpRow) ∈ opRows)
    (h : ∀ imm, admits imm = true ↔ admitted imm.toNat) : encodedWith op build admitted := by
  intro imm rsv
  have hdecode := decode_row hr imm rsv
  simp only [← h]
  refine ⟨fun ⟨himm, hrsv⟩ => ?admitted, fun hn s => ?rejected⟩
  case admitted => simpa [hrsv, himm] using hdecode
  case rejected =>
    rw [runCommand, hdecode]
    split_ifs with h1 h2
    · exact raise_eq _ s
    · exact absurd ⟨h2, not_not.mp h1⟩ hn
    · exact raise_eq _ s

theorem encodedPlain_of_row {op : Byte} {i : Instr} (hr : OpRow.plain op i ∈ opRows) :
    encodedPlain op i := by
  have h := encodedWith_of_row .unusedImmediate (admitted := fun imm => imm = 0) hr
    fun imm => by rw [beq_iff_eq, BitVec.toNat_eq]; rfl
  refine ⟨(h 0#8 0#16).1 ⟨rfl, rfl⟩, fun imm rsv hn => (h imm rsv).2 ?_⟩
  rwa [BitVec.toNat_eq] at hn

/-! ## What each command does -/

/-- A check that holds leaves what comes after it. -/
theorem guard_pos {b : Bool} (h : b = true) (code : ErrCode) (s : State) (r : Result) :
    (if !b then raise code s else r) = r := by
  simp [h]

/-- One spec lemma for the shared end of the cursor commands: the range check, then the advance. -/
theorem overCursor_eq (n : Nat) (s u : State) :
    (if !cursorFits s n then raise .outOfRange s else complete (advanceCursor u n)) =
      if s.bitpos.toNat + n ≤ 8 * s.clen.toNat then
        .next { u with bitpos := BitVec.ofNat 32 (u.bitpos.toNat + n), lastErr := .none }
      else .next (faulted .outOfRange s) := by
  by_cases h : s.bitpos.toNat + n ≤ 8 * s.clen.toNat
  · rw [guard_pos ((cursorFits_iff s n).mpr h), if_pos h, complete_eq, advanceCursor_eq]
  · have : cursorFits s n = false := decide_eq_false h
    simp [this, h, raise_eq]

theorem cursorField_eq (s : State) (w : Nat) : cursorField s w = fieldValue s.cbuf s.bitpos.toNat w :=
  cbufBits_eq _ _ _

theorem exec_rdu {w : Byte} (h1 : 1 ≤ w.toNat) (h32 : w.toNat ≤ 32) (s : State) : exec (.rdu w) s =
    if s.bitpos.toNat + w.toNat ≤ 8 * s.clen.toNat then
      .next { s with
        res := BitVec.ofNat 64 (fieldValue s.cbuf s.bitpos.toNat w.toNat)
        bitpos := BitVec.ofNat 32 (s.bitpos.toNat + w.toNat)
        lastErr := .none }
    else .next (faulted .outOfRange s) := by
  rw [← cursorField_eq]
  exact (guard_pos ((fieldWidthOk_iff w).mpr ⟨h1, h32⟩) _ _ _).trans (overCursor_eq _ _ _)

theorem exec_wru {w : Byte} (h1 : 1 ≤ w.toNat) (h32 : w.toNat ≤ 32) (s : State) : exec (.wru w) s =
    if s.bitpos.toNat + w.toNat ≤ 8 * s.clen.toNat then
      .next { s with
        cbuf := s.cbuf.writeBits s.bitpos.toNat w.toNat (s.val.toNat % 2 ^ w.toNat)
        bitpos := BitVec.ofNat 32 (s.bitpos.toNat + w.toNat)
        lastErr := .none }
    else .next (faulted .outOfRange s) :=
  (guard_pos ((fieldWidthOk_iff w).mpr ⟨h1, h32⟩) _ _ _).trans (overCursor_eq _ _ _)

theorem exec_rdsm {w : Byte} (h2 : 2 ≤ w.toNat) (h32 : w.toNat ≤ 32) (s : State) : exec (.rdsm w) s =
    if s.bitpos.toNat + w.toNat ≤ 8 * s.clen.toNat then
      .next { s with
        res := BitVec.ofNat 64 (fieldValue s.cbuf s.bitpos.toNat w.toNat)
        fres := signMagValue (fieldValue s.cbuf s.bitpos.toNat w.toNat) w.toNat
        bitpos := BitVec.ofNat 32 (s.bitpos.toNat + w.toNat)
        lastErr := .none }
    else .next (faulted .outOfRange s) := by
  rw [← cursorField_eq]
  exact (guard_pos ((signMagWidthOk_iff w).mpr ⟨h2, h32⟩) _ _ _).trans (overCursor_eq _ _ _)

theorem exec_rdx38 (s : State) : exec .rdx38 s =
    if s.bitpos.toNat + 38 ≤ 8 * s.clen.toNat then
      .next { s with
        res := extended38 (fieldValue s.cbuf s.bitpos.toNat 38)
        fres := f64 (extended38 (fieldValue s.cbuf s.bitpos.toNat 38)).toInt
        bitpos := BitVec.ofNat 32 (s.bitpos.toNat + 38)
        lastErr := .none }
    else .next (faulted .outOfRange s) := by
  rw [← cursorField_eq]
  exact overCursor_eq _ _ _

/-! ## Unsigned fields -/

/-- Settles O13: its row's words, and the equation of RDU. -/
theorem rduReadsField : Obligations.RduReadsField := by
  unfold Obligations.RduReadsField
  refine ⟨encodedWith_of_row .fieldWidth (by simp [opRows]) fieldWidthOk_iff, fun w s =>
    ⟨fun h1 h32 fits => ⟨?_, fieldValue_lt _ _ _⟩, fun h1 h32 past => ?_⟩⟩
  · rw [exec_rdu h1 h32, if_pos fits]
  · rw [exec_rdu h1 h32, if_neg (not_le.mpr past)]

/-- Settles O14: the bits of the new buffer are those `Memory.streamBit_writeBits` gives. -/
theorem wruWritesField : Obligations.WruWritesField := by
  unfold Obligations.WruWritesField
  refine ⟨encodedWith_of_row .fieldWidth (by simp [opRows]) fieldWidthOk_iff, fun w s =>
    ⟨fun h1 h32 fits wf => ⟨_, by rw [exec_wru h1 h32, if_pos fits], ?inside, ?outside, ?bytes⟩,
      fun h1 h32 past => by rw [exec_wru h1 h32, if_neg (not_le.mpr past)]⟩⟩
  case inside =>
    intro i hi
    refine (Memory.streamBit_writeBits _ _ _ wf _ _).trans ?_
    have hbit : s.bitpos.toNat + w.toNat - 1 - (s.bitpos.toNat + i) = w.toNat - 1 - i := by omega
    rw [if_pos (by omega), hbit, Nat.testBit_mod_two_pow, decide_eq_true (by omega), Bool.true_and]
    rfl
  case outside =>
    intro q hq
    exact (Memory.streamBit_writeBits _ _ _ wf _ _).trans (if_neg (by omega))
  case bytes =>
    intro a ha
    exact Memory.read_writeBits_ne _ _ _ _ _ fun i hi => by omega

/-! ## Signed fields -/

/-- A field's first bit, then the rest of it. -/
theorem fieldValue_succ_left (m : Memory) (p w : Nat) : fieldValue m p (w + 1) =
    2 ^ w * (streamBit m.read p).toNat + fieldValue m (p + 1) w := by
  have h := streamBits_succ_left m.read p w
  rwa [streamBits_eq_sum, streamBits_eq_sum] at h

/-- What RDSM puts in FRES: the field's first bit as the sign, the rest of it converted. -/
theorem signMagValue_fieldValue (m : Memory) (p : Nat) {w : Nat} (hw : 1 ≤ w) :
    signMagValue (fieldValue m p w) w =
      packSign (streamBit m.read p) (f64Mag (f64 (fieldValue m (p + 1) (w - 1) : Nat))) := by
  obtain ⟨k, rfl⟩ := Nat.exists_eq_add_of_le' hw
  have hfirst := testBit_fieldValue m (p := p) (show 0 < k + 1 by omega)
  rw [signMagValue, Nat.add_sub_cancel, fieldValue_mod_top]
  exact congrArg (packSign · _) hfirst

/-- Settles O15: its row's words, and the equation of RDSM. -/
theorem rdsmReadsSignMagnitude : Obligations.RdsmReadsSignMagnitude := by
  unfold Obligations.RdsmReadsSignMagnitude
  refine ⟨encodedWith_of_row .signMagWidth (by simp [opRows]) signMagWidthOk_iff, fun w s =>
    ⟨fun h2 h32 fits => ?_, fun h2 h32 past => by rw [exec_rdsm h2 h32, if_neg (not_le.mpr past)]⟩⟩
  rw [exec_rdsm h2 h32, if_pos fits, signMagValue_fieldValue _ _ (by omega), packSign, f64Mag,
    BitVec.ofNat_toNat, BitVec.setWidth_eq]
  rfl

/-- Settles O16: the magnitude is converted exactly, so FRES's magnitude is 0 only for a zero one. -/
theorem signMagnitudeSign : Obligations.SignMagnitudeSign := by
  unfold Obligations.SignMagnitudeSign
  intro w s h2 h32 fits
  refine ⟨_, by rw [exec_rdsm h2 h32, if_pos fits], ?_⟩
  obtain ⟨k, hk⟩ := Nat.exists_eq_add_of_le' (show 1 ≤ w.toNat by omega)
  have hlt := fieldValue_lt s.cbuf (s.bitpos.toNat + 1) k
  have hpow : 2 ^ k ≤ 2 ^ 31 := Nat.pow_le_pow_right (by omega) (by omega)
  obtain ⟨hfin, hzero⟩ := f64Mag_f64_small (n := fieldValue s.cbuf (s.bitpos.toNat + 1) k) (by omega)
  have hmag := hfin.trans (show infMag < 2 ^ 63 by decide)
  have hminus : 0x8000000000000000#64 = packSign true 0 := rfl
  have hplus : 0#64 = packSign false 0 := rfl
  dsimp only
  rw [signMagValue_fieldValue _ _ (by omega), hk, Nat.add_sub_cancel, fieldValue_succ_left, hminus,
    hplus, packSign_inj hmag (by decide), packSign_inj hmag (by decide), hzero, f64Exp_lt_iff,
    f64Mag_packSign _ hmag]
  refine ⟨f64Sign_packSign _ _, ?minusZero, ?plusZero, hfin⟩
  case minusZero =>
    cases streamBit s.cbuf.read s.bitpos.toNat
    · simpa using hlt.ne
    · simp
  case plusZero => cases streamBit s.cbuf.read s.bitpos.toNat <;> simp

/-- The 38-bit two's-complement number of a raw field: its first bit is the sign. -/
theorem extended38_toInt (m : Memory) (p : Nat) : (extended38 (fieldValue m p 38)).toInt =
    if streamBit m.read p then (fieldValue m p 38 : ℤ) - 2 ^ 38 else (fieldValue m p 38 : ℤ) := by
  have hlt := fieldValue_lt m (p + 1) 37
  have hraw : fieldValue m p 38 = _ := fieldValue_succ_left m p 37
  rw [extended38, BitVec.toInt_signExtend_of_le (by decide), BitVec.toInt_eq_toNat_cond,
    BitVec.toNat_ofNat, Nat.mod_eq_of_lt (fieldValue_lt m p 38)]
  cases hsign : streamBit m.read p with
  | false =>
    rw [hsign, Bool.toNat_false] at hraw
    rw [if_pos (by omega), if_neg Bool.false_ne_true]
  | true =>
    rw [hsign, Bool.toNat_true] at hraw
    rw [if_neg (by omega), if_pos rfl, Nat.cast_pow, Nat.cast_ofNat]

/-- Settles O17: its row's word, the equation of RDX38, and the range of a 38-bit number. -/
theorem rdx38ReadsExtended : Obligations.Rdx38ReadsExtended := by
  unfold Obligations.Rdx38ReadsExtended
  refine ⟨encodedPlain_of_row (by simp [opRows]), fun s => ⟨fun fits => ?_, fun past => by
    rw [exec_rdx38, if_neg (not_le.mpr past)]⟩⟩
  have hmin : -(2 : ℤ) ^ (38 - 1) ≤ (extended38 (fieldValue s.cbuf s.bitpos.toNat 38)).toInt := by
    rw [extended38, BitVec.toInt_signExtend_of_le (by decide)]
    exact BitVec.le_toInt _
  have hmax : (extended38 (fieldValue s.cbuf s.bitpos.toNat 38)).toInt < (2 : ℤ) ^ (38 - 1) := by
    rw [extended38, BitVec.toInt_signExtend_of_le (by decide)]
    exact BitVec.toInt_lt
  refine ⟨(extended38 (fieldValue s.cbuf s.bitpos.toNat 38)).toInt, extended38_toInt _ _, hmin,
    by omega, ?_⟩
  rw [exec_rdx38, if_pos fits, BitVec.ofInt_toInt]

/-! ## Programs of codec commands -/

theorem seek_bitpos {p : Word} {s : State} (h : p.toNat ≤ 8 * s.clen.toNat) : (seek p s).bitpos = p := by
  have hmin : min p.toNat (viewBits s) = p.toNat := Nat.min_eq_left h
  rw [seek, writeReg, writeBitpos_bitpos, hmin, BitVec.ofNat_toNat, BitVec.setWidth_eq]

@[simp] theorem seek_clen (p : Word) (s : State) : (seek p s).clen = s.clen := rfl
@[simp] theorem seek_cbuf (p : Word) (s : State) : (seek p s).cbuf = s.cbuf := rfl

@[simp] theorem setval_val (v : DWord) (s : State) : (setval v s).val = v := by
  simp [setval, writeReg, withHighWord, withLowWord, lowWord_append, highWord_append_lowWord]

@[simp] theorem setval_bitpos (v : DWord) (s : State) : (setval v s).bitpos = s.bitpos := rfl
@[simp] theorem setval_clen (v : DWord) (s : State) : (setval v s).clen = s.clen := rfl
@[simp] theorem setval_cbuf (v : DWord) (s : State) : (setval v s).cbuf = s.cbuf := rfl

/-- RDU after a SEEK to a field of the view. -/
theorem rdu_after_seek {w : Byte} (h1 : 1 ≤ w.toNat) (h32 : w.toNat ≤ 32) {p : Word} {s : State}
    (fits : p.toNat + w.toNat ≤ 8 * s.clen.toNat) : ∃ t, exec (.rdu w) (seek p s) = .next t ∧
      t.res.toNat = fieldValue s.cbuf p.toNat w.toNat ∧
      t.bitpos = BitVec.ofNat 32 (p.toNat + w.toNat) ∧ t.clen = s.clen ∧ t.cbuf = s.cbuf := by
  have hseek : (seek p s).bitpos = p := seek_bitpos (by omega)
  have hexec := exec_rdu h1 h32 (seek p s)
  rw [hseek, seek_clen, if_pos fits] at hexec
  refine ⟨_, hexec, ?_, rfl, seek_clen p s, seek_cbuf p s⟩
  have hpow : 2 ^ w.toNat ≤ 2 ^ 64 := Nat.pow_le_pow_right (by omega) (by omega)
  exact (BitVec.toNat_ofNat _ _).trans (Nat.mod_eq_of_lt ((fieldValue_lt _ _ _).trans_le hpow))

/-- WRU of `v` after a SEEK to a field of the view. -/
theorem wru_after_seek {w : Byte} (h1 : 1 ≤ w.toNat) (h32 : w.toNat ≤ 32) {p : Word} (v : DWord)
    {s : State} (fits : p.toNat + w.toNat ≤ 8 * s.clen.toNat) :
    ∃ t, exec (.wru w) (setval v (seek p s)) = .next t ∧
      t.cbuf = s.cbuf.writeBits p.toNat w.toNat (v.toNat % 2 ^ w.toNat) ∧ t.clen = s.clen := by
  have hseek : (seek p s).bitpos = p := seek_bitpos (by omega)
  have hexec := exec_wru h1 h32 (setval v (seek p s))
  rw [setval_bitpos, setval_clen, setval_cbuf, setval_val, hseek, seek_clen, seek_cbuf, if_pos fits]
    at hexec
  exact ⟨_, hexec, rfl, rfl⟩

/-- A field reads back the number written to it. -/
theorem fieldValue_writeBits {m : Memory} (h : m.wf = true) (p : Nat) {w v : Nat} (hv : v < 2 ^ w) :
    fieldValue (m.writeBits p w v) p w = v := by
  have hread := streamBits_eq_of_testBit (f := (m.writeBits p w v).read) (p := p) hv fun i hi => by
    have hbit : p + w - 1 - (p + i) = w - 1 - i := by omega
    rw [Memory.streamBit_writeBits m p _ h, if_pos (by omega), hbit]
  rwa [streamBits_eq_sum] at hread

/-- Settles O18: RDU reads what WRU wrote, and the cursor's advance does not wrap. -/
theorem fieldRoundTrip : Obligations.FieldRoundTrip := by
  unfold Obligations.FieldRoundTrip
  intro w v p s h1 h32 wf view fits
  obtain ⟨s', hwru, hcbuf, hclen⟩ := wru_after_seek h1 h32 v fits
  obtain ⟨t, hrdu, hres, hbitpos, -, -⟩ := rdu_after_seek h1 h32 (s := s') (by rwa [hclen])
  refine ⟨s', t, hwru, hrdu, ?_, ?_⟩
  · rw [hres, hcbuf, fieldValue_writeBits wf _ (Nat.mod_lt _ (Nat.two_pow_pos _))]
  · rw [hbitpos, BitVec.toNat_ofNat]
    omega

/-- Settles O19: a field is its two parts side by side. -/
theorem rdx38IsTwoReads : Obligations.Rdx38IsTwoReads := by
  unfold Obligations.Rdx38IsTwoReads
  intro p s view fits
  have hseek : (seek p s).bitpos = p := seek_bitpos (by omega)
  have hexec := exec_rdx38 (seek p s)
  rw [hseek, seek_clen, seek_cbuf, if_pos fits] at hexec
  have hnext : (p + 32#32).toNat = p.toNat + 32 := advance_toNat p 32 (by omega)
  obtain ⟨h, hrdu, hres, -, hclen, hcbuf⟩ :=
    rdu_after_seek (w := 32#8) (by decide) (by decide) (p := p) (s := s) (by norm_num; omega)
  obtain ⟨l, hrdu', hres', -, -, -⟩ := rdu_after_seek (w := 6#8) (by decide) (by decide)
    (p := p + 32#32) (s := h) (by rw [hclen, hnext]; norm_num; omega)
  refine ⟨_, h, l, hexec, hrdu, hrdu', ?_⟩
  rw [hres, hres', hcbuf, hnext, Nat.mul_comm]
  exact congrArg extended38 (fieldValue_add s.cbuf p.toNat 32 6)

/-! ## Scale commands -/

theorem scaleConst_eq (s : State) {k : Byte} (h : k.toNat < 16) : scaleConst s k = s.ktab[k.toNat]'h := by
  simp [scaleConst, h]

/-- Settles O20: the rows' words; each command is its one check, then the product. -/
theorem scaleCommandsMultiply : Obligations.ScaleCommandsMultiply := by
  unfold Obligations.ScaleCommandsMultiply
  have hindex (k : Byte) : scaleIndexOk k = true ↔ k.toNat ≤ 15 := decide_eq_true_iff
  refine ⟨encodedWith_of_row .scaleIndex (by simp [opRows]) hindex,
    encodedWith_of_row .scaleIndex (by simp [opRows]) hindex,
    encodedWith_of_row .scaleIndex (by simp [opRows]) hindex, fun k s h => ?_⟩
  rw [← scaleConst_eq s h]
  have hk := (scaleIndexOk_iff k).mpr h
  exact ⟨guard_pos hk _ _ _, guard_pos hk _ _ _, guard_pos hk _ _ _⟩

end Sys2Proof.Machine
end

section
/-! PROOF. The checksum commands (41_checksum_engine R85 to R94): their words, one equation for what
each does to the state, and the closed forms of XOR8, SUM2 and the two bit orders CRC-24Q reads. -/

namespace Sys2Proof.Machine

/-! ## Register words of two bytes -/

/-- CKRES and CKHEX as {0x0000, hi, lo}. -/
theorem zero_append_bytes (hi lo : Byte) :
    0#16 ++ hi ++ lo = BitVec.ofNat 32 (lo.toNat + 2 ^ 8 * hi.toNat) := by
  apply BitVec.eq_of_toNat_eq
  have := hi.isLt
  have := lo.isLt
  rw [BitVec.toNat_append, BitVec.toNat_append, BitVec.toNat_ofNat, BitVec.toNat_ofNat,
    ← Nat.shiftLeft_add_eq_or_of_lt lo.isLt]
  simp only [Nat.shiftLeft_eq, Nat.zero_mod, Nat.zero_mul, Nat.zero_or]
  omega

/-! ## The range check -/

/-- A checksum command's one check, as a proposition. -/
theorem rangeChecked_eq {fits : Bool} {P : Prop} [Decidable P] (h : fits = true ↔ P) (s u : State) :
    (if !fits then raise .outOfRange s else complete u) =
      if P then .next { u with lastErr := .none } else .next (faulted .outOfRange s) := by
  cases fits with
  | true => exact (if_pos (h.mp rfl)).symm
  | false => exact (if_neg fun p => Bool.false_ne_true (h.mpr p)).symm

/-! ## XOR8 -/

/-- Bit k of a running XOR flips with each byte that has bit k set. -/
theorem getLsbD_foldl_xor (k : Nat) (bytes : List Byte) (c : Byte) :
    (bytes.foldl (fun c d => c ^^^ d) c).getLsbD k =
      (c.getLsbD k ^^ decide (bytes.countP (fun d => d.getLsbD k) % 2 = 1)) := by
  induction bytes generalizing c with
  | nil => simp
  | cons d bytes ih =>
    have hparity (n : Nat) : decide ((n + 1) % 2 = 1) = !decide (n % 2 = 1) := by
      rw [← decide_not, decide_eq_decide]
      omega
    rw [List.foldl_cons, ih, BitVec.getLsbD_xor, List.countP_cons]
    cases d.getLsbD k with
    | false => simp
    | true => simp [hparity]

theorem getLsbD_xor8 (bytes : List Byte) (k : Nat) : (xor8 bytes).getLsbD k =
    decide (bytes.countP (fun d => d.getLsbD k) % 2 = 1) := by
  rw [xor8, getLsbD_foldl_xor, BitVec.getLsbD_zero, Bool.false_xor]

theorem hexDigit_toNat (v : BitVec 4) : (hexDigit v).toNat =
    if v.toNat < 10 then 0x30 + v.toNat else 0x41 + (v.toNat - 10) := by
  have := v.isLt
  unfold hexDigit
  split
  · rw [BitVec.toNat_add, BitVec.toNat_setWidth, BitVec.toNat_ofNat]
    omega
  · rw [BitVec.toNat_add, BitVec.toNat_sub, BitVec.toNat_setWidth, BitVec.toNat_ofNat,
      BitVec.toNat_ofNat]
    omega

/-- CKHEX of a byte: the digit of its high nibble in bits 7:0, that of its low one in bits 15:8. -/
theorem hexPair_eq (c : Byte) : hexPair c = BitVec.ofNat 32
    ((if c.toNat / 16 < 10 then 0x30 + c.toNat / 16 else 0x41 + (c.toNat / 16 - 10)) +
      2 ^ 8 * (if c.toNat % 16 < 10 then 0x30 + c.toNat % 16 else 0x41 + (c.toNat % 16 - 10))) := by
  have hhigh : (c.extractLsb' 4 4).toNat = c.toNat / 16 := by
    have := c.isLt
    rw [BitVec.extractLsb'_toNat, Nat.shiftRight_eq_div_pow]
    omega
  have hlow : (c.extractLsb' 0 4).toNat = c.toNat % 16 := BitVec.extractLsb'_toNat _ _ _
  rw [hexPair, zero_append_bytes, hexDigit_toNat, hexDigit_toNat, hhigh, hlow]

theorem exec_xor8 (s : State) : exec .xor8 s =
    if s.arg0.toNat + s.arg1.toNat ≤ s.clen.toNat then
      .next { s with
        ckres := (xor8 (bytesAt s.cbuf s.arg0.toNat s.arg1.toNat)).setWidth 32
        ckhex := hexPair (xor8 (bytesAt s.cbuf s.arg0.toNat s.arg1.toNat))
        lastErr := .none }
    else .next (faulted .outOfRange s) := by
  rw [← cbufBytes_eq]
  exact rangeChecked_eq (byteRangeFits_iff s) s _

/-- Settles O25: each bit of the XOR is a parity, and its nibbles are CKHEX's digits. -/
theorem xor8Checksum : Obligations.Xor8Checksum := by
  unfold Obligations.Xor8Checksum
  refine ⟨encodedPlain_of_row (by simp [opRows]), fun s => ⟨fun fits => ?_, fun past => ?_⟩⟩
  · refine ⟨xor8 (bytesAt s.cbuf s.arg0.toNat s.arg1.toNat), fun k _ => getLsbD_xor8 _ k, ?_⟩
    rw [exec_xor8, if_pos fits, ← hexPair_eq, ← BitVec.ofNat_toNat]
  · rw [exec_xor8, if_neg (by omega)]

/-! ## SUM2 -/

/-- The sum of the bytes m[start], ..., m[start + n - 1]. -/
def byteSum (m : Memory) (start n : Nat) : Nat := ∑ j ∈ Finset.range n, (m.read (start + j)).toNat

/-- The sum of the same bytes, each times the number of bytes from it to the end. -/
def weightedByteSum (m : Memory) (start n : Nat) : Nat :=
  ∑ j ∈ Finset.range n, (n - j) * (m.read (start + j)).toNat

theorem byteSum_succ (m : Memory) (start n : Nat) :
    byteSum m start (n + 1) = byteSum m start n + (m.read (start + n)).toNat :=
  Finset.sum_range_succ _ _

/-- One byte more raises the weight of every byte by one. -/
theorem weightedByteSum_succ (m : Memory) (start n : Nat) :
    weightedByteSum m start (n + 1) = weightedByteSum m start n + byteSum m start (n + 1) := by
  have hlast : weightedByteSum m start n =
      ∑ j ∈ Finset.range (n + 1), (n - j) * (m.read (start + j)).toNat := by
    rw [Finset.sum_range_succ, Nat.sub_self, Nat.zero_mul, Nat.add_zero, weightedByteSum]
  rw [hlast, weightedByteSum, byteSum, ← Finset.sum_add_distrib]
  refine Finset.sum_congr rfl fun j hj => ?_
  have hj : j < n + 1 := Finset.mem_range.mp hj
  rw [Nat.succ_sub (Nat.le_of_lt_succ hj), Nat.succ_mul]

theorem bytesAt_succ (m : Memory) (start n : Nat) :
    bytesAt m start (n + 1) = bytesAt m start n ++ [m.read (start + n)] := by
  simp [bytesAt, List.range_succ]

/-- The running pair is the two closed sums, mod 256. -/
theorem sum2_bytesAt (m : Memory) (start n : Nat) : sum2 (bytesAt m start n) =
    (BitVec.ofNat 8 (byteSum m start n), BitVec.ofNat 8 (weightedByteSum m start n)) := by
  induction n with
  | zero => rfl
  | succ n ih =>
    have hstep : sum2 (bytesAt m start (n + 1)) =
        sum2Byte (sum2 (bytesAt m start n)) (m.read (start + n)) := by
      rw [bytesAt_succ, sum2, List.foldl_append]
      rfl
    have hsum : BitVec.ofNat 8 (byteSum m start (n + 1)) =
        BitVec.ofNat 8 (byteSum m start n) + m.read (start + n) := by
      rw [byteSum_succ, BitVec.ofNat_add, BitVec.ofNat_toNat, BitVec.setWidth_eq]
    rw [hstep, ih, sum2Byte, weightedByteSum_succ, BitVec.ofNat_add, hsum]

/-- Settles O26: the shared range rule, with the pair in closed form. -/
theorem sum2Checksum : Obligations.Sum2Checksum := by
  unfold Obligations.Sum2Checksum
  refine ⟨encodedPlain_of_row (by simp [opRows]), fun s => ⟨fun fits => ?_, fun past => ?_⟩⟩
  · have hword : sum2Word (bytesAt s.cbuf s.arg0.toNat s.arg1.toNat) =
        BitVec.ofNat 32 (byteSum s.cbuf s.arg0.toNat s.arg1.toNat % 256 +
          2 ^ 8 * (weightedByteSum s.cbuf s.arg0.toNat s.arg1.toNat % 256)) := by
      rw [sum2Word, sum2_bytesAt, zero_append_bytes, BitVec.toNat_ofNat, BitVec.toNat_ofNat]
    refine (overArgBytes_eq sum2Word s).trans ?_
    rw [if_pos fits, hword]
    rfl
  · exact (overArgBytes_eq sum2Word s).trans (if_neg (by omega))

/-! ## CRC32 and CRC24Q -/

/-- The bits of byte `a` in bitstream order (00_scope R8). -/
theorem streamBit_mul_add (byteAt : Nat → Byte) (a : Nat) {i : Nat} (hi : i < 8) :
    streamBit byteAt (8 * a + i) = (byteAt a).getLsbD (7 - i) := by
  rw [streamBit, Nat.mul_add_div (by decide), Nat.mul_add_mod, Nat.div_eq_of_lt hi,
    Nat.mod_eq_of_lt hi, Nat.add_zero]

theorem byteBits_read (m : Memory) (a : Nat) :
    byteBits (m.read a) = (List.range 8).map (fun i => streamBit m.read (8 * a + i)) := by
  have hmap : byteBits (m.read a) = (List.range 8).map (fun i => (m.read a).getLsbD (7 - i)) := rfl
  rw [hmap]
  exact List.map_congr_left fun i hi => (streamBit_mul_add m.read a (List.mem_range.mp hi)).symm

/-- The bits of a byte range are the stretch of the bitstream from its first byte on. -/
theorem bytesBits_bytesAt (m : Memory) (start n : Nat) : bytesBits (bytesAt m start n) =
    (List.range (8 * n)).map (fun j => streamBit m.read (8 * start + j)) := by
  induction n with
  | zero => rfl
  | succ n ih =>
    have hlast : bytesBits [m.read (start + n)] = byteBits (m.read (start + n)) :=
      List.flatMap_singleton _ _
    have happend : bytesBits (bytesAt m start (n + 1)) =
        bytesBits (bytesAt m start n) ++ byteBits (m.read (start + n)) := by
      rw [bytesAt_succ, ← hlast]
      exact List.flatMap_append
    rw [happend, ih, byteBits_read, Nat.mul_succ, List.range_add, List.map_append, List.map_map]
    simp only [Function.comp_def, Nat.mul_add, Nat.add_assoc]

/-- Settles O27: the shared range rule; CRC24Q's bytes are taken bit by bit in stream order. -/
theorem crcOverBytes : Obligations.CrcOverBytes := by
  unfold Obligations.CrcOverBytes
  refine ⟨encodedPlain_of_row (by simp [opRows]), encodedPlain_of_row (by simp [opRows]), fun s =>
    ⟨fun fits => ⟨?crc32, ?crc24q⟩, fun past => ?past⟩⟩
  case crc32 => exact (overArgBytes_eq (crc32 (crc32Preset s)) s).trans (if_pos fits)
  case crc24q =>
    rw [← bytesBits_bytesAt]
    exact (overArgBytes_eq (fun bs => (crc24qBytes bs).setWidth 32) s).trans (if_pos fits)
  case past =>
    have hpast : ¬ s.arg0.toNat + s.arg1.toNat ≤ s.clen.toNat := by omega
    exact ⟨(overArgBytes_eq (crc32 (crc32Preset s)) s).trans (if_neg hpast),
      (overArgBytes_eq (fun bs => (crc24qBytes bs).setWidth 32) s).trans (if_neg hpast)⟩

/-! ## CRC24QB -/

theorem exec_crc24qb (s : State) : exec .crc24qb s =
    if s.arg0.toNat + s.arg1.toNat ≤ 8 * s.clen.toNat then
      .next { s with
        ckres := (crc24q ((List.range s.arg1.toNat).map
          (fun j => streamBit s.cbuf.read (s.arg0.toNat + j)))).setWidth 32
        lastErr := .none }
    else .next (faulted .outOfRange s) := by
  rw [← cbufBitList_eq]
  exact rangeChecked_eq (bitRangeFits_iff s) s _

/-- Settles O28: CRC24QB's equation, whose stream bits are those of R8's formula. -/
theorem crc24qOverBits : Obligations.Crc24qOverBits := by
  unfold Obligations.Crc24qOverBits
  refine ⟨encodedPlain_of_row (by simp [opRows]), fun s => ⟨fun fits => ?_, fun past => ?_⟩⟩
  · exact (exec_crc24qb s).trans (if_pos fits)
  · exact (exec_crc24qb s).trans (if_neg (by omega))

end Sys2Proof.Machine
end

section
/-! PROOF. CRC-24Q as a polynomial remainder (41_checksum_engine R92). The register stands for a
polynomial of degree below 24; one bit step multiplies it by X and adds the message bit times X^24,
modulo the divisor. The law follows by induction on the message in the quotient ring by the divisor. -/

namespace Sys2Proof.Machine

open Polynomial

/-! ## Registers and bit strings as polynomials over the two-element field -/

/-- The polynomial a CRC-24Q register stands for: bit k is the coefficient of X^k. -/
noncomputable def registerPoly (c : BitVec 24) : (ZMod 2)[X] :=
  ∑ k ∈ Finset.range 24, if c.getLsbD k then X ^ k else 0

/-- The polynomial of a bit string, its first bit the leading coefficient. -/
noncomputable def bitsPoly (bits : List Bool) : (ZMod 2)[X] :=
  ∑ k ∈ Finset.range bits.length, if bits.getD k false then X ^ (bits.length - 1 - k) else 0

/-- The divisor of CRC-24Q: X^24 and the polynomial of 0x864CFB. -/
noncomputable def crc24qDivisor : (ZMod 2)[X] := X ^ 24 + registerPoly 0x864CFB#24

theorem registerPoly_xor (a b : BitVec 24) :
    registerPoly (a ^^^ b) = registerPoly a + registerPoly b := by
  simp only [registerPoly, BitVec.getLsbD_xor, ite_xor_eq_add, Finset.sum_add_distrib]

theorem degree_registerPoly_lt (c : BitVec 24) : (registerPoly c).degree < (24 : ℕ) := by
  rw [← mem_degreeLT]
  refine Submodule.sum_mem _ fun k hk => ?_
  split
  · exact mem_degreeLT.mpr (by simpa using Finset.mem_range.mp hk)
  · exact Submodule.zero_mem _

/-- Multiplying by X moves every bit up one place; bit 23 becomes the coefficient of X^24. -/
theorem X_mul_registerPoly (c : BitVec 24) :
    X * registerPoly c = registerPoly (c <<< 1) + if c.getLsbD 23 then X ^ 24 else 0 := by
  have hshift : registerPoly (c <<< 1) =
      ∑ k ∈ Finset.range 23, if c.getLsbD k then X ^ (k + 1) else 0 := by
    rw [registerPoly, Finset.sum_range_succ']
    have hlow : (c <<< 1).getLsbD 0 = false := by simp
    have hup : ∀ k ∈ Finset.range 23, (c <<< 1).getLsbD (k + 1) = c.getLsbD k := by
      intro k hk
      have hk : k + 1 < 24 := Nat.succ_lt_succ (Finset.mem_range.mp hk)
      rw [BitVec.getLsbD_shiftLeft, decide_eq_true hk, Nat.add_sub_cancel]
      simp
    rw [hlow, if_neg Bool.false_ne_true, add_zero]
    exact Finset.sum_congr rfl fun k hk => by rw [hup k hk]
  calc X * registerPoly c
      = ∑ k ∈ Finset.range 24, if c.getLsbD k then X ^ (k + 1) else 0 := by
        simp only [registerPoly, Finset.mul_sum, mul_ite, mul_zero, pow_succ']
    _ = registerPoly (c <<< 1) + if c.getLsbD 23 then X ^ 24 else 0 := by
        rw [Finset.sum_range_succ, hshift]

@[simp] theorem bitsPoly_nil : bitsPoly [] = 0 := rfl

theorem bitsPoly_cons (t : Bool) (bits : List Bool) :
    bitsPoly (t :: bits) = (if t then X ^ bits.length else 0) + bitsPoly bits := by
  rw [bitsPoly, List.length_cons, Finset.sum_range_succ', add_comm, List.getD_cons_zero,
    Nat.add_sub_cancel, Nat.sub_zero]
  refine congrArg _ (Finset.sum_congr rfl fun k _ => ?_)
  rw [List.getD_cons_succ, Nat.sub_sub, Nat.add_comm 1 k]

/-! ## The divisor -/

theorem bits_0x864CFB : (Finset.range 24).filter (fun k => (0x864CFB#24).getLsbD k = true) =
    {23, 18, 17, 14, 11, 10, 7, 6, 5, 4, 3, 1, 0} := by decide

/-- The divisor's coefficients, from the bits of 0x864CFB. -/
theorem crc24qDivisor_eq : crc24qDivisor = X ^ 24 + X ^ 23 + X ^ 18 + X ^ 17 + X ^ 14 + X ^ 11 +
    X ^ 10 + X ^ 7 + X ^ 6 + X ^ 5 + X ^ 4 + X ^ 3 + X + 1 := by
  rw [crc24qDivisor, registerPoly, ← Finset.sum_filter, bits_0x864CFB]
  simp [add_assoc]

theorem crc24qDivisor_monic : crc24qDivisor.Monic := monic_X_pow_add (degree_registerPoly_lt _)

theorem degree_crc24qDivisor : crc24qDivisor.degree = (24 : ℕ) := by
  have hlow : (registerPoly 0x864CFB#24).degree < (X ^ 24 : (ZMod 2)[X]).degree := by
    rw [degree_X_pow]
    exact degree_registerPoly_lt _
  rw [crc24qDivisor, degree_add_eq_left_of_degree_lt hlow, degree_X_pow]

/-- A register in the class of a polynomial is its remainder, having degree below 24. -/
theorem registerPoly_eq_modByMonic {c : BitVec 24} {p : (ZMod 2)[X]}
    (h : AdjoinRoot.mk crc24qDivisor (registerPoly c) = AdjoinRoot.mk crc24qDivisor p) :
    registerPoly c = p %ₘ crc24qDivisor := by
  have hdeg : (registerPoly c).degree < crc24qDivisor.degree := by
    rw [degree_crc24qDivisor]
    exact degree_registerPoly_lt c
  rw [← (modByMonic_eq_self_iff crc24qDivisor_monic).mpr hdeg]
  exact modByMonic_eq_of_dvd_sub crc24qDivisor_monic (AdjoinRoot.mk_eq_mk.mp h)

/-! ## The bit step and the message modulo the divisor -/

/-- A bit step multiplies by X, adds the bit at X^24, and takes off the divisor when the coefficient
there is then 1. -/
theorem registerPoly_crc24qBit (c : BitVec 24) (t : Bool) :
    registerPoly (crc24qBit c t) + (if (c.getLsbD 23 ^^ t) then crc24qDivisor else 0) =
      X * registerPoly c + if t then X ^ 24 else 0 := by
  have hcarry : registerPoly (crc24qBit c t) + (if (c.getLsbD 23 ^^ t) then crc24qDivisor else 0) =
      registerPoly (c <<< 1) + if (c.getLsbD 23 ^^ t) then X ^ 24 else 0 := by
    rw [crc24qBit]
    split
    · rw [registerPoly_xor, crc24qDivisor, add_assoc, add_left_comm (registerPoly _) (X ^ 24),
        CharTwo.add_self_eq_zero, add_zero]
    · rfl
  rw [hcarry, ite_xor_eq_add, X_mul_registerPoly, add_assoc]

theorem mk_crc24qBit (c : BitVec 24) (t : Bool) :
    AdjoinRoot.mk crc24qDivisor (registerPoly (crc24qBit c t)) =
      AdjoinRoot.mk crc24qDivisor (X * registerPoly c + if t then X ^ 24 else 0) := by
  rw [← registerPoly_crc24qBit, map_add]
  split <;> simp

/-- The register after a message, started from any register. -/
theorem mk_foldl_crc24qBit (bits : List Bool) (c : BitVec 24) :
    AdjoinRoot.mk crc24qDivisor (registerPoly (bits.foldl crc24qBit c)) =
      AdjoinRoot.mk crc24qDivisor (registerPoly c * X ^ bits.length + bitsPoly bits * X ^ 24) := by
  induction bits generalizing c with
  | nil => simp
  | cons t bits ih =>
    have hpoly : (X * registerPoly c + if t then X ^ 24 else 0) * X ^ bits.length +
        bitsPoly bits * X ^ 24 =
          registerPoly c * X ^ (bits.length + 1) + bitsPoly (t :: bits) * X ^ 24 := by
      rw [bitsPoly_cons]
      cases t with
      | false => simp only [Bool.false_eq_true, if_false]; ring
      | true => simp only [if_true]; ring
    rw [List.foldl_cons, ih, map_add, map_mul, mk_crc24qBit, ← map_mul, ← map_add, hpoly,
      List.length_cons]

theorem registerPoly_zero : registerPoly 0#24 = 0 := by
  simp [registerPoly]

theorem registerPoly_crc24q (bits : List Bool) :
    registerPoly (crc24q bits) = (bitsPoly bits * X ^ 24) %ₘ crc24qDivisor := by
  refine registerPoly_eq_modByMonic ?_
  rw [crc24q, mk_foldl_crc24qBit, registerPoly_zero, zero_mul, zero_add]

/-- Settles O29: the remainder law, with the divisor's coefficients written out. -/
theorem crc24qIsRemainder : Obligations.Crc24qIsRemainder := by
  unfold Obligations.Crc24qIsRemainder
  intro bits
  rw [← crc24qDivisor_eq]
  exact registerPoly_crc24q bits

end Sys2Proof.Machine
end

section
/-! PROOF. What reaches the synchronizer: one inversion lemma for the step by the accesses that may
change it, and the three commands that do (42_frame_synchronizer R120 to R124). -/

namespace Sys2Proof.Machine

/-! ## Isolation -/

theorem portRead_sync_evout (bits offset : Nat) (s : State) :
    (portRead bits offset s).sync = s.sync ∧ (portRead bits offset s).evout = s.evout := by
  rw [portRead_eq]
  split <;> exact ⟨rfl, rfl⟩

/-- Of the writes that are no command, those of a configuration register reset the synchronizer. -/
theorem portWrite_sync_cases (target : PortTarget) (v : Word) (s : State) :
    ((portWrite target v s).sync = s.sync ∧ (portWrite target v s).evout = s.evout) ∨
    ∃ r, target = .reg r ∧ isSyncConfig r = true ∧ (portWrite target v s).evout = s.evout := by
  cases target with
  | reg r =>
    cases hr : isSyncConfig r with
    | true => exact .inr ⟨r, rfl, hr, writeReg_evout r v s⟩
    | false => exact .inl ⟨by rw [portWrite, writeReg_sync, hr]; rfl, writeReg_evout r v s⟩
  | unmapped | bad | cbufByte i => exact .inl ⟨rfl, rfl⟩
  | cbufWord i => exact .inl (by simp [portWrite, writeWindowWord])

/-- One inversion lemma for what a step does to the synchronizer and to EVOUT. -/
theorem step_sync_cases {s t : State} (h : step s = .next t) :
    (t.sync = s.sync ∧ t.evout = s.evout) ∨
    (∃ rest, s.pending = .blockReset :: rest ∧ t = blockReset { s with pending := rest }) ∨
    (∃ input rest w, s.pending = input :: rest ∧
      presented s input = some (.write 32 (mapOffset .cmd) w) ∧
      runCommand w { s with pending := rest } = .next t) ∨
    (∃ input rest r v, s.pending = input :: rest ∧
      presented s input = some (.write 32 (mapOffset r) v) ∧ isSyncConfig r = true ∧
      t.evout = s.evout) := by
  rcases step_cases h with ⟨_, rfl⟩ | hreset | ⟨_, _, _, _, rfl⟩ | ⟨a, input, rest, hp, ha, hserve⟩
  · exact .inl ⟨rfl, rfl⟩
  · exact .inr (.inl hreset)
  · exact .inl ⟨rfl, rfl⟩
  · rcases serveAccess_cases a { s with pending := rest } with ⟨bits, offset, _, e⟩ |
      ⟨bits, offset, w, rfl, hcmd, e⟩ | ⟨bits, offset, v, rfl, _, e⟩
    · rw [e] at hserve
      cases hserve
      exact .inl (portRead_sync_evout bits offset _)
    · obtain ⟨rfl, rfl⟩ := portTarget_eq_reg hcmd
      exact .inr (.inr (.inl ⟨input, rest, w, hp, ha, e ▸ hserve⟩))
    · rw [e] at hserve
      cases hserve
      rcases portWrite_sync_cases _ v { s with pending := rest } with hsame | ⟨r, hr, hcfg, hev⟩
      · exact .inl hsame
      · obtain ⟨rfl, rfl⟩ := portTarget_eq_reg hr
        exact .inr (.inr (.inr ⟨input, rest, r, v, hp, ha, hcfg, hev⟩))

/-- The commands that change the synchronizer. -/
theorem Completes.sync_cases {s t : State} {i : Instr} (h : Completes s i t)
    (hne : t.sync ≠ s.sync) : (∃ b, i = .push b) ∨ i = .pushn ∨ i = .sreset := by
  cases h with
  | push b => exact .inl ⟨b, rfl⟩
  | pushn => exact .inr (.inl rfl)
  | sreset => exact .inr (.inr rfl)
  | _ => exact absurd rfl hne

/-- A command that changes the synchronizer decodes to one of the three. -/
theorem runCommand_sync_cases {w : Word} {s t : State} (h : runCommand w s = .next t)
    (hne : t.sync ≠ s.sync) :
    ∃ i, decode w = .ok i ∧ ((∃ b, i = .push b) ∨ i = .pushn ∨ i = .sreset) := by
  rcases runCommand_cases h with ⟨_, _, rfl⟩ | ⟨i, hd, hc⟩
  · exact absurd rfl hne
  · exact ⟨i, hd, hc.sync_cases hne⟩

/-- The configuration registers by their offsets (10_state R31). -/
theorem mapOffset_of_isSyncConfig {r : Reg} (h : isSyncConfig r = true) :
    0x040 ≤ mapOffset r ∧ mapOffset r ≤ 0x064 ∧ mapOffset r % 4 = 0 := by
  have hrange := (configWriteResetsSynchronizer.1 r).mp h
  have halign := regOffset_mod_four r
  rw [regOffset_eq_mapOffset] at hrange halign
  exact ⟨hrange.1, hrange.2, halign⟩

/-- Settles O43: each case of the step by what it presents to the port. -/
theorem synchronizerIsolated : Obligations.SynchronizerIsolated := by
  unfold Obligations.SynchronizerIsolated
  refine ⟨fun s t input rest hp hstep hne => ?isolated, fun w s t h hfault => ?fault⟩
  case fault =>
    rw [runCommand_faulted h hfault]
    rfl
  case isolated =>
    rcases step_sync_cases hstep with ⟨hsame, _⟩ | ⟨_, hp', _⟩ | ⟨_, _, w, hp', ha, hrun⟩ |
      ⟨_, _, r, v, hp', ha, hr, _⟩
    · exact absurd hsame hne
    all_goals
      rw [hp] at hp'
      cases hp'
    · exact .inl rfl
    · obtain ⟨i, hd, hi⟩ := runCommand_sync_cases hrun hne
      exact .inr (.inl ⟨w, i, ha, hd, hi⟩)
    · exact .inr (.inr ⟨_, v, ha, mapOffset_of_isSyncConfig hr⟩)

/-! ## The commands -/

/-- PUSH under a legal configuration is the push of its byte (42_frame_synchronizer R120). -/
theorem exec_push_legal {s : State} (legal : configLegal s = true) (b : Byte) :
    exec (.push b) s = pushBytes [b] s :=
  guard_pos legal _ _ _

theorem exec_push_illegal {s : State} (illegal : configLegal s = false) (b : Byte) :
    exec (.push b) s = .next (faulted .configError s) := by
  simp [exec, execPush, illegal, raise_eq]

/-- What PUSHN does under a legal configuration: its range check, then the push. -/
theorem exec_pushn_legal {s : State} (legal : configLegal s = true) : exec .pushn s =
    if s.arg0.toNat + s.arg1.toNat ≤ s.clen.toNat then
      pushBytes (bytesAt s.cbuf s.arg0.toNat s.arg1.toNat) s
    else .next (faulted .outOfRange s) := by
  have hguard : exec .pushn s =
      if !byteRangeFits s then raise .outOfRange s else pushBytes (argBytes s) s :=
    guard_pos legal _ _ _
  rw [hguard, argBytes, cbufBytes_eq]
  by_cases fits : s.arg0.toNat + s.arg1.toNat ≤ s.clen.toNat
  · rw [guard_pos ((byteRangeFits_iff s).mpr fits), if_pos fits]
  · have : byteRangeFits s = false := by simpa [byteRangeFits] using fits
    simp [this, fits, raise_eq]

theorem exec_pushn_illegal {s : State} (illegal : configLegal s = false) :
    exec .pushn s = .next (faulted .configError s) := by
  simp [exec, execPushn, illegal, raise_eq]

/-- The feed of one byte is the feed of the sequence that holds it. -/
theorem feedAll_singleton (s : State) (b : Byte) (y : Sync) : feedAll s [b] y = feed s y b := by
  cases h : feed s y b <;> simp [feedAll, h]

/-- Settles O32: the word's row admits every byte, and a push of one byte is its feed. -/
theorem pushFeedsOneByte : Obligations.PushFeedsOneByte := by
  unfold Obligations.PushFeedsOneByte
  refine ⟨encodedWith_of_row (admits := fun _ => true) .unusedImmediate (by simp [opRows])
      (fun _ => by simp),
    fun b s => ⟨fun legal => ?_, fun illegal => exec_push_illegal illegal b⟩⟩
  obtain ⟨r, hr, hpush⟩ := pushBytes_spec [b] s
  exact ⟨r.1, r.2, (feedAll_singleton s b s.sync).symm.trans hr,
    (exec_push_legal legal b).trans hpush⟩

/-- Settles O33: the checks in their order, then the push of the range's bytes. -/
theorem pushnFeedsRange : Obligations.PushnFeedsRange := by
  unfold Obligations.PushnFeedsRange
  refine ⟨encodedPlain_of_row (by simp [opRows]), fun s =>
    ⟨fun legal fits => ?_, fun legal past => ?_, exec_pushn_illegal⟩⟩
  · obtain ⟨r, hr, hpush⟩ := pushBytes_spec (bytesAt s.cbuf s.arg0.toNat s.arg1.toNat) s
    exact ⟨r.1, r.2, hr, by rw [exec_pushn_legal legal, if_pos fits, hpush]⟩
  · rw [exec_pushn_legal legal, if_neg (by omega)]

/-- A push of bytes is the PUSH of each: a PUSH leaves the configuration as it was. -/
theorem pushBytes_eq_pushEach : ∀ (bytes : List Byte) {s : State}, configLegal s = true →
    pushBytes bytes s = pushEach bytes s
  | [], s, _ => by simp [pushBytes, feedAll, complete, pushEach]
  | b :: bs, s, legal => by
    obtain ⟨r, hr, hpush⟩ := pushBytes_spec [b] s
    have hfeed : feed s s.sync b = some r := (feedAll_singleton s b s.sync).symm.trans hr
    have hcfg (y : Sync) (events : List Event) :
        sameConfig { s with sync := y, evout := events, lastErr := .none } s := sameConfig_refl s
    rw [pushEach, exec_push_legal legal, hpush]
    simp only
    rw [← pushBytes_eq_pushEach bs ((configLegal_congr (hcfg _ _)).trans legal)]
    obtain ⟨u, hu⟩ := Option.isSome_iff_exists.mp (feedAll_isSome s bs r.1)
    simp [pushBytes, feedAll, hfeed, feedAll_congr (hcfg _ _), hu, complete]

/-- Settles O34: the range check holds, and a push of bytes is the PUSH of each. -/
theorem pushnEqualsPushes : Obligations.PushnEqualsPushes := by
  unfold Obligations.PushnEqualsPushes
  intro s legal fits
  rw [exec_pushn_legal legal, if_pos fits, pushBytes_eq_pushEach _ legal]

/-- Settles O35: SRESET has no check. -/
theorem sresetResetsSynchronizer : Obligations.SresetResetsSynchronizer := by
  unfold Obligations.SresetResetsSynchronizer
  exact ⟨encodedPlain_of_row (by simp [opRows]), fun _ => rfl⟩

end Sys2Proof.Machine
end

section
/-! PROOF. The frames the synchronizer emits (42_frame_synchronizer R97): which step emits one, that
it has passed its grammar's check, and that EVOUT therefore holds no other. -/

namespace Sys2Proof.Machine

/-! ## Trailers -/

theorem frameByte_drop (bytes : List Byte) (i k : Nat) :
    frameByte (bytes.drop i) k = frameByte bytes (i + k) := by
  simp [frameByte, List.getD_eq_getElem?_getD]

/-- The trailer of a HDR32 frame as a number, in the selected byte order (R119). -/
theorem trailer32_toNat (s : State) (bytes : List Byte) (i : Nat) :
    (trailer32 (h32TrailerBigEndian s) (bytes.drop i)).toNat = hdr32Trailer s bytes i := by
  unfold trailer32 hdr32Trailer h32TrailerBigEndian
  simp only [frameByte_drop]
  split
  · exact toNat_append4 _ _ _ _
  · rw [toNat_append4]
    omega

/-! ## The steps that emit a frame -/

section Emits

variable {s : State} {g : BinGrammar} {y : Sync} {b : Byte} {f : Frame}

theorem asciiHunt_emits_none : Event.frame f ∉ (asciiHunt s y b).events := by
  unfold asciiHunt
  split
  · exact List.not_mem_nil
  · exact frame_not_mem_garbage s y.garb f

/-- A sentence that ends before any `*` (R110). -/
theorem asciiBody_emits (h : Event.frame f ∈ (asciiBody s y b).events) :
    f = asciiFrame y.fbuf y.fbuf.length false := by
  unfold asciiBody at h
  split_ifs at h
  · simpa using h
  all_goals simp at h

/-- A sentence whose second digit completes its checksum (R111). -/
theorem asciiChecksum_emits (h : Event.frame f ∈ (asciiChecksum s y b).events) :
    (hexVal b).isSome = true ∧ ∃ star, y.star = some star ∧ y.fbuf.length + 1 = star + 3 ∧
      asciiSumHolds (y.fbuf ++ [b]) star = true ∧ f = asciiFrame (y.fbuf ++ [b]) star true := by
  unfold asciiChecksum at h
  split_ifs at h with hhex hlong
  · simp at h
  · simp at h
  · refine ⟨by simpa [Option.isSome_iff_ne_none] using hhex, ?_⟩
    unfold asciiDigit at h
    split at h
    · simp at h
    · next star hstar =>
      split_ifs at h with hlast hsum
      · exact ⟨star, hstar, by simpa using hlast, hsum, by simpa using h⟩
      · simp at h
      · simp at h

theorem headerDone_emits_none {bytes : List Byte} :
    Event.frame f ∉ (headerDone s g y bytes).events := by
  unfold headerDone
  split <;> simp

theorem binHunt_emits_none : Event.frame f ∉ (binHunt s g y b).events := by
  unfold binHunt
  split_ifs
  · exact List.not_mem_nil
  · exact List.not_mem_nil
  · exact frame_not_mem_garbage s y.garb f
  · exact headerDone_emits_none
  · exact List.not_mem_nil
  · exact List.not_mem_nil
  · exact frame_not_mem_garbage s y.garb f

theorem binHeader_emits_none : Event.frame f ∉ (binHeader s g y b).events := by
  unfold binHeader
  split
  · exact headerDone_emits_none
  · exact List.not_mem_nil

theorem binBody_emits_none : Event.frame f ∉ (binBody s g y b).events := by
  unfold binBody
  split <;> exact List.not_mem_nil

/-- A frame whose last trailer byte completes its check (R116). -/
theorem binTrailer_emits (h : Event.frame f ∈ (binTrailer s g y b).events) :
    ∃ l, y.plen = some l ∧ y.fbuf.length + 1 = headerLen s g + l + trailerLen g ∧
      integrityHolds s g l (y.fbuf ++ [b]) = true ∧ f = binFrame s g l (y.fbuf ++ [b]) := by
  unfold binTrailer at h
  split at h
  · simp at h
  · next l hl =>
    unfold checkDone at h
    split_ifs at h with hlast hholds
    · exact ⟨l, hl, hlast, hholds, by simpa using h⟩
    · simp at h
    · simp at h

end Emits

/-! ## An emitted frame is sound -/

/-- What is promised of a frame that the synchronizer emits: the selected grammar and its check
(42_frame_synchronizer R97), a HDR32 trailer being in the byte order of SCFG.H32_TRL_BE (R119). -/
def emittedSound (s : State) (f : Frame) : Prop :=
  f.proto = grammar s ∧ frameSound s.impl f ∧
  (f.proto = .binary .hdr32 →
    (crc32 (presetWord s.impl.crc32Preset) (f.bytes.take (f.poff + f.plen))).toNat =
      hdr32Trailer s f.bytes (f.poff + f.plen))

theorem frameSound_unterminated (p : Config.Impl) (bytes : List Byte) (fin : Nat) :
    frameSound p (asciiFrame bytes fin false) :=
  ⟨rfl, nofun⟩

/-- A sentence with `*` at `star` and two digits after it that give its checksum. -/
theorem frameSound_sentence (p : Config.Impl) {bytes : List Byte} {star : Nat} (hpos : 1 ≤ star)
    (hlen : bytes.length = star + 3) (hat : bytes[star]? = some 0x2A#8)
    (hdigits : ∀ c ∈ bytes.drop (star + 1), (hexVal c).isSome = true)
    (hsum : asciiSumHolds bytes star = true) : frameSound p (asciiFrame bytes star true) := by
  have digit {k : Nat} (hk : star < k) (hlt : k < bytes.length) :
      ∃ v, hexVal (frameByte bytes k) = some v := by
    refine Option.isSome_iff_exists.mp (hdigits _ (List.mem_drop_iff_getElem.mpr
      ⟨k - (star + 1), by omega, ?_⟩))
    simp only [frameByte, List.getD_eq_getElem?_getD, List.getElem?_eq_getElem hlt, Option.getD_some]
    congr 1
    omega
  obtain ⟨hi, hhi⟩ := digit (k := star + 1) (by omega) (by omega)
  obtain ⟨lo, hlo⟩ := digit (k := star + 2) (by omega) (by omega)
  obtain ⟨n, rfl⟩ : ∃ n, star = n + 1 := ⟨star - 1, by omega⟩
  refine ⟨rfl, fun _ => ⟨hlen, ?_, hi, lo, hhi, hlo, ?_⟩⟩
  · simp [asciiFrame, frameByte, List.getD_eq_getElem?_getD, hat]
  · have hsum' : (xor8 ((bytes.take (n + 1)).drop 1)).toNat =
        16 * (hexVal (frameByte bytes (n + 2))).getD 0 + (hexVal (frameByte bytes (n + 3))).getD 0 :=
      beq_iff_eq.mp hsum
    rw [hhi, hlo, List.drop_take] at hsum'
    exact hsum'

/-- A whole binary frame that its integrity check holds of. -/
theorem frameSound_binFrame {s : State} {g : BinGrammar} {l : Nat} {bytes : List Byte}
    (hlen : bytes.length = headerLen s g + l + trailerLen g)
    (hholds : integrityHolds s g l bytes = true) : frameSound s.impl (binFrame s g l bytes) := by
  cases g with
  | lenpfx =>
    simp only [integrityHolds, Bool.and_eq_true, beq_iff_eq, List.drop_take] at hholds
    obtain ⟨ha, hb⟩ := hholds
    have hlen : bytes.length = l + 8 := hlen.trans (by simp only [headerLen, trailerLen]; omega)
    refine ⟨rfl, rfl, hlen, ?_⟩
    simp only [binFrame, Nat.add_comm l, ha, hb]
    rw [show 6 + l - 2 = 4 + l by omega]
  | bitpack =>
    have hlen : bytes.length = l + 6 := hlen.trans (by simp only [headerLen, trailerLen]; omega)
    refine ⟨rfl, rfl, hlen, ?_⟩
    simp only [binFrame, Nat.add_comm l]
    exact beq_iff_eq.mp hholds
  | hdr32 => exact ⟨rfl, hlen, h32TrailerBigEndian s, beq_iff_eq.mp hholds⟩

theorem emittedSound_binFrame {s : State} {g : BinGrammar} {l : Nat} {bytes : List Byte}
    (hg : grammar s = .binary g) (hlen : bytes.length = headerLen s g + l + trailerLen g)
    (hholds : integrityHolds s g l bytes = true) : emittedSound s (binFrame s g l bytes) := by
  refine ⟨hg.symm, frameSound_binFrame hlen hholds, fun hproto => ?_⟩
  cases hproto
  rw [← trailer32_toNat]
  exact congrArg BitVec.toNat (beq_iff_eq.mp hholds)

theorem stepAscii_emits {s : State} {y : Sync} {b : Byte} {f : Frame} (hg : grammar s = .ascii)
    (hshape : asciiShape s y) (h : Event.frame f ∈ (stepAscii s y b).events) : emittedSound s f := by
  unfold stepAscii at h
  split at h
  case h_1 | h_2 | h_3 => exact absurd h asciiHunt_emits_none
  case h_4 =>
    rw [asciiBody_emits h]
    exact ⟨hg.symm, frameSound_unterminated _ _ _, nofun⟩
  case h_5 hstate =>
    obtain ⟨hhex, star, hstar, hlen, hsum, rfl⟩ := asciiChecksum_emits h
    simp only [asciiShape, hstate] at hshape
    obtain ⟨_, _, star', hstar', hpos, hlt, _, hat, hdigits⟩ := hshape
    obtain rfl : star = star' := Option.some.inj (hstar.symm.trans hstar')
    refine ⟨hg.symm, frameSound_sentence _ hpos (by simpa using hlen) ?_ ?_ hsum, nofun⟩
    · rw [List.getElem?_append_left hlt, hat]
    · rw [List.drop_append_of_le_length (by omega)]
      simpa [or_imp, forall_and] using ⟨hdigits, hhex⟩

theorem stepBin_emits {s : State} {g : BinGrammar} {y : Sync} {b : Byte} {f : Frame}
    (hg : grammar s = .binary g) (h : Event.frame f ∈ (stepBin s g y b).events) :
    emittedSound s f := by
  unfold stepBin at h
  split at h
  case h_1 | h_2 => exact absurd h binHunt_emits_none
  case h_3 => exact absurd h binHeader_emits_none
  case h_4 => exact absurd h binBody_emits_none
  case h_5 =>
    obtain ⟨l, _, hlen, hholds, rfl⟩ := binTrailer_emits h
    exact emittedSound_binFrame hg (by simpa using hlen) hholds

theorem syncStep_emits {s : State} {y : Sync} {b : Byte} {f : Frame} (hshape : syncShape s y)
    (h : Event.frame f ∈ (syncStep s y b).events) : emittedSound s f := by
  unfold syncStep at h
  unfold syncShape at hshape
  cases hg : grammar s with
  | ascii =>
    simp only [hg] at h hshape
    exact stepAscii_emits hg hshape h
  | binary g =>
    simp only [hg] at h
    exact stepBin_emits hg h

/-! ## Feed -/

/-- What every step of the synchronizer keeps, and what it then emits, along the loop. -/
theorem feedLoop_emits {s : State} {P : Sync → Prop} {Q : Event → Prop}
    (hkeeps : ∀ y b, P y → P (syncStep s y b).sync)
    (hemits : ∀ y b e, P y → e ∈ (syncStep s y b).events → Q e) :
    ∀ (n : Nat) {queue : List Byte} {y : Sync} {events : List Event} {r : Sync × List Event},
      P y → (∀ e ∈ events, Q e) → feedLoop s n queue y events = some r → ∀ e ∈ r.2, Q e
  | n, [], y, events, r, _, hevents, h => by
    have : (y, events) = r := by cases n <;> simpa [feedLoop] using h
    exact this ▸ hevents
  | 0, _ :: _, _, _, _, _, _, h => by simp [feedLoop] at h
  | n + 1, c :: queue, y, events, r, hy, hevents, h => by
    rw [feedLoop] at h
    refine feedLoop_emits hkeeps hemits n (hkeeps y c hy) (fun e he => ?_) h
    rcases List.mem_append.mp he with he | he
    · exact hevents e he
    · exact hemits y c e hy he

/-- FeedAll is the loop on the whole queue, under some bound. -/
theorem feedAll_eq_some_iff {s : State} {bytes : List Byte} {y : Sync} {r : Sync × List Event} :
    feedAll s bytes y = some r ↔ ∃ n, feedLoop s n bytes y [] = some r := by
  refine ⟨fun h => ?_, fun ⟨n, hn⟩ => feedAll_eq_of_loop bytes hn⟩
  have hsome := feedLoop_isSome s (y.fbuf.length + bytes.length) _ bytes y [] le_rfl le_rfl
  obtain ⟨r', hr'⟩ := Option.isSome_iff_exists.mp hsome
  rw [← h, feedAll_eq_of_loop bytes hr']
  exact ⟨_, hr'⟩

theorem feedAll_emits {s : State} {bytes : List Byte} {y : Sync} {r : Sync × List Event}
    (legal : configLegal s = true) (hshape : syncShape s y) (h : feedAll s bytes y = some r)
    {f : Frame} (hf : Event.frame f ∈ r.2) : emittedSound s f := by
  obtain ⟨n, hn⟩ := feedAll_eq_some_iff.mp h
  exact feedLoop_emits (P := syncShape s) (Q := fun e => ∀ f, e = .frame f → emittedSound s f)
    (fun y b => syncStep_shape b legal) (fun y b e hy he f hef => syncStep_emits hy (hef ▸ he)) n
    hshape (by simp) hn _ hf f rfl

/-! ## The step -/

/-- What `t` has on EVOUT beyond `s` is sound. -/
def appendsSound (s t : State) : Prop :=
  ∃ events, t.evout = s.evout ++ events ∧ ∀ f, Event.frame f ∈ events → emittedSound s f

theorem appendsSound_of_same {s t : State} (h : t.evout = s.evout) : appendsSound s t :=
  ⟨[], by simp [h], by simp⟩

theorem Completes.emits {s t : State} {i : Instr} (h : Completes s i t) (hs : syncInv s) :
    appendsSound s t := by
  cases h with
  | push b r legal fed => exact ⟨r.2, rfl, fun f => feedAll_emits legal (hs.1 legal) fed⟩
  | pushn r legal fed => exact ⟨r.2, rfl, fun f => feedAll_emits legal (hs.1 legal) fed⟩
  | _ => exact appendsSound_of_same rfl

theorem runCommand_emits {w : Word} {s t : State} (h : runCommand w s = .next t) (hs : syncInv s) :
    appendsSound s t := by
  rcases runCommand_cases h with ⟨_, _, rfl⟩ | ⟨i, _, hc⟩
  · exact appendsSound_of_same rfl
  · exact hc.emits hs

/-- Every step empties EVOUT (block reset) or appends sound frames to it. -/
theorem step_emits {s t : State} (h : step s = .next t) (hs : syncInv s) :
    t.evout = [] ∨ appendsSound s t := by
  rcases step_sync_cases h with ⟨_, hev⟩ | ⟨_, _, rfl⟩ | ⟨_, rest, w, _, _, hrun⟩ |
    ⟨_, _, _, _, _, _, _, hev⟩
  · exact .inr (appendsSound_of_same hev)
  · exact .inl rfl
  · have hrest : syncInv { s with pending := rest } := syncInv_congr (sameConfig_refl s) rfl hs
    obtain ⟨events, hev, hsound⟩ := runCommand_emits hrun hrest
    exact .inr ⟨events, hev, hsound⟩
  · exact .inr (appendsSound_of_same hev)

/-- Settles O60: the frames a step appends come from the synchronizer, each one checked. -/
theorem stepKeepsFramesSound : Obligations.StepKeepsFramesSound := by
  unfold Obligations.StepKeepsFramesSound
  intro s t hs hev hstep
  have himpl := step_impl hstep
  rcases step_emits hstep hs with hnil | ⟨new, hnew, hsound⟩
  · refine ⟨fun f hf => ?_, fun events f happ hf => ?_⟩
    · simp [hnil] at hf
    · simp [(List.append_eq_nil_iff.mp (happ.symm.trans hnil)).2] at hf
  · refine ⟨fun f hf => ?_, fun events f happ hf => ?_⟩
    · rw [hnew] at hf
      rw [himpl]
      exact (List.mem_append.mp hf).elim (hev f) fun hf => (hsound f hf).2.1
    · obtain rfl : events = new := List.append_cancel_left (happ.symm.trans hnew)
      obtain ⟨hproto, _, hcrc⟩ := hsound f hf
      exact ⟨hproto, hcrc⟩

end Sys2Proof.Machine
end

section
/-! PROOF. Rejection (42_frame_synchronizer R104, R110 to R119): the conditions under which a step
abandons its candidate, for each step function, and the feed of the bytes handed back. -/

namespace Sys2Proof.Machine

/-! ## The endings of a step as the rule writes them -/

theorem rejectAs_rejectsWith (kind : DiscardKind) (c : List Byte) :
    rejectsWith kind c (rejectAs kind c) :=
  ⟨rfl, List.drop_one, rfl⟩

/-- Garbage() by its two outcomes (R105). -/
theorem garbage_of_below {s : State} {garb : Word}
    (h : s.lookahead = 0#32 ∨ (garb + 1#32).toNat < s.lookahead.toNat) :
    garbage s garb = (garb + 1#32, []) := by
  refine if_neg fun ⟨hne, hle⟩ => ?_
  rcases h with h | h
  · exact hne h
  · exact absurd hle (Nat.not_le.mpr h)

theorem garbage_of_reached {s : State} {garb : Word} (hne : s.lookahead ≠ 0#32)
    (h : s.lookahead.toNat ≤ (garb + 1#32).toNat) :
    garbage s garb = (0#32, [.discard .framingError (garb + 1#32)]) :=
  if_pos ⟨hne, h⟩

theorem rejectSilently_rejectsUnreported (s : State) (y : Sync) (c : List Byte) :
    rejectsUnreported s y c (rejectSilently s y c) := by
  refine ⟨y.garb + 1#32, by simp [BitVec.toNat_add], List.drop_one, fun h => ?_, fun hne h => ?_⟩
  · simp [rejectSilently, garbage_of_below h, syncResetState]
  · simp [rejectSilently, garbage_of_reached hne h, syncResetState]

/-! ## Headers and trailers -/

/-- A field that is one whole byte. -/
theorem streamBits_byte (byteAt : Nat → Byte) (a : Nat) :
    streamBits byteAt (8 * a) 8 = (byteAt a).toNat :=
  streamBits_eq_of_testBit (byteAt a).isLt fun _ hi => streamBit_mul_add byteAt a hi

/-- The second byte of a BITPACK header: 6 reserved bits above 2 bits of the length (R118). -/
theorem frameByte_one_eq (c : List Byte) :
    (frameByte c 1).toNat = 4 * frameBits c 8 6 + frameBits c 14 2 ∧ frameBits c 14 2 < 4 :=
  ⟨(streamBits_byte (frameByte c) 1).symm.trans (streamBits_add (frameByte c) 8 6 2),
    streamBits_lt _ _ _⟩

theorem frameBits_reserved (c : List Byte) : frameBits c 8 6 = (frameByte c 1).toNat / 4 := by
  have := frameByte_one_eq c
  omega

theorem frameBits_length (c : List Byte) :
    frameBits c 14 10 = 256 * ((frameByte c 1).toNat % 4) + (frameByte c 2).toNat := by
  have hsplit : frameBits c 14 10 = 256 * frameBits c 14 2 + frameBits c 16 8 :=
    streamBits_add (frameByte c) 14 2 8
  have hlow : frameBits c 16 8 = (frameByte c 2).toNat := streamBits_byte (frameByte c) 2
  have := frameByte_one_eq c
  omega

theorem headerPayloadLen_eq (s : State) (g : BinGrammar) (c : List Byte) :
    headerPayloadLen s g c = declaredLength s g c := by
  cases g with
  | lenpfx | hdr32 => rfl
  | bitpack => exact frameBits_length c

/-- HeaderDone() accepts the headers that are not bad (R115). -/
theorem badHeader_iff (s : State) (g : BinGrammar) (c : List Byte) :
    badHeader s g c ↔ headerAccepted s g c = false := by
  have hok : headerOk s g c = false ↔
      g = .bitpack ∧ s.bpCfg.getLsbD 8 = true ∧ (frameByte c 1).toNat / 4 ≠ 0 := by
    cases g <;> simp [headerOk, bpRsvdChk, frameBits_reserved]
  simp only [badHeader, headerAccepted, headerPayloadLen_eq, ← hok, Bool.and_eq_false_iff,
    decide_eq_false_iff_not, Nat.not_le, or_assoc]

/-- The check of a whole frame fails where the rule says so (R116 to R119). -/
theorem badTrailer_iff (s : State) (g : BinGrammar) (l : Nat) (c : List Byte) :
    badTrailer s g l c ↔ integrityHolds s g l c = false := by
  cases g with
  | lenpfx =>
    have hsub : 6 + l - 2 = 4 + l := by omega
    simp only [badTrailer, integrityHolds, List.drop_take, hsub, ne_eq, Prod.ext_iff, not_and_or,
      eq_comm (a := (sum2 _).1), eq_comm (a := (sum2 _).2), Bool.and_eq_false_iff,
      beq_eq_false_iff_ne]
  | bitpack =>
    simp only [badTrailer, integrityHolds, ← toNat_append3, beq_eq_false_iff_ne, ne_eq,
      BitVec.toNat_inj]
  | hdr32 =>
    simp only [badTrailer, integrityHolds, ← trailer32_toNat, crc32Preset, beq_eq_false_iff_ne,
      ne_eq, BitVec.toNat_inj]

/-! ## Rejections of each step function -/

/-- What R103 and R104 ask of a step: `rejected` and `broken` are the conditions under which it
abandons its candidate `c`, with a DISCARD of a kind and without one. -/
structure RejectsExactly (s : State) (y : Sync) (c : List Byte) (rejected : DiscardKind → Prop)
    (broken : Prop) (r : StepResult) : Prop where
  reported : ∀ kind, rejected kind → rejectsWith kind c r
  unreported : broken → rejectsUnreported s y c r
  otherwise : (∀ kind, ¬ rejected kind) → ¬ broken → r.replay = []

namespace RejectsExactly

variable {s : State} {y : Sync} {c : List Byte} {rejected : DiscardKind → Prop} {broken : Prop}

/-- A step that hands nothing back, where no condition holds. -/
theorem of_none {r : StepResult} (hf : ¬ rejected .framingError) (hm : ¬ rejected .checksumMismatch)
    (hb : ¬ broken) (h : r.replay = []) : RejectsExactly s y c rejected broken r where
  reported kind hk := by cases kind <;> contradiction
  unreported hbroken := absurd hbroken hb
  otherwise _ _ := h

/-- A rejection as FramingError, where that condition alone holds. -/
theorem of_framing (hf : rejected .framingError) (hm : ¬ rejected .checksumMismatch)
    (hb : ¬ broken) : RejectsExactly s y c rejected broken (rejectAs .framingError c) where
  reported
    | .framingError, _ => rejectAs_rejectsWith _ c
    | .checksumMismatch, hk => absurd hk hm
  unreported hbroken := absurd hbroken hb
  otherwise h _ := absurd hf (h _)

/-- A rejection as ChecksumMismatch, where that condition alone holds. -/
theorem of_mismatch (hf : ¬ rejected .framingError) (hm : rejected .checksumMismatch)
    (hb : ¬ broken) : RejectsExactly s y c rejected broken (rejectAs .checksumMismatch c) where
  reported
    | .framingError, hk => absurd hk hf
    | .checksumMismatch, _ => rejectAs_rejectsWith _ c
  unreported hbroken := absurd hbroken hb
  otherwise h _ := absurd hm (h _)

/-- A sync sequence that breaks partway. -/
theorem of_broken (hf : ¬ rejected .framingError) (hm : ¬ rejected .checksumMismatch) (hb : broken) :
    RejectsExactly s y c rejected broken (rejectSilently s y c) where
  reported kind hk := by cases kind <;> contradiction
  unreported _ := rejectSilently_rejectsUnreported s y c
  otherwise _ h := absurd hb h

end RejectsExactly

/-! ## ASCII -/

section Ascii

variable {s : State} {y : Sync} {b : Byte}

theorem asciiHunt_replay : (asciiHunt s y b).replay = [] := by
  unfold asciiHunt
  split <;> rfl

theorem asciiBody_rejects (hstate : y.sstate = .accumulatingBody) :
    RejectsExactly s y (y.fbuf ++ [b]) (asciiRejects s y b (y.fbuf ++ [b])) False
      (asciiBody s y b) := by
  have hmismatch : ¬ asciiRejects s y b (y.fbuf ++ [b]) .checksumMismatch := by
    simp [asciiRejects, hstate]
  have hframing : asciiRejects s y b (y.fbuf ++ [b]) .framingError ↔
      ¬ isLineEnd b = true ∧ (isMarker b = true ∨ asciiMaxLen s < y.fbuf.length + 1) := by
    simp [asciiRejects, hstate, isLineEnd, isMarker, and_assoc, or_assoc]
  unfold asciiBody
  split_ifs with hend hm hlong
  · exact .of_none (by simp [hframing, hend]) hmismatch id rfl
  · exact .of_framing (hframing.mpr ⟨hend, .inl hm⟩) hmismatch id
  · exact .of_framing (hframing.mpr ⟨hend, .inr hlong⟩) hmismatch id
  all_goals exact .of_none (by simp [hframing, hm, hlong]) hmismatch id rfl

theorem asciiChecksum_rejects (hstate : y.sstate = .awaitingChecksum) :
    RejectsExactly s y (y.fbuf ++ [b]) (asciiRejects s y b (y.fbuf ++ [b])) False
      (asciiChecksum s y b) := by
  have hframing : asciiRejects s y b (y.fbuf ++ [b]) .framingError ↔
      hexVal b = none ∨ asciiMaxLen s < y.fbuf.length + 1 := by
    simp [asciiRejects, hstate]
  have hsum (star : Nat) : asciiSumHolds (y.fbuf ++ [b]) star = false ↔ _ := beq_eq_false_iff_ne
  have hmismatch : asciiRejects s y b (y.fbuf ++ [b]) .checksumMismatch ↔
      hexVal b ≠ none ∧ y.fbuf.length + 1 ≤ asciiMaxLen s ∧ ∃ star, y.star = some star ∧
        (y.fbuf ++ [b]).length = star + 3 ∧ asciiSumHolds (y.fbuf ++ [b]) star = false := by
    simp only [hsum]
    simp [asciiRejects, hstate, digitValue]
  unfold asciiChecksum asciiDigit
  simp only [Option.isNone_iff_eq_none]
  split_ifs with hhex hlong
  · exact .of_framing (hframing.mpr (.inl hhex)) (by simp [hmismatch, hhex]) id
  · exact .of_framing (hframing.mpr (.inr hlong)) (by rw [hmismatch]; omega) id
  · have hnf : ¬ asciiRejects s y b (y.fbuf ++ [b]) .framingError := by simp [hframing, hhex, hlong]
    split
    · next hstar => exact .of_none hnf (by simp [hmismatch, hstar]) id rfl
    · next star hstar =>
      split_ifs with hlast hholds
      · exact .of_none hnf (by simp [hmismatch, hstar, hholds]) id rfl
      · exact .of_mismatch hnf
          (hmismatch.mpr ⟨hhex, by omega, star, hstar, hlast, by simpa using hholds⟩) id
      · refine .of_none hnf (fun h => ?_) id rfl
        obtain ⟨_, _, star', hstar', hlast', _⟩ := hmismatch.mp h
        exact hlast (Option.some.inj (hstar.symm.trans hstar') ▸ hlast')

theorem stepAscii_rejects :
    RejectsExactly s y (y.fbuf ++ [b]) (asciiRejects s y b (y.fbuf ++ [b])) False
      (stepAscii s y b) := by
  unfold stepAscii
  split
  case h_1 hstate | h_2 hstate | h_3 hstate =>
    exact .of_none (by simp [asciiRejects, hstate]) (by simp [asciiRejects, hstate]) id
      asciiHunt_replay
  case h_4 hstate => exact asciiBody_rejects hstate
  case h_5 hstate => exact asciiChecksum_rejects hstate

end Ascii

/-! ## Binary grammars -/

section Binary

variable {s : State} {g : BinGrammar} {y : Sync} {b : Byte}

/-- HeaderDone() where the candidate is at its header's end. -/
theorem headerDone_rejects {c : List Byte} {rejected : DiscardKind → Prop} {broken : Prop}
    (hf : rejected .framingError ↔ badHeader s g c) (hm : ¬ rejected .checksumMismatch)
    (hb : ¬ broken) : RejectsExactly s y c rejected broken (headerDone s g y c) := by
  rw [badHeader_iff] at hf
  unfold headerDone
  cases hacc : headerAccepted s g c with
  | true => exact .of_none (by simp [hf, hacc]) hm hb rfl
  | false => exact .of_framing (hf.mpr hacc) hm hb

theorem binHunt_rejects (hstate : y.sstate = .idle ∨ y.sstate = .seekingSync) :
    RejectsExactly s y (y.fbuf ++ [b]) (binRejects s g y b (y.fbuf ++ [b]))
      (midSync y ∧ (syncSeq s g)[y.fbuf.length]? ≠ some b) (binHunt s g y b) := by
  have hmid : midSync y ↔ y.fbuf ≠ [] := and_iff_right hstate
  have hmismatch : ¬ binRejects s g y b (y.fbuf ++ [b]) .checksumMismatch := by
    rintro ⟨h, _⟩
    simp [h] at hstate
  have hframing : binRejects s g y b (y.fbuf ++ [b]) .framingError ↔
      (y.fbuf ≠ [] ∧ (syncSeq s g)[y.fbuf.length]? = some b ∧
        y.fbuf.length + 1 = (syncSeq s g).length) ∧ y.fbuf.length + 1 = headerLen s g ∧
      badHeader s g (y.fbuf ++ [b]) := by
    have hne : y.sstate ≠ .accumulatingLength := fun h => by simp [h] at hstate
    simp [binRejects, hmid, hne]
  have hempty : y.fbuf = [] → ¬ binRejects s g y b (y.fbuf ++ [b]) .framingError :=
    fun hnil h => (hframing.mp h).1.1 hnil
  rw [hmid]
  unfold binHunt
  split_ifs with hnil hhead hone hnext hlast hheader
  · exact .of_none (hempty hnil) hmismatch (by simp [hnil]) rfl
  · exact .of_none (hempty hnil) hmismatch (by simp [hnil]) rfl
  · exact .of_none (hempty hnil) hmismatch (by simp [hnil]) rfl
  · refine headerDone_rejects ⟨fun h => (hframing.mp h).2.2, fun h => ?_⟩ hmismatch (by simp [hnext])
    exact hframing.mpr ⟨⟨hnil, hnext, hlast⟩, hheader, h⟩
  · exact .of_none (by simp [hframing, hheader]) hmismatch (by simp [hnext]) rfl
  · exact .of_none (by simp [hframing, hlast]) hmismatch (by simp [hnext]) rfl
  · exact .of_broken (by simp [hframing, hnext]) hmismatch ⟨hnil, hnext⟩

theorem binHeader_rejects (hstate : y.sstate = .accumulatingLength) :
    RejectsExactly s y (y.fbuf ++ [b]) (binRejects s g y b (y.fbuf ++ [b]))
      (midSync y ∧ (syncSeq s g)[y.fbuf.length]? ≠ some b) (binHeader s g y b) := by
  have hmid : ¬ midSync y := by simp [midSync, hstate]
  have hmismatch : ¬ binRejects s g y b (y.fbuf ++ [b]) .checksumMismatch := by
    simp [binRejects, hstate]
  have hframing : binRejects s g y b (y.fbuf ++ [b]) .framingError ↔
      y.fbuf.length + 1 = headerLen s g ∧ badHeader s g (y.fbuf ++ [b]) := by
    simp [binRejects, hstate]
  unfold binHeader
  split_ifs with hlast
  · exact headerDone_rejects (by simp [hframing, hlast]) hmismatch fun h => hmid h.1
  · exact .of_none (by simp [hframing, hlast]) hmismatch (fun h => hmid h.1) rfl

theorem binBody_replay : (binBody s g y b).replay = [] := by
  unfold binBody
  split <;> rfl

theorem binTrailer_rejects (hstate : y.sstate = .awaitingChecksum) :
    RejectsExactly s y (y.fbuf ++ [b]) (binRejects s g y b (y.fbuf ++ [b]))
      (midSync y ∧ (syncSeq s g)[y.fbuf.length]? ≠ some b) (binTrailer s g y b) := by
  have hmid : ¬ midSync y := by simp [midSync, hstate]
  have hframing : ¬ binRejects s g y b (y.fbuf ++ [b]) .framingError := by
    simp [binRejects, hstate, hmid]
  have hmismatch : binRejects s g y b (y.fbuf ++ [b]) .checksumMismatch ↔
      ∃ l, y.plen = some l ∧ y.fbuf.length + 1 = headerLen s g + l + trailerLen g ∧
        integrityHolds s g l (y.fbuf ++ [b]) = false := by
    simp [binRejects, hstate, badTrailer_iff]
  unfold binTrailer checkDone
  split
  · next hplen => exact .of_none hframing (by simp [hmismatch, hplen]) (fun h => hmid h.1) rfl
  · next l hplen =>
    split_ifs with hlast hholds
    · exact .of_none hframing (by simp [hmismatch, hplen, hholds]) (fun h => hmid h.1) rfl
    · exact .of_mismatch hframing (hmismatch.mpr ⟨l, hplen, hlast, by simpa using hholds⟩)
        fun h => hmid h.1
    · exact .of_none hframing (by simp [hmismatch, hplen, hlast]) (fun h => hmid h.1) rfl

theorem stepBin_rejects :
    RejectsExactly s y (y.fbuf ++ [b]) (binRejects s g y b (y.fbuf ++ [b]))
      (midSync y ∧ (syncSeq s g)[y.fbuf.length]? ≠ some b) (stepBin s g y b) := by
  unfold stepBin
  split
  case h_1 hstate => exact binHunt_rejects (.inl hstate)
  case h_2 hstate => exact binHunt_rejects (.inr hstate)
  case h_3 hstate => exact binHeader_rejects hstate
  case h_4 hstate =>
    exact .of_none (by simp [binRejects, midSync, hstate]) (by simp [binRejects, hstate])
      (by simp [midSync, hstate]) binBody_replay
  case h_5 hstate => exact binTrailer_rejects hstate

end Binary

/-- A step of the selected grammar abandons its candidate exactly where the rules say. -/
theorem syncStep_rejects (s : State) (y : Sync) (b : Byte) :
    RejectsExactly s y (y.fbuf ++ [b]) (rejects s y b) (breaksSync s y b) (syncStep s y b) := by
  unfold rejects breaksSync syncStep
  cases grammar s with
  | ascii => exact stepAscii_rejects
  | binary g => exact stepBin_rejects

/-! ## Replay -/

/-- Feeding a byte is one step, then the feed of each byte it hands back (R103). -/
theorem feed_eq_step_then_replay (s : State) (y : Sync) (b : Byte) :
    feed s y b = (feedAll s (syncStep s y b).replay (syncStep s y b).sync).map
      (fun r => (r.1, (syncStep s y b).events ++ r.2)) := by
  obtain ⟨r, hr⟩ := Option.isSome_iff_exists.mp
    (feedAll_isSome s (syncStep s y b).replay (syncStep s y b).sync)
  obtain ⟨n, hn⟩ := feedAll_eq_some_iff.mp hr
  rw [hr]
  refine feed_eq_of_loop (n := n + 1) ?_
  rw [feedLoop, List.append_nil, feedLoop_events, hn]
  rfl

/-- Settles O36: the replay of one step, and the step's conditions for abandoning its candidate. -/
theorem rejectedBytesAreFedAgain : Obligations.RejectedBytesAreFedAgain := by
  unfold Obligations.RejectedBytesAreFedAgain
  intro s y b
  obtain ⟨reported, unreported, otherwise⟩ := syncStep_rejects s y b
  exact ⟨feed_eq_step_then_replay s y b, reported, unreported, otherwise⟩

end Sys2Proof.Machine
end

section
/-! PROOF. Bytes outside candidates (42_frame_synchronizer R105, R109, R114): each is dropped and
counted, and the count is taken modulo LOOKAHEAD. -/

namespace Sys2Proof.Machine

/-! ## One byte after another -/

/-- A first byte whose step hands nothing back. -/
theorem feedAll_cons {s : State} {y : Sync} {b : Byte} (bs : List Byte)
    (h : (syncStep s y b).replay = []) : feedAll s (b :: bs) y =
      (feedAll s bs (syncStep s y b).sync).map (fun r => (r.1, (syncStep s y b).events ++ r.2)) := by
  rw [feedAll, feed_of_no_replay h]

/-! ## Garbage -/

/-- Between frames a byte that opens no candidate is dropped, under every grammar. -/
theorem syncStep_of_not_opens {s : State} {y : Sync} {b : Byte} (hy : betweenFrames y)
    (hb : ¬ opensCandidate s b) : syncStep s y b = dropByte s y := by
  obtain ⟨hstate, hfbuf, _, _⟩ := hy
  unfold opensCandidate at hb
  unfold syncStep
  cases hg : grammar s with
  | ascii =>
    have hm : isMarker b = false := by simpa [hg, isMarker] using hb
    rcases hstate with h | h <;> simp [stepAscii, h, asciiHunt, hm]
  | binary g =>
    have hhead : (syncSeq s g).head? ≠ some b := by simpa [hg] using hb
    rcases hstate with h | h <;> simp [stepBin, h, binHunt, hfbuf, hhead]

/-- The synchronizer between frames, `garb` bytes of garbage counted. -/
def seekingWith (y : Sync) (garb : Word) : Sync := { y with sstate := .seekingSync, garb := garb }

theorem seekingWith_betweenFrames {y : Sync} (hy : betweenFrames y) (garb : Word) :
    betweenFrames (seekingWith y garb) :=
  ⟨.inr rfl, hy.2⟩

theorem feedAll_cons_garbage {s : State} {y : Sync} {b : Byte} (bs : List Byte)
    (hy : betweenFrames y) (hb : ¬ opensCandidate s b) : feedAll s (b :: bs) y =
      (feedAll s bs (seekingWith y (garbage s y.garb).1)).map
        (fun r => (r.1, (garbage s y.garb).2 ++ r.2)) := by
  have hstep := syncStep_of_not_opens hy hb
  rw [feedAll_cons bs (by rw [hstep]; rfl), hstep]
  rfl

theorem feedAll_seeking_cons {s : State} {y : Sync} {b : Byte} (bs : List Byte) (garb : Word)
    (hy : betweenFrames y) (hb : ¬ opensCandidate s b) : feedAll s (b :: bs) (seekingWith y garb) =
      (feedAll s bs (seekingWith y (garbage s garb).1)).map
        (fun r => (r.1, (garbage s garb).2 ++ r.2)) :=
  feedAll_cons_garbage bs (seekingWith_betweenFrames hy garb) hb

/-- A byte of garbage does the same in Idle and in SeekingSync. -/
theorem feedAll_garbage_idle {s : State} {y : Sync} (hy : betweenFrames y) {bytes : List Byte}
    (hne : bytes ≠ []) (hall : ∀ b ∈ bytes, ¬ opensCandidate s b) :
    feedAll s bytes y = feedAll s bytes (seekingWith y y.garb) := by
  obtain ⟨b, bs, rfl⟩ := List.exists_cons_of_ne_nil hne
  have hb := hall b List.mem_cons_self
  rw [feedAll_cons_garbage bs hy hb,
    feedAll_cons_garbage bs (seekingWith_betweenFrames hy y.garb) hb]
  rfl

/-- With LOOKAHEAD 0 the bytes are counted and that is all. -/
theorem feedAll_garbage_uncounted {s : State} {y : Sync} (hzero : s.lookahead = 0#32)
    (hy : betweenFrames y) : ∀ (bytes : List Byte) (garb : Word),
    (∀ b ∈ bytes, ¬ opensCandidate s b) → feedAll s bytes (seekingWith y garb) =
      some (seekingWith y (garb + BitVec.ofNat 32 bytes.length), [])
  | [], garb, _ => by simp [feedAll]
  | b :: bs, garb, hall => by
    obtain ⟨hb, hbs⟩ := List.forall_mem_cons.mp hall
    have hcount : garb + 1#32 + BitVec.ofNat 32 bs.length =
        garb + BitVec.ofNat 32 (b :: bs).length := by
      rw [BitVec.add_assoc, List.length_cons, Nat.add_comm, BitVec.ofNat_add]
    rw [feedAll_seeking_cons bs garb hy hb, garbage_of_below (.inl hzero),
      feedAll_garbage_uncounted hzero hy bs _ hbs, hcount]
    rfl

/-- The count below LOOKAHEAD after one more byte: its residue and, when it reaches LOOKAHEAD, the
one DISCARD. -/
theorem garbage_eq_mod {s : State} {garb : Word} (h : garb.toNat < s.lookahead.toNat) :
    garbage s garb = (BitVec.ofNat 32 ((garb.toNat + 1) % s.lookahead.toNat),
      List.replicate ((garb.toNat + 1) / s.lookahead.toNat)
        (.discard .framingError s.lookahead)) := by
  have hlt := s.lookahead.isLt
  have hsucc : (garb + 1#32).toNat = garb.toNat + 1 := by
    rw [BitVec.toNat_add, BitVec.toNat_ofNat]
    omega
  by_cases hreach : garb.toNat + 1 = s.lookahead.toNat
  · have heq : garb + 1#32 = s.lookahead := BitVec.eq_of_toNat_eq (hsucc.trans hreach)
    have hne : s.lookahead ≠ 0#32 := fun h0 => by simp [h0] at h
    rw [garbage_of_reached hne (by rw [heq]), heq, hreach, Nat.mod_self, Nat.div_self (by omega)]
    rfl
  · have hbelow : garb.toNat + 1 < s.lookahead.toNat := by omega
    rw [garbage_of_below (.inr (by omega)), Nat.mod_eq_of_lt hbelow, Nat.div_eq_of_lt hbelow,
      ← hsucc, BitVec.ofNat_toNat, BitVec.setWidth_eq]
    rfl

/-- With a count below LOOKAHEAD, the bytes are counted modulo LOOKAHEAD, one DISCARD per turn. -/
theorem feedAll_garbage_counted {s : State} {y : Sync} (hy : betweenFrames y) :
    ∀ (bytes : List Byte) (garb : Word), (∀ b ∈ bytes, ¬ opensCandidate s b) →
    garb.toNat < s.lookahead.toNat → feedAll s bytes (seekingWith y garb) = some
      (seekingWith y (BitVec.ofNat 32 ((garb.toNat + bytes.length) % s.lookahead.toNat)),
        List.replicate ((garb.toNat + bytes.length) / s.lookahead.toNat)
          (.discard .framingError s.lookahead))
  | [], garb, _, hlt => by simp [feedAll, Nat.mod_eq_of_lt hlt, Nat.div_eq_of_lt hlt]
  | b :: bs, garb, hall, hlt => by
    obtain ⟨hb, hbs⟩ := List.forall_mem_cons.mp hall
    have hpos : 0 < s.lookahead.toNat := by omega
    have hmod := Nat.mod_lt (garb.toNat + 1) hpos
    have hword : (BitVec.ofNat 32 ((garb.toNat + 1) % s.lookahead.toNat)).toNat =
        (garb.toNat + 1) % s.lookahead.toNat :=
      Nat.mod_eq_of_lt (hmod.trans s.lookahead.isLt)
    have hsum : garb.toNat + (b :: bs).length = garb.toNat + 1 + bs.length := by
      rw [List.length_cons]; omega
    have hdiv : (garb.toNat + 1) / s.lookahead.toNat +
        ((garb.toNat + 1) % s.lookahead.toNat + bs.length) / s.lookahead.toNat =
        (garb.toNat + 1 + bs.length) / s.lookahead.toNat := by
      conv_rhs => rw [← Nat.div_add_mod (garb.toNat + 1) s.lookahead.toNat, Nat.add_assoc,
        Nat.mul_add_div hpos]
    rw [feedAll_seeking_cons bs garb hy hb, garbage_eq_mod hlt,
      feedAll_garbage_counted hy bs _ hbs (hword.trans_lt hmod), hword, hsum, ← hdiv,
      List.replicate_add, Nat.mod_add_mod]
    rfl

/-- Settles O37: a count of bytes one by one, without LOOKAHEAD and modulo it. -/
theorem garbageCountedToLookahead : Obligations.GarbageCountedToLookahead := by
  unfold Obligations.GarbageCountedToLookahead
  intro s y bytes hy hne hall
  rw [feedAll_garbage_idle hy hne hall]
  exact ⟨fun hzero => feedAll_garbage_uncounted hzero hy bytes y.garb hall,
    feedAll_garbage_counted hy bytes y.garb hall⟩

end Sys2Proof.Machine
end

section
/-! PROOF. Whole binary frames (42_frame_synchronizer R114 to R119, R123): the sync hunt and the
header, the payload and the trailer, each by one lemma on the state while its bytes arrive. -/

namespace Sys2Proof.Machine

/-! ## Runs of bytes that a candidate takes -/

theorem feedAll_cons_keepGoing {s : State} {y z : Sync} {b : Byte} (bs : List Byte)
    (h : syncStep s y b = keepGoing z) : feedAll s (b :: bs) y = feedAll s bs z := by
  rw [feedAll_cons bs (by rw [h]; rfl), h]
  simp

theorem feedAll_of_emit {s : State} {y : Sync} {b : Byte} {f : Frame}
    (h : syncStep s y b = emitFrame f) : feedAll s [b] y = some (syncResetState, [.frame f]) := by
  rw [feedAll_cons [] (by rw [h]; rfl), h]
  rfl

/-- A run of bytes that are each taken into the candidate: `z` gives the state by the candidate. -/
theorem feedAll_run {s : State} {z : List Byte → Sync} (rest : List Byte) :
    ∀ (xs held : List Byte), (∀ p b, p ++ [b] <+: xs →
      syncStep s (z (held ++ p)) b = keepGoing (z (held ++ p ++ [b]))) →
    feedAll s (xs ++ rest) (z held) = feedAll s rest (z (held ++ xs))
  | [], held, _ => by simp
  | b :: xs, held, hstep => by
    have hfirst := hstep [] b ⟨xs, rfl⟩
    rw [List.append_nil] at hfirst
    rw [List.cons_append, feedAll_cons_keepGoing _ hfirst, feedAll_run rest xs (held ++ [b])
      fun p c hp => ?_, List.append_assoc, List.singleton_append]
    have := hstep (b :: p) c (List.cons_prefix_cons.mpr ⟨rfl, hp⟩)
    simpa using this

/-! ## The header -/

section Binary

variable {s : State} {g : BinGrammar} {y : Sync}

/-- The state with the first bytes of a header held, its sync sequence being complete or not. -/
def inHeader (s : State) (g : BinGrammar) (y : Sync) (held : List Byte) : Sync :=
  { y with
    fbuf := held
    sstate := if held.length < (syncSeq s g).length then .seekingSync else .accumulatingLength }

@[simp] theorem inHeader_fbuf (held : List Byte) : (inHeader s g y held).fbuf = held := rfl

/-- The first byte of a header opens its candidate. -/
theorem stepBin_first {c : Byte} (fit : SyncFitsHeader s g) (hy : betweenFrames y)
    (hc : (syncSeq s g).head? = some c) : stepBin s g y c = keepGoing (inHeader s g y [c]) := by
  obtain ⟨hstate, hfbuf, _, _⟩ := hy
  have hpos := fit.pos
  have hhunt : binHunt s g y c = keepGoing (inHeader s g y [c]) := by
    rw [binHunt, if_pos hfbuf, if_pos hc, inHeader]
    by_cases hone : (syncSeq s g).length = 1
    · simp [hone]
    · have : 1 < (syncSeq s g).length := by omega
      simp [hone, this]
  rcases hstate with h | h <;> simpa only [stepBin, h] using hhunt

/-- A further byte of a header: the last one ends it, another one is held. -/
theorem stepBin_inHeader {header held : List Byte} {b : Byte} (fit : SyncFitsHeader s g)
    (hsync : syncSeq s g <+: header) (hne : held ≠ []) (hb : held ++ [b] <+: header) :
    stepBin s g (inHeader s g y held) b =
      if held.length + 1 = headerLen s g then headerDone s g (inHeader s g y held) (held ++ [b])
      else keepGoing (inHeader s g y (held ++ [b])) := by
  have hle := fit.le
  by_cases hshort : held.length < (syncSeq s g).length
  · have hstate : (inHeader s g y held).sstate = .seekingSync := if_pos hshort
    have hnext : (syncSeq s g)[held.length]? = some b := by
      obtain ⟨rest, hrest⟩ := List.prefix_of_prefix_length_le hb hsync (by simpa using hshort)
      simp [← hrest]
    simp only [stepBin, hstate]
    rw [binHunt, inHeader_fbuf, if_neg hne, if_pos hnext]
    by_cases hlast : held.length + 1 = (syncSeq s g).length
    · simp [inHeader, hlast]
    · have hmore : held.length + 1 < (syncSeq s g).length := by omega
      have hheader : held.length + 1 ≠ headerLen s g := by omega
      simp [inHeader, hshort, hlast, hmore, hheader]
  · have hstate : (inHeader s g y held).sstate = .accumulatingLength := if_neg hshort
    have hpast : ¬ held.length + 1 < (syncSeq s g).length := by omega
    simp only [stepBin, hstate]
    simp [binHeader, inHeader, hshort, hpast]

/-! ## The payload and the trailer -/

/-- The state with the header and some of the `l` payload bytes and the trailer held. -/
def inFrame (s : State) (g : BinGrammar) (y : Sync) (l : Nat) (held : List Byte) : Sync :=
  { y with
    fbuf := held
    plen := some l
    sstate := if held.length < headerLen s g + l then .accumulatingBody else .awaitingChecksum }

/-- An accepted header starts its payload, or its trailer where the payload is empty. -/
theorem headerDone_accepted {held header : List Byte} (hlen : header.length = headerLen s g)
    (hacc : headerAccepted s g header = true) : headerDone s g (inHeader s g y held) header =
      keepGoing (inFrame s g y (headerPayloadLen s g header) header) := by
  rw [headerDone, if_pos hacc]
  by_cases hzero : headerPayloadLen s g header = 0
  · simp [inHeader, inFrame, hlen, hzero]
  · simp [inHeader, inFrame, hlen, hzero, Nat.pos_of_ne_zero hzero]

/-- A further byte of the payload or the trailer: the last one is checked, another one is held. -/
theorem stepBin_inFrame {l : Nat} {held : List Byte} (b : Byte) :
    stepBin s g (inFrame s g y l held) b =
      if held.length + 1 = headerLen s g + l + trailerLen g then checkDone s g l (held ++ [b])
      else keepGoing (inFrame s g y l (held ++ [b])) := by
  have htrailer := trailerLen_pos g
  by_cases hbody : held.length < headerLen s g + l
  · have hstate : (inFrame s g y l held).sstate = .accumulatingBody := if_pos hbody
    have hnot : held.length + 1 ≠ headerLen s g + l + trailerLen g := by omega
    simp only [stepBin, hstate]
    rw [if_neg hnot]
    by_cases hlast : headerLen s g + l = held.length + 1
    · simp [binBody, inFrame, hlast]
    · have hmore : held.length + 1 < headerLen s g + l := by omega
      simp [binBody, inFrame, hbody, hlast, hmore]
  · have hstate : (inFrame s g y l held).sstate = .awaitingChecksum := if_neg hbody
    have hpast : ¬ held.length + 1 < headerLen s g + l := by omega
    simp only [stepBin, hstate]
    simp [binTrailer, inFrame, hbody, hpast]

/-! ## The frame -/

theorem syncStep_binary (hg : grammar s = .binary g) (z : Sync) (b : Byte) :
    syncStep s z b = stepBin s g z b := by
  rw [syncStep, hg]

/-- The bytes of an accepted header, from any state between frames. -/
theorem feedAll_header {header : List Byte} (rest : List Byte) (hg : grammar s = .binary g)
    (fit : SyncFitsHeader s g) (hy : betweenFrames y) (hsync : syncSeq s g <+: header)
    (hlen : header.length = headerLen s g) (hacc : headerAccepted s g header = true) :
    feedAll s (header ++ rest) y =
      feedAll s rest (inFrame s g y (headerPayloadLen s g header) header) := by
  have htwo := fit.two
  obtain ⟨c, more, rfl⟩ : ∃ c more, header = c :: more :=
    List.exists_cons_of_length_pos (by omega)
  obtain ⟨mid, last, rfl⟩ : ∃ mid last, more = mid ++ [last] := by
    refine ⟨_, _, (List.dropLast_append_getLast (List.ne_nil_of_length_pos ?_)).symm⟩
    simp only [List.length_cons] at hlen
    omega
  have hc : (syncSeq s g).head? = some c := by
    obtain ⟨d, ds, hd⟩ := List.exists_cons_of_length_pos fit.pos
    rw [hd] at hsync ⊢
    exact congrArg some (List.cons_prefix_cons.mp hsync).1
  simp only [List.length_cons, List.length_append, List.length_nil] at hlen
  have hfirst := (syncStep_binary hg y c).trans (stepBin_first fit hy hc)
  have hlast : syncStep s (inHeader s g y ([c] ++ mid)) last =
      keepGoing (inFrame s g y (headerPayloadLen s g (c :: (mid ++ [last])))
        (c :: (mid ++ [last]))) := by
    rw [syncStep_binary hg, stepBin_inHeader fit hsync (by simp) (List.prefix_refl _),
      if_pos (by simp; omega)]
    exact headerDone_accepted (by simp; omega) hacc
  calc feedAll s (c :: (mid ++ [last]) ++ rest) y
      = feedAll s (mid ++ ([last] ++ rest)) (inHeader s g y [c]) := by
        rw [List.cons_append, feedAll_cons_keepGoing _ hfirst, List.append_assoc]
    _ = feedAll s ([last] ++ rest) (inHeader s g y ([c] ++ mid)) := by
        refine feedAll_run _ mid [c] fun p b hp => ?_
        have hshort := hp.length_le
        simp only [List.length_append, List.length_singleton] at hshort
        rw [syncStep_binary hg, stepBin_inHeader fit hsync (by simp) ?_, if_neg (by simp; omega)]
        exact List.cons_prefix_cons.mpr ⟨rfl, hp.trans (List.prefix_append mid [last])⟩
    _ = _ := feedAll_cons_keepGoing rest hlast

/-- A whole frame of a binary grammar, from any state between frames: `rest` is its payload and its
trailer. -/
theorem feedAll_binFrame {header rest bytes : List Byte} {l : Nat} (hg : grammar s = .binary g)
    (legal : configLegal s = true) (hy : betweenFrames y) (hsync : syncSeq s g <+: header)
    (hlen : header.length = headerLen s g) (hacc : headerAccepted s g header = true)
    (hl : headerPayloadLen s g header = l) (hrest : rest.length = l + trailerLen g)
    (hbytes : bytes = header ++ rest) (hholds : integrityHolds s g l bytes = true) :
    feedAll s bytes y = some (syncResetState, [.frame (binFrame s g l bytes)]) := by
  subst hbytes
  have htrailer := trailerLen_pos g
  obtain ⟨init, last, rfl⟩ : ∃ init last, rest = init ++ [last] :=
    ⟨_, _, (List.dropLast_append_getLast (List.ne_nil_of_length_pos (by omega))).symm⟩
  simp only [List.length_append, List.length_singleton] at hrest
  have hlast : syncStep s (inFrame s g y l (header ++ init)) last =
      emitFrame (binFrame s g l (header ++ (init ++ [last]))) := by
    rw [syncStep_binary hg, stepBin_inFrame last, if_pos (by simp; omega),
      checkDone, List.append_assoc, if_pos hholds]
  rw [feedAll_header _ hg (syncFitsHeader legal hg) hy hsync hlen hacc, hl]
  refine (feedAll_run [last] init header fun p b hp => ?_).trans (feedAll_of_emit hlast)
  have hshort := hp.length_le
  simp only [List.length_append, List.length_singleton] at hshort
  rw [syncStep_binary hg, stepBin_inFrame b, if_neg (by simp; omega)]

end Binary

end Sys2Proof.Machine
end

section
/-! PROOF. The three binary frames by their wire layouts (42_frame_synchronizer R117, R118, R119):
each is a header the synchronizer accepts, and a rest whose check holds. -/

namespace Sys2Proof.Machine

/-! ## Fields of a frame -/

theorem frameByte_append_left {xs : List Byte} {i : Nat} (h : i < xs.length) (ys : List Byte) :
    frameByte (xs ++ ys) i = frameByte xs i :=
  List.getD_append xs ys 0#8 i h

theorem frameByte_append_add {xs : List Byte} {n : Nat} (h : xs.length = n) (ys : List Byte)
    (k : Nat) : frameByte (xs ++ ys) (n + k) = frameByte ys k := by
  rw [frameByte, List.getD_append_right xs ys 0#8 _ (by omega), h, Nat.add_sub_cancel_left]
  rfl

theorem frameU16_append_left {xs : List Byte} {i : Nat} (h : i + 1 < xs.length) (ys : List Byte) :
    frameU16 (xs ++ ys) i = frameU16 xs i := by
  rw [frameU16, frameU16, frameByte_append_left (by omega), frameByte_append_left h]

/-- A bit field that starts after `k` whole bytes. -/
theorem streamBits_shift (byteAt : Nat → Byte) (k p : Nat) : ∀ w,
    streamBits byteAt (8 * k + p) w = streamBits (fun a => byteAt (k + a)) p w
  | 0 => rfl
  | w + 1 => by
    have hdiv : (8 * k + p + w) / 8 = k + (p + w) / 8 := by omega
    have hmod : (8 * k + p + w) % 8 = (p + w) % 8 := by omega
    rw [streamBits, streamBits, streamBits_shift byteAt k p w, streamBit, streamBit, hdiv, hmod]

/-- A bit field of the payload, read in the frame. -/
theorem frameBits_of_payload {header payload : List Byte} {k w : Nat} (hk : header.length = k)
    (hw : w ≤ 8 * payload.length) (rest : List Byte) :
    frameBits (header ++ (payload ++ rest)) (8 * k) w = frameBits payload 0 w := by
  rw [frameBits, ← Nat.add_zero (8 * k), streamBits_shift]
  refine streamBits_congr fun i hi => ?_
  simp only [streamBit, frameByte_append_add hk]
  rw [frameByte_append_left (by omega)]

/-- What HeaderDone() accepts (R115), from its parts. -/
theorem headerAccepted_of {s : State} {g : BinGrammar} {header : List Byte} {l : Nat}
    (hok : headerOk s g header = true) (hl : headerPayloadLen s g header = l)
    (hmin : payloadMin s g ≤ l) (hmax : l ≤ payloadMax s g)
    (hcap : headerLen s g + l + trailerLen g ≤ s.impl.fbufCap) :
    headerAccepted s g header = true := by
  simp [headerAccepted, hok, hl, hmin, hmax, hcap]

/-! ## Integrity checks, on the bytes that they cover and the trailer -/

section Integrity

variable {s : State} {covered : List Byte} {l : Nat}

theorem integrityHolds_lenpfx (hlen : covered.length = 6 + l) (a b : Byte) :
    integrityHolds s .lenpfx l (covered ++ [a, b]) = true ↔ sum2 (covered.drop 2) = (a, b) := by
  have ha : frameByte (covered ++ [a, b]) (6 + l) = a := frameByte_append_add hlen [a, b] 0
  have hb : frameByte (covered ++ [a, b]) (7 + l) = b := by
    rw [show 7 + l = 6 + l + 1 by omega]
    exact frameByte_append_add hlen [a, b] 1
  simp only [integrityHolds, ha, hb, List.take_left' hlen, Bool.and_eq_true, beq_iff_eq, Prod.ext_iff]
  exact and_congr eq_comm eq_comm

theorem integrityHolds_bitpack (hlen : covered.length = 3 + l) (a b c : Byte) :
    integrityHolds s .bitpack l (covered ++ [a, b, c]) = true ↔
      crc24qBytes covered = a ++ b ++ c := by
  have hbyte (k : Nat) := frameByte_append_add hlen [a, b, c] k
  have ha : frameByte (covered ++ [a, b, c]) (3 + l) = a := hbyte 0
  have hb : frameByte (covered ++ [a, b, c]) (4 + l) = b := by
    rw [show 4 + l = 3 + l + 1 by omega]
    exact hbyte 1
  have hc : frameByte (covered ++ [a, b, c]) (5 + l) = c := by
    rw [show 5 + l = 3 + l + 2 by omega]
    exact hbyte 2
  simp only [integrityHolds, ha, hb, hc, List.take_left' hlen, beq_iff_eq]

theorem integrityHolds_hdr32 (hlen : covered.length = h32HdrLen s + l) (trailer : List Byte) :
    integrityHolds s .hdr32 l (covered ++ trailer) = true ↔
      crc32 (crc32Preset s) covered = trailer32 (h32TrailerBigEndian s) trailer := by
  simp only [integrityHolds, List.take_left' hlen, List.drop_left' hlen, beq_iff_eq]

end Integrity

/-! ## LENPFX -/

/-- The header of a LENPFX frame (R117). -/
def lenpfxHeader (s : State) (cls subcls : Byte) (l : Nat) : List Byte :=
  [lpS0 s, lpS1 s, cls, subcls, BitVec.ofNat 8 l, BitVec.ofNat 8 (l / 256)]

theorem headerPayloadLen_lenpfxHeader (s : State) (cls subcls : Byte) {l : Nat} (hl : l < 2 ^ 16) :
    headerPayloadLen s .lenpfx (lenpfxHeader s cls subcls l) = l := by
  simp [headerPayloadLen, frameU16, frameByte, lenpfxHeader]
  omega

/-- Settles O39: the header is the sync sequence, class, subclass and length; the rest the payload
and its sums. -/
theorem lenpfxFrameEmitted : Obligations.LenpfxFrameEmitted := by
  unfold Obligations.LenpfxFrameEmitted
  rintro s y bytes f hg hy ⟨cls, subcls, payload, hmin, hmax, hcap, hbytes, rfl⟩
  have legal : configLegal s = true := by
    simpa [configLegal, hg, binConfigLegal] using hmin.trans hmax
  have hl := headerPayloadLen_lenpfxHeader s cls subcls (hmax.trans_lt (BitVec.isLt _))
  have hacc : headerAccepted s .lenpfx (lenpfxHeader s cls subcls payload.length) = true :=
    headerAccepted_of rfl hl hmin hmax (by simp only [headerLen, trailerLen]; omega)
  have hholds : integrityHolds s .lenpfx payload.length bytes = true := by
    rw [hbytes, integrityHolds_lenpfx (by simp [lenpfxBody]; omega)]
    rfl
  have hsplit : bytes = lenpfxHeader s cls subcls payload.length ++ (payload ++ [_, _]) := hbytes
  have hfed := feedAll_binFrame hg legal hy ⟨_, rfl⟩ rfl hacc hl (by simp [trailerLen]) hsplit hholds
  rw [hfed, hbytes]
  rfl

/-! ## BITPACK -/

/-- The header of a BITPACK frame (R118). -/
def bitpackHeader (s : State) (reserved : BitVec 6) (l : Nat) : List Byte :=
  [bpPre s, reserved ++ BitVec.ofNat 2 (l / 256), BitVec.ofNat 8 l]

theorem bitpackHeader_toNat (s : State) (reserved : BitVec 6) (l : Nat) :
    (frameByte (bitpackHeader s reserved l) 1).toNat = 4 * reserved.toNat + l / 256 % 4 := by
  have happ : (reserved ++ BitVec.ofNat 2 (l / 256)).toNat = 4 * reserved.toNat + l / 256 % 4 := by
    rw [BitVec.toNat_append, ← Nat.shiftLeft_add_eq_or_of_lt (BitVec.isLt _), Nat.shiftLeft_eq,
      BitVec.toNat_ofNat]
    omega
  exact happ

theorem headerPayloadLen_bitpackHeader (s : State) (reserved : BitVec 6) {l : Nat}
    (hl : l < 2 ^ 10) : headerPayloadLen s .bitpack (bitpackHeader s reserved l) = l := by
  have hlow : (frameByte (bitpackHeader s reserved l) 2).toNat = l % 2 ^ 8 := BitVec.toNat_ofNat _ _
  rw [headerPayloadLen, frameBits_length, bitpackHeader_toNat, hlow]
  omega

theorem headerOk_bitpackHeader {s : State} {reserved : BitVec 6} (l : Nat)
    (h : bpRsvdChk s = true → reserved = 0#6) :
    headerOk s .bitpack (bitpackHeader s reserved l) = true := by
  cases hchk : bpRsvdChk s with
  | false => simp [headerOk, hchk]
  | true =>
    have hzero : (frameByte (bitpackHeader s reserved l) 1).toNat / 4 = 0 := by
      rw [bitpackHeader_toNat, h hchk, BitVec.toNat_zero]
      omega
    simp [headerOk, frameBits_reserved, hzero]

/-- A CRC-24Q by its three bytes. -/
theorem append_bytes_of_crc24q (c : BitVec 24) :
    c.extractLsb' 16 8 ++ c.extractLsb' 8 8 ++ c.extractLsb' 0 8 = c := by
  rw [BitVec.extractLsb'_append_extractLsb'_eq_extractLsb' (by rfl),
    BitVec.extractLsb'_append_extractLsb'_eq_extractLsb' (by rfl)]
  exact BitVec.extractLsb'_eq_self

/-- Settles O40: the header is the preamble, the reserved bits and the length; the rest the payload
and its CRC-24Q. -/
theorem bitpackFrameEmitted : Obligations.BitpackFrameEmitted := by
  unfold Obligations.BitpackFrameEmitted
  rintro s y bytes f hg legal hy ⟨reserved, payload, hreserved, hmin, hmax, hcap, hbytes, rfl⟩
  have hl := headerPayloadLen_bitpackHeader s reserved (hmax.trans_lt (BitVec.isLt _))
  have hacc : headerAccepted s .bitpack (bitpackHeader s reserved payload.length) = true :=
    headerAccepted_of (headerOk_bitpackHeader _ hreserved) hl hmin hmax
      (by simp only [headerLen, trailerLen]; omega)
  have hholds : integrityHolds s .bitpack payload.length bytes = true := by
    rw [hbytes, integrityHolds_bitpack (by simp [bitpackBody]; omega), append_bytes_of_crc24q]
  have hsplit : bytes = bitpackHeader s reserved payload.length ++ (payload ++ _) :=
    hbytes.trans (List.append_assoc _ _ _)
  have hfed := feedAll_binFrame hg legal hy ⟨_, rfl⟩ rfl hacc hl (by simp [trailerLen]) hsplit hholds
  have hid : frameId s .bitpack payload.length bytes =
      if bpTypeBits s ≠ 0 ∧ bpTypeBits s ≤ 8 * payload.length
        then .typeCode (BitVec.ofNat 32 (frameBits payload 0 (bpTypeBits s))) else .none := by
    unfold frameId
    refine if_ctx_congr Iff.rfl (fun h => ?_) fun _ => rfl
    rw [hsplit]
    exact congrArg _ (congrArg _ (frameBits_of_payload (k := 3) rfl h.2 _))
  rw [hfed, binFrame, hid]
  rfl

/-! ## HDR32 -/

/-- A CRC-32 trailer in either byte order is the CRC (R119). -/
theorem trailer32_littleEndian32 (bigEndian : Bool) (c : Word) : trailer32 bigEndian
    (if bigEndian then (littleEndian32 c).reverse else littleEndian32 c) = c := by
  cases bigEndian <;> exact append_bytes_of_word c

theorem length_hdr32Trailer (bigEndian : Bool) (c : Word) :
    (if bigEndian then (littleEndian32 c).reverse else littleEndian32 c).length = 4 := by
  cases bigEndian <;> rfl

/-- Settles O41: the header holds the sync sequence and, at their offsets, the length and the
identifier; the rest is the payload and its CRC-32. -/
theorem hdr32FrameEmitted : Obligations.Hdr32FrameEmitted := by
  unfold Obligations.Hdr32FrameEmitted
  rintro s y bytes f hg legal hy ⟨header, payload, hlen, hsync, hl, hmin, hmax, hcap, hbytes, rfl⟩
  obtain ⟨⟨⟨⟨⟨_, _⟩, _⟩, hlenOff⟩, hidOff⟩, _⟩ :
      ((((_ ∧ _) ∧ _) ∧ h32LenOff s + 2 ≤ h32HdrLen s) ∧ h32IdOff s + 2 ≤ h32HdrLen s) ∧ _ := by
    simpa only [configLegal, hg, binConfigLegal, Bool.and_eq_true, decide_eq_true_eq] using legal
  have hacc : headerAccepted s .hdr32 header = true :=
    headerAccepted_of rfl hl hmin hmax (by simp only [headerLen, trailerLen]; omega)
  have hholds : integrityHolds s .hdr32 payload.length bytes = true := by
    rw [hbytes, integrityHolds_hdr32 (by simp [hlen]), trailer32_littleEndian32]
  have hsplit := hbytes.trans (List.append_assoc _ _ _)
  have hfed := feedAll_binFrame hg legal hy hsync hlen hacc hl
    (by rw [List.length_append, length_hdr32Trailer, trailerLen]) hsplit hholds
  have hid : frameU16 bytes (h32IdOff s) = frameU16 header (h32IdOff s) := by
    rw [hsplit, frameU16_append_left (by omega)]
  rw [hfed, binFrame, frameId, hid, headerLen, hlen]

end Sys2Proof.Machine
end

section
/-! PROOF. ASCII sentences (42_frame_synchronizer R109 to R112, R123), and resynchronisation between
two frames of any grammar. -/

namespace Sys2Proof.Machine

/-! ## Checksum digits and identifiers -/

theorem hexVal_eq_some_iff (b : Byte) (v : Nat) : hexVal b = some v ↔ hexDigitIs b v := by
  unfold hexVal hexDigitIs
  split_ifs <;> simp <;> omega

/-- The identifier of R112 is the one AsciiId computes. -/
theorem isAsciiId_eq {payload : List Byte} {id : MsgId} (h : isAsciiId payload id) :
    id = asciiId payload := by
  obtain ⟨a, hsplit, hcomma, hshort, hlong⟩ := h
  have hall : ∀ b ∈ a, (b != 0x2C#8) = true := fun b hb => bne_iff_ne.mpr fun e => hcomma (e ▸ hb)
  have haddress : payload.takeWhile (fun b => b != 0x2C#8) = a := by
    rcases hsplit with rfl | ⟨rest, rfl⟩
    · exact List.takeWhile_eq_self_iff.mpr hall
    · rw [List.takeWhile_append_of_pos hall]
      simp
  simp only [asciiId, haddress]
  by_cases hp : a.head? = some 0x50#8 ∨ a.head? = some 0x70#8
  · rw [if_pos hp]
    obtain ⟨b, rest, rfl⟩ : ∃ b rest, a = b :: rest :=
      List.exists_cons_of_ne_nil fun e => by simp [e] at hp
    exact hshort ⟨b, rest, rfl, by simpa using hp⟩
  · rw [if_neg hp]
    obtain ⟨hless, hsplits⟩ := hlong fun b rest e => by simpa [e] using hp
    match a with
    | [] | [_] | [_, _] => exact hless (by simp)
    | c :: d :: e :: rest => exact hsplits c d (e :: rest) rfl (by simp)

/-! ## A sentence byte by byte -/

section Sentence

variable {s : State} {y : Sync}

/-- The state with the marker and some payload bytes held. -/
def inSentence (y : Sync) (held : List Byte) : Sync :=
  { y with fbuf := held, sstate := .accumulatingBody }

/-- The state with the `*` at `star` held, and some digits. -/
def inChecksum (y : Sync) (star : Nat) (held : List Byte) : Sync :=
  { y with fbuf := held, star := some star, sstate := .awaitingChecksum }

theorem syncStep_ascii (hg : grammar s = .ascii) (z : Sync) (b : Byte) :
    syncStep s z b = stepAscii s z b := by
  rw [syncStep, hg]

theorem stepAscii_marker {marker : Byte} (hy : betweenFrames y)
    (hmarker : marker = 0x24#8 ∨ marker = 0x21#8) :
    stepAscii s y marker = keepGoing (inSentence y [marker]) := by
  obtain ⟨hstate, _⟩ := hy
  have hm : isMarker marker = true := by simpa [isMarker] using hmarker
  rcases hstate with h | h <;> simp [stepAscii, h, asciiHunt, hm, inSentence]

/-- The bytes that a payload may hold: no marker, no line ending and no `*`. -/
def isPayloadByte (b : Byte) : Prop := b ∉ [0x24#8, 0x21#8, 0x0D#8, 0x0A#8, 0x2A#8]

theorem stepAscii_payload {held : List Byte} {b : Byte} (hb : isPayloadByte b)
    (hlen : held.length + 1 ≤ asciiMaxLen s) :
    stepAscii s (inSentence y held) b = keepGoing (inSentence y (held ++ [b])) := by
  simp only [isPayloadByte, List.mem_cons, List.not_mem_nil, or_false, not_or] at hb
  obtain ⟨h1, h2, h3, h4, h5⟩ := hb
  simp [stepAscii, inSentence, asciiBody, isLineEnd, isMarker, h1, h2, h3, h4, h5,
    Nat.not_lt.mpr hlen]

theorem stepAscii_star {held : List Byte} (hlen : held.length + 1 ≤ asciiMaxLen s) :
    stepAscii s (inSentence y held) 0x2A#8 =
      keepGoing (inChecksum y held.length (held ++ [0x2A#8])) := by
  simp [stepAscii, inSentence, inChecksum, asciiBody, isLineEnd, isMarker, Nat.not_lt.mpr hlen]

theorem stepAscii_lineEnd {held : List Byte} {ending : Byte}
    (hending : ending = 0x0D#8 ∨ ending = 0x0A#8) :
    stepAscii s (inSentence y held) ending = emitFrame (asciiFrame held held.length false) := by
  have hend : isLineEnd ending = true := by simpa [isLineEnd] using hending
  simp [stepAscii, inSentence, asciiBody, hend]

/-- The first checksum digit. -/
theorem stepAscii_firstDigit {star : Nat} {held : List Byte} {b : Byte} {v : Nat}
    (hv : hexVal b = some v) (hlen : held.length + 1 ≤ asciiMaxLen s)
    (hfirst : held.length + 1 ≠ star + 3) :
    stepAscii s (inChecksum y star held) b = keepGoing (inChecksum y star (held ++ [b])) := by
  have hdigit : asciiDigit (inChecksum y star held) (held ++ [b]) =
      keepGoing (inChecksum y star (held ++ [b])) :=
    if_neg (by simpa using hfirst)
  simpa [stepAscii, inChecksum, asciiChecksum, hv, Nat.not_lt.mpr hlen] using hdigit

/-- The second checksum digit of a sentence whose digits are right. -/
theorem stepAscii_lastDigit {star : Nat} {held : List Byte} {b : Byte} {v : Nat}
    (hv : hexVal b = some v) (hlen : held.length + 1 ≤ asciiMaxLen s)
    (hlast : held.length + 1 = star + 3) (hsum : asciiSumHolds (held ++ [b]) star = true) :
    stepAscii s (inChecksum y star held) b = emitFrame (asciiFrame (held ++ [b]) star true) := by
  have hdigit : asciiDigit (inChecksum y star held) (held ++ [b]) =
      emitFrame (asciiFrame (held ++ [b]) star true) :=
    (if_pos (by simpa using hlast)).trans (if_pos hsum)
  simpa [stepAscii, inChecksum, asciiChecksum, hv, Nat.not_lt.mpr hlen] using hdigit

/-- The marker and the payload, from any state between frames. -/
theorem feedAll_sentence {marker : Byte} {payload : List Byte} (rest : List Byte)
    (hg : grammar s = .ascii) (hy : betweenFrames y) (hmarker : marker = 0x24#8 ∨ marker = 0x21#8)
    (hpayload : ∀ b ∈ payload, isPayloadByte b) (hlen : payload.length + 1 ≤ asciiMaxLen s) :
    feedAll s (marker :: payload ++ rest) y = feedAll s rest (inSentence y (marker :: payload)) := by
  have hfirst := (syncStep_ascii hg y marker).trans (stepAscii_marker hy hmarker)
  rw [List.cons_append, feedAll_cons_keepGoing _ hfirst]
  refine feedAll_run (z := inSentence y) rest payload [marker] fun p b hp => ?_
  have hshort := hp.length_le
  simp only [List.length_append, List.length_singleton] at hshort
  rw [syncStep_ascii hg]
  exact stepAscii_payload (hpayload b (hp.subset (by simp))) (by simp; omega)

/-- The checksum test on a sentence written out (R111). -/
theorem asciiSumHolds_sentence {marker hi lo : Byte} {payload : List Byte} {h l : Nat}
    (hhi : hexVal hi = some h) (hlo : hexVal lo = some l)
    (hsum : (xor8 payload).toNat = 16 * h + l) : asciiSumHolds (marker :: payload ++ [0x2A#8, hi, lo]) (payload.length + 1) = true := by
  simp [asciiSumHolds, hhi, hlo, hsum]

end Sentence

/-- A whole sentence with its checksum, from any state between frames. -/
theorem feedAll_asciiSentence {s : State} {y : Sync} {bytes : List Byte} {f : Frame}
    (hg : grammar s = .ascii) (hy : betweenFrames y) (h : asciiSentence s bytes f) :
    feedAll s bytes y = some (syncResetState, [.frame f]) := by
  obtain ⟨marker, hi, lo, payload, h, l, hmarker, hpayload, hlen, hhi, hlo, hsum, rfl, id, hid,
    rfl⟩ := h
  have hstar : syncStep s (inSentence y (marker :: payload)) 0x2A#8 =
      keepGoing (inChecksum y (payload.length + 1) (marker :: payload ++ [0x2A#8])) := by
    rw [syncStep_ascii hg]
    exact stepAscii_star (by simp; omega)
  have hfirst : syncStep s (inChecksum y (payload.length + 1) (marker :: payload ++ [0x2A#8])) hi =
      keepGoing (inChecksum y (payload.length + 1) (marker :: payload ++ [0x2A#8] ++ [hi])) := by
    rw [syncStep_ascii hg]
    exact stepAscii_firstDigit hhi (by simp; omega) (by simp)
  have hlast : syncStep s
      (inChecksum y (payload.length + 1) (marker :: payload ++ [0x2A#8] ++ [hi])) lo =
      emitFrame (asciiFrame (marker :: payload ++ [0x2A#8, hi, lo]) (payload.length + 1) true) := by
    have hsum' := asciiSumHolds_sentence (marker := marker) hhi hlo hsum
    rw [syncStep_ascii hg, stepAscii_lastDigit hlo (by simp; omega) (by simp)
      (by simpa using hsum')]
    simp
  rw [feedAll_sentence _ hg hy hmarker hpayload (by omega), feedAll_cons_keepGoing _ hstar,
    feedAll_cons_keepGoing _ hfirst, feedAll_of_emit hlast, isAsciiId_eq hid]
  simp [asciiFrame]

/-- A sentence without a `*` and its line ending, from any state between frames. -/
theorem feedAll_asciiUnterminated {s : State} {y : Sync} {bytes : List Byte} {f : Frame}
    {ending : Byte} (hg : grammar s = .ascii) (hy : betweenFrames y) (h : asciiUnterminated s bytes f)
    (hending : ending = 0x0D#8 ∨ ending = 0x0A#8) :
    feedAll s (bytes ++ [ending]) y = some (syncResetState, [.frame f]) := by
  obtain ⟨marker, payload, hmarker, hpayload, hlen, rfl, id, hid, rfl⟩ := h
  rw [feedAll_sentence _ hg hy hmarker hpayload hlen,
    feedAll_of_emit ((syncStep_ascii hg _ _).trans (stepAscii_lineEnd hending)), isAsciiId_eq hid]
  simp [asciiFrame]

/-- Settles O38: the digit's value by its three ranges, then the two forms of a sentence. -/
theorem asciiSentenceEmitted : Obligations.AsciiSentenceEmitted := by
  unfold Obligations.AsciiSentenceEmitted
  exact ⟨hexVal_eq_some_iff, fun s y bytes f hg hy =>
    ⟨feedAll_asciiSentence hg hy, fun h ending => feedAll_asciiUnterminated hg hy h⟩⟩

/-! ## Resynchronisation -/

/-- A whole valid frame of the selected grammar, from any state between frames (R123 (a)). -/
theorem feedAll_wholeFrame {s : State} {y : Sync} {bytes : List Byte} {f : Frame}
    (legal : configLegal s = true) (hy : betweenFrames y) (h : wholeFrame s bytes f) :
    feedAll s bytes y = some (syncResetState, [.frame f]) := by
  unfold wholeFrame at h
  split at h
  case h_1 hg => exact feedAll_asciiSentence hg hy h
  case h_2 hg => exact lenpfxFrameEmitted s y bytes f hg hy h
  case h_3 hg => exact bitpackFrameEmitted s y bytes f hg legal hy h
  case h_4 hg => exact hdr32FrameEmitted s y bytes f hg legal hy h

/-- Garbage after a reset: one DISCARD per LOOKAHEAD bytes, and no candidate open. -/
theorem feedAll_garbage_after_reset {s : State} {bytes : List Byte}
    (hall : ∀ b ∈ bytes, ¬ opensCandidate s b) : ∃ y, betweenFrames y ∧
      feedAll s bytes syncResetState = some (y,
        List.replicate (if s.lookahead = 0#32 then 0 else bytes.length / s.lookahead.toNat)
          (.discard .framingError s.lookahead)) := by
  have hreset : betweenFrames syncResetState := ⟨.inl rfl, rfl, rfl, rfl⟩
  by_cases hnil : bytes = []
  · subst hnil
    exact ⟨_, hreset, by simp [feedAll]⟩
  · rw [feedAll_garbage_idle hreset hnil hall]
    by_cases hzero : s.lookahead = 0#32
    · rw [if_pos hzero]
      exact ⟨_, seekingWith_betweenFrames hreset _,
        feedAll_garbage_uncounted hzero hreset bytes _ hall⟩
    · have hpos : (0#32).toNat < s.lookahead.toNat :=
        Nat.pos_of_ne_zero fun h => hzero (BitVec.eq_of_toNat_eq h)
      have hcounted := feedAll_garbage_counted hreset bytes 0#32 hall hpos
      rw [BitVec.toNat_zero, Nat.zero_add] at hcounted
      rw [if_neg hzero]
      exact ⟨_, seekingWith_betweenFrames hreset _, hcounted⟩

/-- Settles O42: the frame, the garbage and the frame are fed one after another. -/
theorem resynchronisedAfterGarbage : Obligations.ResynchronisedAfterGarbage := by
  unfold Obligations.ResynchronisedAfterGarbage
  intro s first garbage last f g legal hfirst hlast hall
  have hreset : betweenFrames syncResetState := ⟨.inl rfl, rfl, rfl, rfl⟩
  obtain ⟨y, hy, hgarbage⟩ := feedAll_garbage_after_reset hall
  simp [feedAll_append, feedAll_wholeFrame legal hreset hfirst, hgarbage,
    feedAll_wholeFrame legal hy hlast]

end Sys2Proof.Machine
end

section
/-! PROOF. The navigation validator's commands and NOP (43_nav_validator R125 to R131): the fields of
NAV_CFG0 and NAV_CFG1 by their bit positions, one equation for each command with its checks in their
order, and the clauses of the claims from these equations. -/

namespace Sys2Proof.Machine

open Sys2Proof.Config

/-! ## Fields and checks -/

theorem sfIdOff_eq (s : State) : sfIdOff s = s.navCfg0.toNat / 2 ^ 8 % 2 ^ 8 := extractLsb'_toNat _ _ _

theorem sfIdW_eq (s : State) : sfIdW s = s.navCfg0.toNat / 2 ^ 16 % 2 ^ 3 := extractLsb'_toNat _ _ _

theorem wdIdOff_eq (s : State) : wdIdOff s = s.navCfg1.toNat % 2 ^ 8 := extractLsb'_zero_toNat _ _

theorem wdIdW_eq (s : State) : wdIdW s = s.navCfg1.toNat / 2 ^ 8 % 2 ^ 3 := extractLsb'_toNat _ _ _

theorem subframeId_eq (s : State) :
    subframeId s = fieldValue s.cbuf (8 * s.arg0.toNat + sfIdOff s) (sfIdW s) :=
  cbufBits_eq _ _ _

theorem wordId_eq (s : State) :
    wordId s = fieldValue s.cbuf (8 * s.arg0.toNat + wdIdOff s) (wdIdW s) :=
  cbufBits_eq _ _ _

theorem idAccepted_iff (validSet : Word) (id : Nat) (e : Byte) : idAccepted validSet id e = true ↔
    validSet.getLsbD id = true ∧ (e.toNat = 0 ∨ id = e.toNat) := by
  have hany : e = 0#8 ↔ e.toNat = 0 := BitVec.toNat_eq
  simp [idAccepted, hany]

/-- A check of a command, by what it tests. -/
theorem guard_eq {b : Bool} {P : Prop} [Decidable P] (h : b = true ↔ P) (code : ErrCode) (s : State)
    (r : Result) :
    (if !b then raise code s else r) = if P then r else .next (faulted code s) := by
  by_cases hP : P
  · rw [guard_pos (h.mpr hP), if_pos hP]
  · have hb : b = false := Bool.eq_false_iff.mpr fun hb => hP (h.mp hb)
    rw [hb, if_neg hP]
    exact raise_eq code s

/-! ## What each command does -/

theorem exec_navsf (e : Byte) (s : State) : exec (.navsf e) s =
    if 1 ≤ sfIdW s ∧ sfIdW s ≤ 5 ∧ sfIdOff s + sfIdW s ≤ 240 then
      if s.arg0.toNat + 30 ≤ s.clen.toNat then
        if s.cbuf.read s.arg0.toNat = navPre s ∧ s.navSfset.getLsbD (subframeId s) = true ∧
            (e.toNat = 0 ∨ subframeId s = e.toNat) then
          .next { s with navid := BitVec.ofNat 32 (subframeId s), lastErr := .none }
        else .next (faulted .structureMismatch s)
      else .next (faulted .truncatedInput s)
    else .next (faulted .configError s) := by
  rw [exec, execNavsf, guard_eq (navSfLegal_iff s), guard_eq (unitFits_iff s _),
    guard_eq (idAccepted_iff _ _ _), ite_not, raise_eq, complete_eq, ← ite_and]
  rfl

theorem exec_navwd (e : Byte) (s : State) : exec (.navwd e) s =
    if 1 ≤ wdIdW s ∧ wdIdW s ≤ 5 ∧ wdIdOff s + wdIdW s ≤ 88 then
      if s.arg0.toNat + 11 ≤ s.clen.toNat then
        if s.navWdset.getLsbD (wordId s) = true ∧ (e.toNat = 0 ∨ wordId s = e.toNat) then
          .next { s with navid := BitVec.ofNat 32 (wordId s), lastErr := .none }
        else .next (faulted .structureMismatch s)
      else .next (faulted .truncatedInput s)
    else .next (faulted .configError s) := by
  rw [exec, execNavwd, guard_eq (navWdLegal_iff s), guard_eq (unitFits_iff s _),
    guard_eq (idAccepted_iff _ _ _), complete_eq]
  rfl

theorem exec_navpar {u : Byte} (hu : u.toNat ≤ 1) (s : State) : exec (.navpar u) s =
    if s.arg0.toNat + unitLen (unitKindOf u) ≤ s.clen.toNat then
      if navParityHolds s (unitKindOf u)
          (bytesAt s.cbuf s.arg0.toNat (unitLen (unitKindOf u))) = true then
        .next { s with lastErr := .none }
      else .next (faulted .structureMismatch s)
    else .next (faulted .truncatedInput s) := by
  rw [exec, execNavpar, guard_pos ((unitKindOk_iff u).mpr hu), guard_eq (unitFits_iff s _),
    guard_eq Iff.rfl, complete_eq, cbufBytes_eq]

/-! ## The claims -/

/-- Range, then acceptance: the outcomes of a unit of `n` bytes whose configuration is legal. -/
theorem unit_outcomes {r done : Result} {s : State} {n : Nat} {accepted : Prop} [Decidable accepted]
    (h : r = if s.arg0.toNat + n ≤ s.clen.toNat then
        if accepted then done else .next (faulted .structureMismatch s)
      else .next (faulted .truncatedInput s)) :
    (s.arg0.toNat + n ≤ s.clen.toNat → accepted → r = done) ∧
    (s.arg0.toNat + n ≤ s.clen.toNat → ¬ accepted → r = .next (faulted .structureMismatch s)) ∧
    (s.clen.toNat < s.arg0.toNat + n → r = .next (faulted .truncatedInput s)) := by
  subst h
  refine ⟨fun fits haccepted => ?_, fun fits hrejected => ?_, fun past => ?_⟩
  · rw [if_pos fits, if_pos haccepted]
  · rw [if_pos fits, if_neg hrejected]
  · rw [if_neg (not_le.mpr past)]

/-- Configuration, range, acceptance: the outcomes of NAVSF and NAVWD. -/
theorem id_outcomes {r done : Result} {s : State} {n : Nat} {legal accepted : Prop} [Decidable legal]
    [Decidable accepted]
    (h : r = if legal then
        if s.arg0.toNat + n ≤ s.clen.toNat then
          if accepted then done else .next (faulted .structureMismatch s)
        else .next (faulted .truncatedInput s)
      else .next (faulted .configError s)) :
    (legal → s.arg0.toNat + n ≤ s.clen.toNat → accepted → r = done) ∧
    (¬ legal → r = .next (faulted .configError s)) ∧
    (legal → s.clen.toNat < s.arg0.toNat + n → r = .next (faulted .truncatedInput s)) ∧
    (legal → s.arg0.toNat + n ≤ s.clen.toNat → ¬ accepted →
      r = .next (faulted .structureMismatch s)) := by
  by_cases hlegal : legal
  · rw [if_pos hlegal] at h
    obtain ⟨hdone, hmismatch, hpast⟩ := unit_outcomes h
    exact ⟨fun _ => hdone, fun illegal => absurd hlegal illegal, fun _ => hpast, fun _ => hmismatch⟩
  · rw [if_neg hlegal] at h
    exact ⟨fun hl => absurd hl hlegal, fun _ => h, fun hl => absurd hl hlegal,
      fun hl => absurd hl hlegal⟩

/-- Settles O45: its row admits every byte; the equation of NAVSF in the fields of NAV_CFG0. -/
theorem navsfValidates : Obligations.NavsfValidates := by
  unfold Obligations.NavsfValidates
  refine ⟨encodedWith_of_row (admits := fun _ => true) .unusedImmediate (by simp [opRows])
      (fun _ => by simp), fun e s => ?_⟩
  simp only [← sfIdOff_eq, ← sfIdW_eq, ← subframeId_eq]
  exact id_outcomes (exec_navsf e s)

/-- Settles O46: its row admits every byte; the equation of NAVWD in the fields of NAV_CFG1. -/
theorem navwdValidates : Obligations.NavwdValidates := by
  unfold Obligations.NavwdValidates
  refine ⟨encodedWith_of_row (admits := fun _ => true) .unusedImmediate (by simp [opRows])
      (fun _ => by simp), fun e s => ?_⟩
  simp only [← wdIdOff_eq, ← wdIdW_eq, ← wordId_eq]
  exact id_outcomes (exec_navwd e s)

/-- Settles O47: the two unit kinds by their immediates; the parity predicate is not opened. -/
theorem navparChecksParity : Obligations.NavparChecksParity := by
  unfold Obligations.NavparChecksParity
  refine ⟨encodedWith_of_row .unitKind (by simp [opRows]) unitKindOk_iff, ?_⟩
  intro u s kind n hkind parity
  obtain ⟨hu, rfl, rfl⟩ : u.toNat ≤ 1 ∧ kind = unitKindOf u ∧ n = unitLen (unitKindOf u) := by
    rcases hkind with ⟨rfl, rfl, rfl⟩ | ⟨rfl, rfl, rfl⟩
    · exact ⟨by decide, rfl, rfl⟩
    · exact ⟨by decide, rfl, rfl⟩
  obtain ⟨hdone, hmismatch, hpast⟩ := unit_outcomes (exec_navpar hu s)
  exact ⟨hdone, fun fits hodd => hmismatch fits (Bool.eq_false_iff.mp hodd), hpast⟩

/-- Settles O48: its row's word, and NOP has no check. -/
theorem nopClearsLastErr : Obligations.NopClearsLastErr := by
  unfold Obligations.NopClearsLastErr
  exact ⟨encodedPlain_of_row (by simp [opRows]), complete_eq⟩

end Sys2Proof.Machine
end

section
/-! PROOF. Completion and the order of faults (60_exceptions R138, R149): a command is a list of checks
and an ending, so it answers a next state that reports the first condition that holds. One rule for a
check and one for each ending, then every command as its list; the steps follow from the commands. -/

namespace Sys2Proof.Machine

/-! ## A list of checks -/

/-- The result is a next state whose LAST_ERR is the code of the first condition that holds, or none. -/
def ReportsFirst (conditions : List (Bool × ErrCode)) (r : Result) : Prop :=
  ∃ t, r = .next t ∧
    t.lastErr = match conditions.find? (fun c => c.1) with
      | none => .none
      | some c => c.2

theorem reportsFirst_faultConditions {i : Instr} {s : State} {r : Result}
    (h : ReportsFirst (faultConditions i s) r) : ∃ t, r = .next t ∧ t.lastErr = firstFault i s := h

theorem reportsFirst_complete (s : State) : ReportsFirst [] (complete s) := ⟨_, rfl, rfl⟩

theorem reportsFirst_pushBytes (bytes : List Byte) (s : State) :
    ReportsFirst [] (pushBytes bytes s) := by
  obtain ⟨r, -, hpush⟩ := pushBytes_spec bytes s
  exact ⟨_, hpush, rfl⟩

/-- A check goes before the conditions of what comes after it. -/
theorem ReportsFirst.check {conditions : List (Bool × ErrCode)} {r : Result} {b : Bool} {c : Prop}
    [Decidable c] {s : State} {code : ErrCode} (h : b = true ↔ c) (hr : ReportsFirst conditions r) :
    ReportsFirst ((b, code) :: conditions) (if c then raise code s else r) := by
  by_cases hc : c
  · rw [if_pos hc]
    exact ⟨_, raise_eq code s, by rw [List.find?_cons_of_pos (h.mpr hc)]; rfl⟩
  · obtain ⟨t, rfl, ht⟩ := hr
    rw [if_neg hc]
    exact ⟨t, rfl, by rw [List.find?_cons_of_neg (mt h.mp hc)]; exact ht⟩

/-- The check of a Bool condition. -/
theorem ReportsFirst.guard {conditions : List (Bool × ErrCode)} {r : Result} {b : Bool} {s : State}
    {code : ErrCode} (hr : ReportsFirst conditions r) :
    ReportsFirst ((!b, code) :: conditions) (if !b then raise code s else r) :=
  hr.check Iff.rfl

/-- The check of an id is two conditions in turn: the id set, then the expected id
(43_nav_validator R127, R128). -/
theorem ReportsFirst.idCheck {conditions : List (Bool × ErrCode)} {r : Result} {validSet : Word}
    {id : Nat} {e : Byte} {s : State} {code : ErrCode} (hr : ReportsFirst conditions r) :
    ReportsFirst
      ((!validSet.getLsbD id, code) :: (e != 0#8 && id != e.toNat, code) :: conditions)
      (if !idAccepted validSet id e then raise code s else r) := by
  have split_check : (if !idAccepted validSet id e then raise code s else r) =
      if !validSet.getLsbD id then raise code s
      else if e != 0#8 && id != e.toNat then raise code s else r := by
    cases h : validSet.getLsbD id <;> simp [idAccepted, h]
  rw [split_check]
  exact .guard (.check Iff.rfl hr)

/-! ## Every command -/

/-- Every command completes and reports the first of its conditions: its checks stand in the order of
60_exceptions R138. -/
theorem exec_reportsFirst (i : Instr) (s : State) :
    ReportsFirst (faultConditions i s) (exec i s) := by
  have done := reportsFirst_complete
  cases i with
  | nop => exact done _
  | rdu w => exact (done _).guard.guard
  | wru w => exact (done _).guard.guard
  | rdsm w => exact (done _).guard.guard
  | rdx38 => exact (done _).guard
  | scaleu k => exact (done _).guard
  | scales k => exact (done _).guard
  | scalef k => exact (done _).guard
  | xor8 => exact (done _).guard
  | sum2 => exact (done _).guard
  | crc32 => exact (done _).guard
  | crc24q => exact (done _).guard
  | crc24qb => exact (done _).guard
  | push b => exact (reportsFirst_pushBytes _ s).guard
  | pushn => exact (reportsFirst_pushBytes _ s).guard.guard
  | sreset => exact done _
  | navsf e => exact .guard (.guard (.check bne_iff_ne (.idCheck (done _))))
  | navwd e => exact .guard (.guard (.idCheck (done _)))
  | navpar u => exact (done _).guard.guard.guard

theorem exec_completes (i : Instr) (s : State) : ∃ t, exec i s = .next t := by
  obtain ⟨t, ht, -⟩ := exec_reportsFirst i s
  exact ⟨t, ht⟩

/-- A word written to CMD completes, whether it is legal or not, with the code of R138. -/
theorem runCommand_reportedFault (w : Word) (s : State) :
    ∃ t, runCommand w s = .next t ∧ t.lastErr = reportedFault w s := by
  unfold runCommand reportedFault
  cases decode w with
  | error e => exact ⟨_, raise_eq _ s, rfl⟩
  | ok i => exact reportsFirst_faultConditions (exec_reportsFirst i s)

/-- Settles O9: the word's next state is the one with that code. -/
theorem firstFaultReported : Obligations.FirstFaultReported := by
  unfold Obligations.FirstFaultReported
  intro w s t h
  obtain ⟨t', h', hcode⟩ := runCommand_reportedFault w s
  cases h'.symm.trans h
  exact hcode

/-! ## Every step -/

theorem serveAccess_completes (a : PortAccess) (s : State) : ∃ t, serveAccess a s = .next t := by
  rcases serveAccess_cases a s with ⟨_, _, _, h⟩ | ⟨_, _, w, _, _, h⟩ | ⟨_, _, _, _, _, h⟩
  · exact ⟨_, h⟩
  · obtain ⟨t, ht, -⟩ := runCommand_reportedFault w s
    exact ⟨t, h.trans ht⟩
  · exact ⟨_, h⟩

theorem serveInput_completes {input : HostInput} (hone : ∀ a b, input ≠ .twoAgents a b)
    (s : State) : ∃ t, serveInput input s = .next t := by
  cases input with
  | access a => exact serveAccess_completes a s
  | addressed bits address data =>
    rw [serveInput]
    cases offsetOf s address with
    | none => exact ⟨s, rfl⟩
    | some o => exact serveAccess_completes _ s
  | blockReset => exact ⟨blockReset s, rfl⟩
  | twoAgents a b => exact absurd rfl (hone a b)

theorem step_of_pending {s : State} {input : HostInput} {rest : List HostInput}
    (h : s.pending = input :: rest) : step s = serveInput input { s with pending := rest } := by
  rw [step, servePending, h]

/-- Settles O7: a command by its list of checks, a step by the input that it serves. -/
theorem everyStepCompletes : Obligations.EveryStepCompletes := by
  unfold Obligations.EveryStepCompletes
  refine ⟨exec_completes, fun s hone => ?one, fun s a b htwo => ?two⟩
  case one =>
    cases hp : s.pending with
    | nil => exact ⟨s, by rw [step, servePending, hp]⟩
    | cons input rest =>
      rw [step_of_pending hp]
      exact serveInput_completes (fun a b hi => hone a b (by rw [hp, hi]; rfl)) _
  case two =>
    obtain ⟨rest, hp⟩ := List.head?_eq_some_iff.mp htwo
    rw [step_of_pending hp]
    rfl

end Sys2Proof.Machine
end
